-- ==== Sys2Proof/Word.lean ====
section
/-! DEFINITION. The two widths of the block's values: bytes, and 32-bit words (spec 00_scope.md R5 XLEN, R7). -/

namespace Sys2Proof

/-- One byte of a byte store, of a frame or of a byte operand. -/
abbrev Byte := BitVec 8

/-- A register, a field value or a response word: XLEN is fixed at 32 (R5, decision D3). -/
abbrev Word := BitVec 32

end Sys2Proof
end

