-- ==== Sys2Proof/Config.lean ====
section
/-! DEFINITION. What an implementation fixes (spec 00_scope.md R5) and the values the spec leaves free (R10 draw,
10_state.md R41, 41_integrity_unit.md R120). The parameters are plain data and stand in State.params, so that a statement over all states
is a statement over all parameters (log 1). -/

namespace Sys2Proof

/-- BYTE_ORDER of the field codec (R5, 20_memory.md R52). -/
inductive ByteOrder where
  | le
  | be
deriving DecidableEq, Repr

/-- Which integrity unit is attached. `attached` is the spec's open parameter HASH (R120); the other three are the fixture
functions of 41_integrity_unit.md R124, kept selectable so that the spec's own vectors and programs run (log 2). -/
inductive HashUnit where
  | attached
  | sum8
  | xor8
  | sum16
deriving DecidableEq, Repr

/-- The implementation parameters of R5, except TS_SRC. CAP and TXCAP are as wide as their fields of PARAM0 and PARAM1;
FS_MAX is 0..16, N_CMD is 0..32 (0 is excluded by `Params.wf`). -/
structure Params where
  cap : BitVec 16
  fsMax : Fin 17
  nCmd : Fin 33
  txcap : BitVec 16
  byteOrder : ByteOrder
  noIntDispatch : Bool
  hash : HashUnit
deriving DecidableEq, Repr

/-- The parameter values the machine has at `State.reset`. DESIGN CHOICE (log 1), unsafe for a statement about
`State.reset` alone: the sizes are those of the spec's program P1; LE and true are R5's default and decided value. -/
def Config.params : Params :=
  { cap := 300, fsMax := 4, nCmd := 8, txcap := 300, byteOrder := .le, noIntDispatch := true, hash := .attached }

/-- Free value: byte `i` of what the attached HASH unit answers for the argument `data` at width `w`. No body: HASH is any
total pure function (R120), and nothing can be proved of it (log 2). -/
opaque Config.hashByte (w : Nat) (data : List Byte) (i : Nat) : Byte

/-- Free value: the `k`-th byte drawn from TS_SRC (R10 `draw`, 42_encoder.md R135). No body: a draw is under no law
(log 4). -/
opaque Config.freeByte (k : Nat) : Byte

/-- The three byte stores (20_memory.md R50). -/
inductive StoreId where
  | buf
  | txb
  | txo
deriving DecidableEq, Repr

/-- Free value: the byte a store holds at index `i` from the `r`-th reset on, until it is written (R41 "unspecified"). No
body; one value for each byte, so that a byte nothing writes is kept (42_encoder.md R135, R139; log 5). -/
opaque Config.heldByte (r : Nat) (k : StoreId) (i : Nat) : Byte

end Sys2Proof
end

