-- ==== Sys2Proof/Syntax.lean ====
section
/-! DEFINITION. The instructions: one constructor per row of spec/opcode_table.json (30_encoding.md R78, R81, R88), and the
words they are read from. -/

namespace Sys2Proof

/-- The seven host commands of format H and the six codec micro-operations of format U. Operand bits the spec calls ignored
(R79) are no operands. The operands of a micro-operation are not in its 9-bit selector: they reach the codec beside it. -/
inductive Instr where
  /-- FEED b (43_reassembly.md R150) -/
  | feed (b : Byte)
  /-- CFGWR r, v (45_host_commands.md R195) -/
  | cfgwr (r : BitVec 8) (v : Word)
  /-- CFGRD r (45_host_commands.md R194) -/
  | cfgrd (r : BitVec 8)
  /-- CLEAR (45_host_commands.md R200) -/
  | clear
  /-- ENCODE (42_encoder.md R130) -/
  | encode
  /-- TXWR i, b (42_encoder.md R141) -/
  | txwr (i : BitVec 16) (b : Byte)
  /-- TXRD i (42_encoder.md R142) -/
  | txrd (i : BitVec 16)
  /-- PUTF.1 (40_field_codec.md R100) -/
  | putf1
  /-- PUTF.2 -/
  | putf2
  /-- PUTF.4 -/
  | putf4
  /-- GETF.1 (40_field_codec.md R101) -/
  | getf1
  /-- GETF.2 -/
  | getf2
  /-- GETF.4 -/
  | getf4
deriving DecidableEq, Repr

/-- A word an instruction is read from: a 48-bit command word of format H (R77), or a 9-bit selector of format U (R81). -/
inductive InWord where
  | host (w : BitVec 48)
  | codec (u : BitVec 9)
deriving DecidableEq, Repr

end Sys2Proof
end

