-- ==== Sys2Proof/WellFormed.lean ====
section
/-! DEFINITION. What is checked of the data a model run is given: the parameter ranges of spec 00_scope.md R5, and the
instructions. -/

namespace Sys2Proof

/-- The ranges of R5 that the types of `Params` leave open: CAP, N_CMD and TXCAP are at least 1. -/
def Params.wf (p : Params) : Bool :=
  decide (1 ≤ p.cap.toNat) && (decide (1 ≤ p.nCmd.val) && decide (1 ≤ p.txcap.toNat))

/-- Every operand of an instruction has exactly the width of its field, so no instruction is ill-formed: a register number
that is not mapped or an index that is out of range is a well-formed command that raises CMD_ERR (R193, R141, R142), and no
operand value of a frame or command is reserved (R82). -/
def Instr.wf : Instr → Bool
  | .feed _ => true
  | .cfgwr _ _ => true
  | .cfgrd _ => true
  | .clear => true
  | .encode => true
  | .txwr _ _ => true
  | .txrd _ => true
  | .putf1 => true
  | .putf2 => true
  | .putf4 => true
  | .getf1 => true
  | .getf2 => true
  | .getf4 => true

end Sys2Proof
end

