-- ==== Sys2Proof/Decode.lean ====
section
/-! DEFINITION. Decoding and encoding of spec 30_encoding.md R77 to R81. Both decoders are total and reject by name; what
the block does with a rejected word (R80, R102) is in Machine/Ops.lean. -/

namespace Sys2Proof

/-- What a word means: an instruction, an illegal op (R80, R192), or a codec selector of reserved width (R81, R102). -/
inductive Decoded where
  | instr (i : Instr)
  | illegalOp (op : BitVec 8)
  | reservedWidth (dir : Bool) (width : BitVec 8)
deriving DecidableEq, Repr

/-- The fields of a command word (R77). -/
def wordOp (w : BitVec 48) : BitVec 8 := w.extractLsb' 40 8
def wordArg (w : BitVec 48) : BitVec 8 := w.extractLsb' 32 8
def wordData (w : BitVec 48) : Word := w.extractLsb' 0 32
def wordIndex (w : BitVec 48) : BitVec 16 := w.extractLsb' 0 16

/-- R78, R191: the decoder of a command word looks at `op` only. -/
def decodeHost (w : BitVec 48) : Decoded :=
  if wordOp w = 0x01#8 then .instr (.feed (wordArg w))
  else if wordOp w = 0x02#8 then .instr (.cfgwr (wordArg w) (wordData w))
  else if wordOp w = 0x03#8 then .instr (.cfgrd (wordArg w))
  else if wordOp w = 0x04#8 then .instr .clear
  else if wordOp w = 0x05#8 then .instr .encode
  else if wordOp w = 0x06#8 then .instr (.txwr (wordIndex w) (wordArg w))
  else if wordOp w = 0x07#8 then .instr (.txrd (wordIndex w))
  else .illegalOp (wordOp w)

/-- The fields of a codec selector (R81): `dir` is bit 8, `width` bits 7:0. -/
def selDir (u : BitVec 9) : Bool := u.getLsbD 8
def selWidth (u : BitVec 9) : BitVec 8 := u.extractLsb' 0 8

/-- R81: the six defined micro-operations are width 1, 2, 4 with either direction. -/
def decodeCodec (u : BitVec 9) : Decoded :=
  if selWidth u = 1#8 then .instr (if selDir u then .putf1 else .getf1)
  else if selWidth u = 2#8 then .instr (if selDir u then .putf2 else .getf2)
  else if selWidth u = 4#8 then .instr (if selDir u then .putf4 else .getf4)
  else .reservedWidth (selDir u) (selWidth u)

/-- The meaning of a word of either format. -/
def decode : InWord → Decoded
  | .host w => decodeHost w
  | .codec u => decodeCodec u

/-- A command word from its three fields (R77). -/
def hostWord (op : BitVec 8) (arg : BitVec 8) (data : Word) : BitVec 48 := op ++ (arg ++ data)

/-- A codec selector from its two fields (R81). -/
def selector (dir : Bool) (width : BitVec 8) : BitVec 9 := BitVec.ofBool dir ++ width

/-- The word of an instruction, ignored bits written as 0 (R78, R79, R81, R86). -/
def encode : Instr → InWord
  | .feed b => .host (hostWord 0x01#8 b 0#32)
  | .cfgwr r v => .host (hostWord 0x02#8 r v)
  | .cfgrd r => .host (hostWord 0x03#8 r 0#32)
  | .clear => .host (hostWord 0x04#8 0#8 0#32)
  | .encode => .host (hostWord 0x05#8 0#8 0#32)
  | .txwr i b => .host (hostWord 0x06#8 b (0#16 ++ i))
  | .txrd i => .host (hostWord 0x07#8 0#8 (0#16 ++ i))
  | .putf1 => .codec (selector true 1#8)
  | .putf2 => .codec (selector true 2#8)
  | .putf4 => .codec (selector true 4#8)
  | .getf1 => .codec (selector false 1#8)
  | .getf2 => .codec (selector false 2#8)
  | .getf4 => .codec (selector false 4#8)

/-- The bits of a command word its instruction reads (R78); the others are ignored (R79). -/
def usedBits : Instr → BitVec 48
  | .feed _ => 0xFFFF00000000#48
  | .cfgwr _ _ => 0xFFFFFFFFFFFF#48
  | .cfgrd _ => 0xFFFF00000000#48
  | .clear => 0xFF0000000000#48
  | .encode => 0xFF0000000000#48
  | .txwr _ _ => 0xFFFF0000FFFF#48
  | .txrd _ => 0xFF000000FFFF#48
  | .putf1 => 0#48
  | .putf2 => 0#48
  | .putf4 => 0#48
  | .getf1 => 0#48
  | .getf2 => 0#48
  | .getf4 => 0#48

/-- The word the opcode table's numbering stands for: up to 16 bits a 9-bit selector (bits above it must be 0), otherwise
one 48-bit command word (log 20). -/
def tableWord (nbits w : Nat) : Option InWord :=
  if nbits ≤ 16 then (if w < 2 ^ 9 then some (.codec (BitVec.ofNat 9 w)) else none)
  else if w < 2 ^ 48 then some (.host (BitVec.ofNat 48 w)) else none

/-- The instruction the decoder reads from a table word. -/
def decodeTableWord (nbits w : Nat) : Option Instr :=
  match tableWord nbits w with
  | none => none
  | some x =>
    match decode x with
    | .instr i => some i
    | .illegalOp _ => none
    | .reservedWidth _ _ => none

end Sys2Proof
end

