-- ==== Sys2Proof/Machine/State.lean ====
section
/-! DEFINITION. Everything the spec gives the machine (10_state.md), as plain data, with the values after reset (R41). The
fields that are the model's own and not the spec's are marked; INVENTORY.md lists both kinds. Registers hold their
implemented bits only: reserved bits read as 0 and ignore writes (R39), so they are no state. -/

namespace Sys2Proof.Machine

/-- The contents of a byte store: (index, byte) pairs at strictly rising indices. An index that is not listed was not
written since reset; its reading is in Machine/Ops.lean. -/
abbrev Store := List Host.Cell

/-- The canonical form: indices strictly rising, so that equal contents are equal lists. -/
def Memory.wf : Store → Bool
  | [] => true
  | [_] => true
  | (a, _) :: (b, y) :: rest => decide (a < b) && Memory.wf ((b, y) :: rest)

/-- One entry of the command table (10_state.md R33): CT_CODE[i] and CT_HID[i]. -/
structure CtEntry where
  code : Word
  hid : BitVec 16
deriving DecidableEq, Repr

/-- The fields of EV_DISPATCH (30_encoding.md R84). -/
structure DispatchRecord where
  hid : BitVec 16
  index : BitVec 8
  codeVal : Word
  tsOff : BitVec 16
  ts : List Byte
  bodyLen : Word
  bodyOff : BitVec 16
  body : List Byte
  ctl : Word
  user : Word
deriving DecidableEq, Repr

/-- The event records (30_encoding.md R83, R84). -/
inductive Event where
  | resetSeq
  | resync (dropped : Byte)
  | lenDrop (len : Word)
  | intDrop
  | dispatch (d : DispatchRecord)
  | unknownCmd (codeVal : Word)
  | overflow
deriving DecidableEq, Repr

/-- The response of a command: one word and at most one event (30_encoding.md R77, R85; 00_scope.md R10). -/
structure Response where
  rdata : Word
  event : Option Event
deriving DecidableEq, Repr

/-- The operands of a codec micro-operation taken alone (40_field_codec.md R100, R101): the bytes of the store S, the offset
a, the value v of PUTF, and the destination of GETF (its old value before, its result after). S is an operand and none of the
block's stores: those belong to FEED, TXWR, ENCODE and TXRD alone (10_state.md R23, R37; log 9). -/
structure CodecPort where
  bytes : List Byte
  off : BitVec 16
  val : Word
  dst : Word
deriving DecidableEq, Repr

/-- What the outside presents to the block: a command word at the command port (45_host_commands.md R190), a selector with
its operands at the codec unit (30_encoding.md R81), or the reset input (70_reset_and_hazards.md R250). -/
inductive Input where
  | command (w : BitVec 48)
  | micro (u : BitVec 9) (ops : CodecPort)
  | hardReset
deriving DecidableEq, Repr

structure State where
  /-- MODEL: the implementation parameters, constant (00_scope.md R5; log 1). -/
  params : Params
  /-- MODEL: what has not been presented yet, first entry next (log 7). -/
  inputs : List Input
  /-- MODEL: the response of the last command (log 8). -/
  resp : Response
  /-- MODEL: the operands of a codec micro-operation taken alone (log 9). -/
  codec : CodecPort
  /-- MODEL: the bytes TS_SRC will answer, first byte next (log 4). -/
  tsIn : List Byte
  /-- MODEL: how many free bytes have been drawn from TS_SRC (log 6). -/
  draws : Nat
  /-- MODEL: how often the reset input acted; it selects what the unwritten bytes of the stores hold (log 5, 14). -/
  resets : Nat
  /-- N, the accumulated byte count (R21, R22). -/
  n : BitVec 16
  /-- BODY_LEN (R21). -/
  bodyLen : Word
  /-- RST_RUN (R21). -/
  rstRun : BitVec 8
  /-- BUF, the accumulation buffer (R23). -/
  buf : Store
  /-- CTRL.EN (R25). -/
  en : Bool
  /-- STATUS: bit 0 CFG_ERR, bit 1 OVF, bit 2 CMD_ERR (R24). -/
  status : BitVec 3
  /-- WIDTH0 (R26). -/
  width0 : Word
  /-- WIDTH1 bits 15:0 (R27). -/
  width1 : BitVec 16
  /-- FEAT bits 5:0 (R28). -/
  feat : BitVec 6
  /-- RSTSEQ bits 15:0 (R29). -/
  rstseq : BitVec 16
  /-- LEN_EXACT and LEN_MAX (R30). -/
  lenExact : Word
  lenMax : Word
  /-- USER (R31). -/
  user : Word
  /-- FS[i] (R32); the entries at and above FS_MAX are not mapped (log 16). -/
  fs : Vector Byte 16
  /-- The command table (R33); the entries at and above N_CMD are not mapped (log 16). -/
  ct : Vector CtEntry 32
  /-- The encoder's operand registers and result (R36); TX_ARGS bits 16:0, TX_LEN bits 15:0. -/
  txCmd : Word
  txCtl : Word
  txBodyLen : Word
  txArgs : BitVec 17
  txLen : BitVec 16
  /-- The encoder's body and output buffers (R37). -/
  txb : Store
  txo : Store
deriving DecidableEq, Repr

/-- Why the machine stops. The block itself never stops (60_exceptions.md R220); both reasons are accesses to bytes that do
not exist. -/
inductive Fault where
  /-- Raised by a codec micro-operation taken alone whose bytes do not lie inside its store: the spec gives the access no
  meaning (00_scope.md R9; log 10). Safe: the model stops where hardware may go on. -/
  | codecOutOfRange
  /-- Raised by FEED when N is above CAP, a value N never has (10_state.md R21; log 11). Safe: no run reaches it. -/
  | countBeyondCapacity
deriving DecidableEq, Repr

/-- Why an instruction has no meaning. -/
inductive Refusal where
  /-- Raised by an arm of exec whose instruction has no meaning yet; no arm of this model does. Safe. -/
  | notModelled (mnemonic : String)
deriving DecidableEq, Repr

/-- The state right after hardware reset of a block with parameters `p` (R41, R250). The fields `inputs`, `resp`, `codec`,
`tsIn`, `draws` and `resets` are the model's (log 4 to 9); every other value is R41's. -/
def State.resetWith (p : Params) : State :=
  { params := p
    inputs := []
    resp := { rdata := 0, event := none }
    codec := { bytes := List.replicate 4 0, off := 0, val := 0, dst := 0 }
    tsIn := []
    draws := 0
    resets := 0
    n := 0
    bodyLen := 0
    rstRun := 0
    buf := []
    en := false
    status := 0
    width0 := 0
    width1 := 0
    feat := 0
    rstseq := 0
    lenExact := 0
    lenMax := 0
    user := 0
    fs := Vector.replicate 16 0
    ct := Vector.replicate 32 { code := 0, hid := 0 }
    txCmd := 0
    txCtl := 0
    txBodyLen := 0
    txArgs := 0
    txLen := 0
    txb := []
    txo := [] }

/-- The machine right after reset, with the parameters of `Config.params` (log 1). -/
def State.reset : State := State.resetWith Config.params

end Sys2Proof.Machine
end

