-- ==== Sys2Proof/Machine/Flags.lean ====
section
/-! DEFINITION. The sticky flags of STATUS (spec 10_state.md R24): raising one (00_scope.md R10) and clearing by writing one
(45_host_commands.md R197). The block has no other flags. -/

namespace Sys2Proof.Machine

/-- The three flags. -/
inductive Flag where
  | cfgErr
  | ovf
  | cmdErr
deriving DecidableEq, Repr

/-- The bit of STATUS a flag stands at (R24). -/
def Flag.mask : Flag → BitVec 3
  | .cfgErr => 0b001#3
  | .ovf => 0b010#3
  | .cmdErr => 0b100#3

/-- `raise F`: the flag is set; nothing else happens (00_scope.md R10). -/
def State.raise (s : State) (f : Flag) : State := { s with status := s.status ||| f.mask }

/-- Whether a flag is set. -/
def State.flag (s : State) (f : Flag) : Bool := decide (s.status &&& f.mask ≠ 0#3)

/-- CFGWR STATUS (R197): each flag whose bit of `v` is 1 is cleared; bits 31:3 of `v` are ignored. -/
def State.clearFlags (s : State) (v : Word) : State := { s with status := s.status &&& ~~~ (v.extractLsb' 0 3) }

end Sys2Proof.Machine
end

