-- ==== Sys2Proof/Machine/Operands.lean ====
section
/-! DEFINITION. How operands are read: the configuration fields (spec 10_state.md R25 to R36), the frame layout
(30_encoding.md R70 to R72, 00_scope.md R12), and the bytes of an integer field (00_scope.md R11, 40_field_codec.md R100 to
R102). Sums of widths are exact natural numbers (00_scope.md R7, decision D19). -/

namespace Sys2Proof.Machine

/-! ### Configuration fields -/

/-- WIDTH0 (R26). -/
def State.wFs (s : State) : Nat := (s.width0.extractLsb' 0 8).toNat
def State.wCmd (s : State) : Nat := (s.width0.extractLsb' 8 8).toNat
def State.wTs (s : State) : Nat := (s.width0.extractLsb' 16 8).toNat
def State.wLen (s : State) : Nat := (s.width0.extractLsb' 24 8).toNat

/-- WIDTH1 (R27). -/
def State.wInt (s : State) : Nat := (s.width1.extractLsb' 0 8).toNat
def State.wCtl (s : State) : Nat := (s.width1.extractLsb' 8 8).toNat

/-- FEAT (R28). -/
def State.intEn (s : State) : Bool := s.feat.getLsbD 0
def State.tsEn (s : State) : Bool := s.feat.getLsbD 1
def State.rstEn (s : State) : Bool := s.feat.getLsbD 2
def State.rstCbEn (s : State) : Bool := s.feat.getLsbD 3
def State.exactEn (s : State) : Bool := s.feat.getLsbD 4
def State.maxEn (s : State) : Bool := s.feat.getLsbD 5

/-- RSTSEQ (R29). -/
def State.rstByte (s : State) : Byte := s.rstseq.extractLsb' 0 8
def State.rstCount (s : State) : BitVec 8 := s.rstseq.extractLsb' 8 8

/-- TX_ARGS (R36). -/
def State.txCap (s : State) : Nat := (s.txArgs.extractLsb' 0 16).toNat
def State.txBodyPresent (s : State) : Bool := s.txArgs.getLsbD 16

/-- FS[i] (R32); an index with no register reads as 0, and no legal configuration names one (R42 clause 1). -/
def State.fsByte (s : State) (i : Nat) : Byte := if h : i < 16 then s.fs[i] else 0#8

/-- FS[0..W_FS), the frame-start marker. -/
def State.marker (s : State) : List Byte := (List.range s.wFs).map s.fsByte

/-! ### Frame layout -/

/-- R71: where the header fields lie. -/
def State.offCmd (s : State) : Nat := s.wFs
def State.offTs (s : State) : Nat := s.wFs + s.wCmd
def State.offLen (s : State) : Nat := s.wFs + s.wCmd + s.wTs
def State.hdr (s : State) : Nat := s.wFs + s.wCmd + s.wTs + s.wLen

/-- R72: where the trailer fields of a frame with an `l`-byte body lie, and what is hashed. -/
def State.offInt (s : State) (l : Nat) : Nat := s.hdr + l
def State.offCtl (s : State) (l : Nat) : Nat := s.hdr + l + s.wInt
def State.total (s : State) (l : Nat) : Nat := s.hdr + l + s.wInt + s.wCtl
def State.hashLen (s : State) (l : Nat) : Nat := s.wCmd + s.wTs + s.wLen + l

/-! ### The bytes of an integer field -/

/-- LE_w(v) (R11): byte i is v[8i+7:8i]. -/
def leBytes (v : Word) : Nat → List Byte
  | 0 => []
  | w + 1 => v.setWidth 8 :: leBytes (v >>> 8) w

/-- ENC_w(v) (R11): LE_w(v), reversed when BYTE_ORDER is BE. -/
def encBytes (o : ByteOrder) (w : Nat) (v : Word) : List Byte :=
  match o with
  | .le => leBytes v w
  | .be => (leBytes v w).reverse

/-- The number whose little-endian bytes are `bs`. -/
def leValue : List Byte → Nat
  | [] => 0
  | b :: bs => b.toNat + 256 * leValue bs

/-- DEC_w(s) (R11), zero-extended to 32 bits (R101). -/
def decBytes (o : ByteOrder) (bs : List Byte) : Word :=
  match o with
  | .le => BitVec.ofNat 32 (leValue bs)
  | .be => BitVec.ofNat 32 (leValue bs.reverse)

/-- The bytes `[a, a+n)` of a sequence. -/
def slice (l : List Byte) (a n : Nat) : List Byte := (l.drop a).take n

/-- The sequence `l` with `bs` in place of its bytes from `a` on. -/
def overwrite (l : List Byte) (a : Nat) (bs : List Byte) : List Byte := l.take a ++ bs ++ l.drop (a + bs.length)

/-- The widths the codec acts on (R81, R102). -/
def codecWidth (w : Nat) : Bool := w == 1 || (w == 2 || w == 4)

/-- The bytes PUTF writes (R100): none for a reserved width (R102). -/
def putfBytes (o : ByteOrder) (v : Word) (w : Nat) : List Byte := if codecWidth w then encBytes o w v else []

/-- The value GETF returns for the bytes `bs` it reads (R101): `old` for a reserved width (R102). -/
def getfValue (o : ByteOrder) (old : Word) (bs : List Byte) (w : Nat) : Word := if codecWidth w then decBytes o bs else old

end Sys2Proof.Machine
end

