-- ==== Sys2Proof/Machine/Ops.lean ====
section
/-! DEFINITION. The operations every instruction is made of: the byte stores (spec 00_scope.md R9), TS_SRC's draws (R10), the
response (30_encoding.md R85), what the block does on a condition (60_exceptions.md R221, R227), CLEAR's zeroing and the reset
input (70_reset_and_hazards.md R250, R251). -/

namespace Sys2Proof.Machine

/-! ### Byte stores as lists -/

/-- The byte written at index `a`, if one was. -/
def storeGet : Store → Nat → Option Byte
  | [], _ => none
  | (k, b) :: rest, a => if k = a then some b else storeGet rest a

/-- Write one byte, keeping the indices strictly rising. -/
def storePut : Store → Nat → Byte → Store
  | [], a, b => [(a, b)]
  | (k, c) :: rest, a, b =>
    if a < k then (a, b) :: (k, c) :: rest
    else if a = k then (a, b) :: rest
    else (k, c) :: storePut rest a b

/-- MemWrite(S, a, len(bs), bs) (R9). -/
def storeWrite (m : Store) (a : Nat) : List Byte → Store
  | [] => m
  | b :: bs => storeWrite (storePut m a b) (a + 1) bs

/-- MemRead(S, a, n) (R9), where the byte at an index that was not written since reset is `held` there. -/
def storeRead (m : Store) (held : Nat → Byte) (a : Nat) : Nat → List Byte
  | 0 => []
  | n + 1 => (storeGet m a).getD (held a) :: storeRead m held (a + 1) n

/-! ### Byte stores of the machine -/

/-- The contents of a store. -/
def State.store (s : State) : StoreId → Store
  | .buf => s.buf
  | .txb => s.txb
  | .txo => s.txo

/-- The capacity of a store (20_memory.md R50). -/
def State.capacity (s : State) : StoreId → Nat
  | .buf => s.params.cap.toNat
  | .txb => s.params.txcap.toNat
  | .txo => s.params.txcap.toNat

/-- Replace the contents of a store. -/
def State.withStore (s : State) (k : StoreId) (m : Store) : State :=
  match k with
  | .buf => { s with buf := m }
  | .txb => { s with txb := m }
  | .txo => { s with txo := m }

/-- MemWrite on a store of the machine. -/
def State.memWrite (s : State) (k : StoreId) (a : Nat) (bs : List Byte) : State :=
  s.withStore k (storeWrite (s.store k) a bs)

/-- What the bytes of a store hold that were not written since reset: free values, kept until they are written (R41;
42_encoder.md R135, R139; log 5). -/
def State.held (s : State) (k : StoreId) : Nat → Byte := Config.heldByte s.resets k

/-- MemRead on a store of the machine. It has no side effect (20_memory.md R56). -/
def State.memRead (s : State) (k : StoreId) (a n : Nat) : List Byte := storeRead (s.store k) (s.held k) a n

/-! ### The field codec on a store (40_field_codec.md) -/

/-- PUTF(S, a, v, w) (R100). -/
def State.putf (s : State) (k : StoreId) (a : Nat) (v : Word) (w : Nat) : State :=
  s.memWrite k a (putfBytes s.params.byteOrder v w)

/-- GETF(old, S, a, w) (R101). -/
def State.getf (s : State) (old : Word) (k : StoreId) (a w : Nat) : Word :=
  getfValue s.params.byteOrder old (s.memRead k a w) w

/-! ### Timestamp source -/

/-- draw(n) of TS_SRC (42_encoder.md R135): the bytes the source has been given to answer, then free values (log 4). -/
def tsBytes (given : List Byte) (c : Nat) : Nat → List Byte
  | 0 => []
  | n + 1 =>
    match given with
    | [] => Config.freeByte c :: tsBytes [] (c + 1) n
    | b :: rest => b :: tsBytes rest c n

/-- The state after `n` bytes were drawn from TS_SRC. -/
def State.afterTs (s : State) (n : Nat) : State :=
  { s with tsIn := s.tsIn.drop n, draws := s.draws + (n - s.tsIn.length) }

/-! ### Responses and conditions -/

/-- `return v` with no event (00_scope.md R10, 30_encoding.md R85). -/
def State.respond (s : State) (v : Word) : State := { s with resp := { rdata := v, event := none } }

/-- `emit EV` (00_scope.md R10): the event record of the current command. -/
def State.emit (s : State) (e : Event) : State := { s with resp := { s.resp with event := some e } }

/-- `code` of an event record (30_encoding.md R83, R84). -/
def Event.code : Event → BitVec 8
  | .resetSeq => 1#8
  | .resync _ => 2#8
  | .lenDrop _ => 3#8
  | .intDrop => 4#8
  | .dispatch _ => 5#8
  | .unknownCmd _ => 6#8
  | .overflow => 7#8

/-- Misuse of the command port (60_exceptions.md R221 condition 9): CMD_ERR is raised, rdata is 0, there is no event, and
the command has no other effect. An illegal op does exactly this (30_encoding.md R80, 45_host_commands.md R192). -/
def State.refuseCommand (s : State) : State := (s.raise .cmdErr).respond 0

/-- N <- 0, BODY_LEN <- 0, RST_RUN <- 0 (45_host_commands.md R198, R200). -/
def State.zeroProgress (s : State) : State := { s with n := 0, bodyLen := 0, rstRun := 0 }

/-- The reset input (70_reset_and_hazards.md R250, R251): every piece of state takes its value after reset, and the stores'
contents are unspecified anew; what the outside has not presented yet, and the count of draws, stay (log 14). -/
def State.hardwareReset (s : State) : State :=
  { State.resetWith s.params with inputs := s.inputs, tsIn := s.tsIn, draws := s.draws, resets := s.resets + 1 }

end Sys2Proof.Machine
end

