-- ==== Sys2Proof/Machine/Codec.lean ====
section
/-! DEFINITION. The six codec micro-operations taken alone (spec 40_field_codec.md R100, R101): pure functions of the operands
of the codec port (R106; log 9). They read and write no store of the block (10_state.md R23, R37), and answer no response: no
port sees them (30_encoding.md R81; log 12). -/

namespace Sys2Proof.Machine

/-- Whether the `w` bytes at the codec port's offset lie inside its store: the caller's guarantee of R100, without which a
store access is not defined (00_scope.md R9; log 10). -/
def State.codecInRange (s : State) (w : Nat) : Bool := decide (s.codec.off.toNat + w ≤ s.codec.bytes.length)

/-- PUTF at width `w` on the codec port. -/
def State.putfAlone (s : State) (w : Nat) : Host.Outcome State Fault Refusal :=
  if s.codecInRange w then
    .next { s with codec := { s.codec with
      bytes := overwrite s.codec.bytes s.codec.off.toNat (putfBytes s.params.byteOrder s.codec.val w) } }
  else .fault .codecOutOfRange

/-- GETF at width `w` on the codec port; the result goes to the port's destination. -/
def State.getfAlone (s : State) (w : Nat) : Host.Outcome State Fault Refusal :=
  if s.codecInRange w then
    .next { s with codec := { s.codec with
      dst := getfValue s.params.byteOrder s.codec.dst (slice s.codec.bytes s.codec.off.toNat w) w } }
  else .fault .codecOutOfRange

def execPutf1 (s : State) : Host.Outcome State Fault Refusal := s.putfAlone 1
def execPutf2 (s : State) : Host.Outcome State Fault Refusal := s.putfAlone 2
def execPutf4 (s : State) : Host.Outcome State Fault Refusal := s.putfAlone 4
def execGetf1 (s : State) : Host.Outcome State Fault Refusal := s.getfAlone 1
def execGetf2 (s : State) : Host.Outcome State Fault Refusal := s.getfAlone 2
def execGetf4 (s : State) : Host.Outcome State Fault Refusal := s.getfAlone 4

end Sys2Proof.Machine
end

