-- ==== Sys2Proof/Machine/Integrity.lean ====
section
/-! DEFINITION. The integrity unit (spec 41_integrity_unit.md). -/

namespace Sys2Proof.Machine

/-- The accumulator form of a unit (R121): step and finaliser over a byte sequence. -/
def accumulate {α : Type} (init : α) (step : α → Byte → α) (final : α → List Byte) (data : List Byte) : List Byte :=
  final (data.foldl step init)

/-- The fixtures of R124. -/
def hashSum8 (data : List Byte) : List Byte := accumulate 0#8 (fun a b => a + b) (fun a => [a]) data
def hashXor8 (data : List Byte) : List Byte := accumulate 0#8 (fun a b => a ^^^ b) (fun a => [a]) data
def hashSum16 (data : List Byte) : List Byte :=
  accumulate 0#16 (fun a b => a + b.setWidth 16) (fun a => [a.setWidth 8, (a >>> 8).setWidth 8]) data

/-- The open HASH: exactly `w` bytes, nothing else known (R120). -/
def hashAttached (w : Nat) (data : List Byte) : List Byte := (List.range w).map (Config.hashByte w data)

/-- HASH(data) at width W_INT = `w`: always exactly `w` bytes (R120). A fixture acts at its own width (R124); at any other
width the unit is the open one (log 3). -/
def hashBytes (u : HashUnit) (w : Nat) (data : List Byte) : List Byte :=
  match u with
  | .attached => hashAttached w data
  | .sum8 => if w = 1 then hashSum8 data else hashAttached w data
  | .xor8 => if w = 1 then hashXor8 data else hashAttached w data
  | .sum16 => if w = 2 then hashSum16 data else hashAttached w data

/-- HASH of the attached unit at the configured width. -/
def State.hash (s : State) (data : List Byte) : List Byte := hashBytes s.params.hash s.wInt data

end Sys2Proof.Machine
end

