-- ==== Sys2Proof/Machine/Encoder.lean ====
section
/-! DEFINITION. ENCODE, TXWR and TXRD (spec 42_encoder.md). -/

namespace Sys2Proof.Machine

/-- OCAP = min(TX_CAP, TXCAP) (R130). -/
def State.outCap (s : State) : Nat := min s.txCap s.params.txcap.toNat

/-- The two errors of ENCODE: TX_LEN <- 0, result 0, nothing written (R132, R133). -/
def State.encodeFail (s : State) : State := { s with txLen := 0 }.respond 0

/-- R134: marker and command. -/
def State.encodeHead (s : State) : State :=
  (s.memWrite .txo 0 s.marker).putf .txo s.offCmd s.txCmd s.wCmd

/-- R135: timestamp; without a source the bytes keep what they held, written or not (log 5). -/
def State.encodeTimestamp (s : State) : State :=
  if s.tsEn then (s.afterTs s.wTs).memWrite .txo s.offTs (tsBytes s.tsIn s.draws s.wTs) else s

/-- R136: length field. -/
def State.encodeLength (s : State) : State := s.putf .txo s.offLen s.txBodyLen s.wLen

/-- R136: body. -/
def State.encodeBody (s : State) : State :=
  s.memWrite .txo s.hdr (s.memRead .txb 0 s.txBodyLen.toNat)

/-- R137: zero fill of the integrity field. -/
def State.encodeZeroFill (s : State) : State :=
  s.memWrite .txo (s.offInt s.txBodyLen.toNat) (List.replicate s.wInt 0#8)

/-- R137: the control field, if present. -/
def State.encodeControl (s : State) : State :=
  if 0 < s.wCtl then s.putf .txo (s.offCtl s.txBodyLen.toNat) s.txCtl s.wCtl else s

/-- R138: the integrity value, last. -/
def State.encodeIntegrity (s : State) : State :=
  if s.intEn then
    s.memWrite .txo (s.offInt s.txBodyLen.toNat) (s.hash (s.memRead .txo s.offCmd (s.hashLen s.txBodyLen.toNat)))
  else s

/-- R139: TX_LEN and the result. -/
def State.encodeResult (s : State) : State :=
  { s with txLen := BitVec.ofNat 16 (s.total s.txBodyLen.toNat) }.respond (BitVec.ofNat 32 (s.total s.txBodyLen.toNat))

/-- The writes of ENCODE in the order of R140. -/
def State.encodeFrame (s : State) : State :=
  s.encodeHead.encodeTimestamp.encodeLength.encodeBody.encodeZeroFill.encodeControl.encodeIntegrity.encodeResult

/-- ENCODE (R140). Disabled, it is refused like every other misused command: CMD_ERR, rdata 0 and no other effect (60_exceptions.md
R221 row 9, decision D21, entry U13). R131 and R140 write TX_LEN <- 0 there as well; DESIGN CHOICE (log 22): the decisions are
followed, and TX_LEN keeps its value. -/
def execEncode (s : State) : Host.Outcome State Fault Refusal :=
  if s.en = false then .next s.refuseCommand
  else if s.outCap < s.total s.txBodyLen.toNat then .next s.encodeFail
  else if 0 < s.txBodyLen.toNat ∧ s.txBodyPresent = false then .next s.encodeFail
  else .next s.encodeFrame

/-- TXWR i, b (R141). -/
def execTxwr (i : BitVec 16) (b : Byte) (s : State) : Host.Outcome State Fault Refusal :=
  if i.toNat < s.params.txcap.toNat then .next ((s.memWrite .txb i.toNat [b]).respond 0) else .next s.refuseCommand

/-- TXRD i (R142): a byte no ENCODE wrote reads as the free value it holds (log 5). -/
def execTxrd (i : BitVec 16) (s : State) : Host.Outcome State Fault Refusal :=
  if i.toNat < s.params.txcap.toNat then
    .next (s.respond (((s.memRead .txo i.toNat 1).headD 0#8).setWidth 32))
  else .next s.refuseCommand

end Sys2Proof.Machine
end

