-- ==== Sys2Proof/Machine/Registers.lean ====
section
/-! DEFINITION. The register map (spec 10_state.md R25 to R39): numbers, access classes, values and writes; legality of a
configuration (R42, R43); the CTRL register (45_host_commands.md R198, R199). -/

namespace Sys2Proof.Machine

/-- The registers of R38. -/
inductive Reg where
  | ctrl
  | status
  | width0
  | width1
  | feat
  | rstseq
  | lenExact
  | lenMax
  | user
  | param0
  | param1
  | fs (i : Fin 16)
  | rxCount
  | rxBodyLen
  | rxRstRun
  | txCmd
  | txCtl
  | txBodyLen
  | txArgs
  | txLen
  | ctCode (i : Fin 32)
  | ctHid (i : Fin 32)
deriving DecidableEq, Repr

/-- Access classes (10_state.md section 6). CTRL is RW with the enable operation behind it (R25). -/
inductive Access where
  | control
  | w1c
  | rw
  | rwf
  | ro
deriving DecidableEq, Repr

/-- R38: the access column. -/
def Reg.access : Reg → Access
  | .ctrl => .control
  | .status => .w1c
  | .width0 => .rwf
  | .width1 => .rwf
  | .feat => .rwf
  | .rstseq => .rwf
  | .lenExact => .rwf
  | .lenMax => .rwf
  | .user => .rwf
  | .param0 => .ro
  | .param1 => .ro
  | .fs _ => .rwf
  | .rxCount => .ro
  | .rxBodyLen => .ro
  | .rxRstRun => .ro
  | .txCmd => .rw
  | .txCtl => .rw
  | .txBodyLen => .rw
  | .txArgs => .rw
  | .txLen => .ro
  | .ctCode _ => .rw
  | .ctHid _ => .rw

/-- The registers of R38 that have one number each. -/
def fixedReg (r : Nat) : Option Reg :=
  match r with
  | 0x00 => some .ctrl
  | 0x01 => some .status
  | 0x02 => some .width0
  | 0x03 => some .width1
  | 0x04 => some .feat
  | 0x05 => some .rstseq
  | 0x06 => some .lenExact
  | 0x07 => some .lenMax
  | 0x08 => some .user
  | 0x09 => some .param0
  | 0x0A => some .param1
  | 0x20 => some .rxCount
  | 0x21 => some .rxBodyLen
  | 0x22 => some .rxRstRun
  | 0x30 => some .txCmd
  | 0x31 => some .txCtl
  | 0x32 => some .txBodyLen
  | 0x33 => some .txArgs
  | 0x34 => some .txLen
  | _ => none

/-- R32: numbers 0x10 + i for i < FS_MAX. -/
def fsReg (p : Params) (r : Nat) : Option Reg :=
  if h : 0x10 ≤ r ∧ r < 0x10 + p.fsMax.val then some (.fs ⟨r - 0x10, by have := p.fsMax.isLt; omega⟩) else none

/-- R33: numbers 0x40 + 2i (code) and 0x41 + 2i (handler id) for i < N_CMD. -/
def ctReg (p : Params) (r : Nat) : Option Reg :=
  if h : 0x40 ≤ r ∧ r < 0x40 + 2 * p.nCmd.val then
    some (if r % 2 = 0 then .ctCode ⟨(r - 0x40) / 2, by have := p.nCmd.isLt; omega⟩
      else .ctHid ⟨(r - 0x40) / 2, by have := p.nCmd.isLt; omega⟩)
  else none

/-- The register of a number; `none` is unmapped (R38, 45_host_commands.md R193). -/
def regOf (p : Params) (r : BitVec 8) : Option Reg :=
  (fixedReg r.toNat).or ((fsReg p r.toNat).or (ctReg p r.toNat))

/-- PARAM0 (R34): CAP 15:0, FS_MAX 20:16, N_CMD 26:21, BYTE_ORDER 27 (1 = BE), NOINT_DISPATCH 28 (1 = true). -/
def Params.word0 (p : Params) : Word :=
  0#3 ++ BitVec.ofBool p.noIntDispatch ++ BitVec.ofBool (decide (p.byteOrder = .be)) ++ BitVec.ofNat 6 p.nCmd.val
    ++ BitVec.ofNat 5 p.fsMax.val ++ p.cap

/-- PARAM1 (R34): TXCAP 15:0. -/
def Params.word1 (p : Params) : Word := p.txcap.setWidth 32

/-- value(r) of CFGRD (45_host_commands.md R194): the fields at their places, reserved bits 0. -/
def State.regValue (s : State) : Reg → Word
  | .ctrl => (BitVec.ofBool s.en).setWidth 32
  | .status => s.status.setWidth 32
  | .width0 => s.width0
  | .width1 => s.width1.setWidth 32
  | .feat => s.feat.setWidth 32
  | .rstseq => s.rstseq.setWidth 32
  | .lenExact => s.lenExact
  | .lenMax => s.lenMax
  | .user => s.user
  | .param0 => Params.word0 s.params
  | .param1 => Params.word1 s.params
  | .fs i => (s.fs[i]).setWidth 32
  | .rxCount => s.n.setWidth 32
  | .rxBodyLen => s.bodyLen
  | .rxRstRun => s.rstRun.setWidth 32
  | .txCmd => s.txCmd
  | .txCtl => s.txCtl
  | .txBodyLen => s.txBodyLen
  | .txArgs => s.txArgs.setWidth 32
  | .txLen => s.txLen.setWidth 32
  | .ctCode i => (s.ct[i]).code
  | .ctHid i => (s.ct[i]).hid.setWidth 32

/-- `register <- v, reserved bits dropped` (R195) for the RW and RWF registers. The other registers are not written this
way (R195, R201) and stay as they are. -/
def State.regWrite (s : State) (r : Reg) (v : Word) : State :=
  match r with
  | .width0 => { s with width0 := v }
  | .width1 => { s with width1 := v.setWidth 16 }
  | .feat => { s with feat := v.setWidth 6 }
  | .rstseq => { s with rstseq := v.setWidth 16 }
  | .lenExact => { s with lenExact := v }
  | .lenMax => { s with lenMax := v }
  | .user => { s with user := v }
  | .fs i => { s with fs := s.fs.set i.val (v.setWidth 8) }
  | .txCmd => { s with txCmd := v }
  | .txCtl => { s with txCtl := v }
  | .txBodyLen => { s with txBodyLen := v }
  | .txArgs => { s with txArgs := v.setWidth 17 }
  | .ctCode i => { s with ct := s.ct.set i.val { s.ct[i] with code := v } }
  | .ctHid i => { s with ct := s.ct.set i.val { s.ct[i] with hid := v.setWidth 16 } }
  | .ctrl => s
  | .status => s
  | .param0 => s
  | .param1 => s
  | .rxCount => s
  | .rxBodyLen => s
  | .rxRstRun => s
  | .txLen => s

/-- LIM (R43): the largest number a length field holds. -/
def State.lim (s : State) : Nat := 2 ^ (8 * s.wLen) - 1

/-- MAXBODY (R43). -/
def State.maxBody (s : State) : Nat :=
  if s.exactEn then min s.lenExact.toNat s.lim
  else if s.maxEn then min s.lenMax.toNat s.lim
  else s.lim

/-- CFG_LEGAL (R42), its six clauses in order. -/
def State.cfgLegal (s : State) : Bool :=
  decide (s.wFs ≤ s.params.fsMax.val) &&
  (codecWidth s.wCmd &&
  (codecWidth s.wLen &&
  ((s.wCtl == 0 || codecWidth s.wCtl) &&
  (!(s.exactEn && s.maxEn) &&
  (!s.rstEn || decide (1 ≤ s.rstCount.toNat))))))

/-- CAP_OK (R43), without wrap. -/
def State.capOk (s : State) : Bool := decide (s.hdr + s.maxBody + s.wInt + s.wCtl ≤ s.params.cap.toNat)

/-- Enable while disabled (45_host_commands.md R198). -/
def State.enable (s : State) : State :=
  if s.cfgLegal && s.capOk then { s.zeroProgress with en := true } else s.raise .cfgErr

/-- CFGWR CTRL (R198, R199): enable, disable, or nothing. -/
def State.writeCtrl (s : State) (v : Word) : State :=
  if v.getLsbD 0 then (if s.en then s else s.enable)
  else (if s.en then { s with en := false } else s)

end Sys2Proof.Machine
end

