-- ==== Sys2Proof/Machine/HostCommands.lean ====
section
/-! DEFINITION. CFGWR, CFGRD and CLEAR (spec 45_host_commands.md). -/

namespace Sys2Proof.Machine

/-- CFGRD r (R194; unmapped: R193). -/
def execCfgrd (r : BitVec 8) (s : State) : Host.Outcome State Fault Refusal :=
  match regOf s.params r with
  | none => .next s.refuseCommand
  | some g => .next (s.respond (s.regValue g))

/-- CFGWR r, v by access class (R195 to R199, R201; unmapped: R193). -/
def execCfgwr (r : BitVec 8) (v : Word) (s : State) : Host.Outcome State Fault Refusal :=
  match regOf s.params r with
  | none => .next s.refuseCommand
  | some g =>
    match g.access with
    | .ro => .next (s.respond 0)
    | .rw => .next ((s.regWrite g v).respond 0)
    | .rwf => if s.en then .next s.refuseCommand else .next ((s.regWrite g v).respond 0)
    | .w1c => .next ((s.clearFlags v).respond 0)
    | .control => .next ((s.writeCtrl v).respond 0)

/-- CLEAR (R200). -/
def execClear (s : State) : Host.Outcome State Fault Refusal := .next (s.zeroProgress.respond 0)

end Sys2Proof.Machine
end

