-- ==== Sys2Proof/Machine/Lookup.lean ====
section
/-! DEFINITION. The DISPATCH step of FEED's stage 4 (spec 44_dispatch.md). -/

namespace Sys2Proof.Machine

/-- The scan of R182 over the entries from index `i` on: the sentinel test comes before the code test. -/
def scanTable (code : Word) : Nat → List CtEntry → Option (Nat × BitVec 16)
  | _, [] => none
  | i, e :: rest =>
    if e.hid = 0#16 then none
    else if e.code = code then some (i, e.hid)
    else scanTable code (i + 1) rest

/-- The N_CMD entries of the table, in order (R182). -/
def State.table (s : State) : List CtEntry := s.ct.toList.take s.params.nCmd.val

/-- The entry a command code is dispatched to, if one matches. -/
def State.lookup (s : State) (code : Word) : Option (Nat × BitVec 16) := scanTable code 0 s.table

/-- The control value of R181: 0 when the field is absent. -/
def State.ctlValue (s : State) : Word :=
  if 0 < s.wCtl then s.getf 0 .buf (s.offCtl s.bodyLen.toNat) s.wCtl else 0

/-- The command code of R181. -/
def State.codeValue (s : State) : Word := s.getf 0 .buf s.offCmd s.wCmd

/-- The event of R183 and R184. -/
def State.dispatchEvent (s : State) : Event :=
  match s.lookup s.codeValue with
  | none => .unknownCmd s.codeValue
  | some (i, hid) =>
    .dispatch
      { hid := hid
        index := BitVec.ofNat 8 i
        codeVal := s.codeValue
        tsOff := BitVec.ofNat 16 s.offTs
        ts := s.memRead .buf s.offTs s.wTs
        bodyLen := s.bodyLen
        bodyOff := BitVec.ofNat 16 s.hdr
        body := s.memRead .buf s.hdr s.bodyLen.toNat
        ctl := s.ctlValue
        user := s.user }

/-- DISPATCH and the `N <- 0` that follows it in every case (R180, 43_reassembly.md R165). -/
def State.dispatch (s : State) : State := { s.emit s.dispatchEvent with n := 0 }

end Sys2Proof.Machine
end

