-- ==== Sys2Proof/Machine/Reassembly.lean ====
section
/-! DEFINITION. FEED (spec 43_reassembly.md): the stages of R168, one definition each. -/

namespace Sys2Proof.Machine

/-- Stage 1, the run counter (R152): untouched when detection is disabled. -/
def State.countRun (s : State) (b : Byte) : State :=
  if s.rstEn then { s with rstRun := if b = s.rstByte then s.rstRun + 1 else 0 } else s

/-- Stage 1, whether the run is complete (R153), tested after the update. -/
def State.runComplete (s : State) : Bool := s.rstEn && decide (s.rstRun = s.rstCount)

/-- Stage 1, firing (R153): the byte is not appended. -/
def State.fireReset (s : State) : State :=
  if s.rstCbEn then { s with rstRun := 0, n := 0 }.emit .resetSeq else { s with rstRun := 0, n := 0 }

/-- The capacity guard (R155). -/
def State.overflowDrop (s : State) : State := { (s.raise .ovf).emit .overflow with n := 0 }

/-- The append (R156). -/
def State.append (s : State) (b : Byte) : State := { s.memWrite .buf s.n.toNat [b] with n := s.n + 1 }

/-- BUF[0..W_FS), what stage 2 compares with the marker. -/
def State.window (s : State) : List Byte := s.memRead .buf 0 s.wFs

/-- The resync of stage 2 (R158), given the W_FS bytes of BUF: each byte moves down by one, the first is dropped. -/
def State.resync (s : State) (w : List Byte) : State :=
  { (s.memWrite .buf 0 w.tail).emit (.resync (w.headD 0#8)) with n := s.n - 1 }

/-- Stage 2 (R158). -/
def State.stage2 (s : State) : State :=
  if s.n.toNat = s.wFs then (if s.window = s.marker then s else s.resync s.window) else s

/-- Whether a body length fails the length policy (R161), unsigned on 32 bits. -/
def State.lenFails (s : State) (l : Word) : Bool :=
  (s.exactEn && decide (l ≠ s.lenExact)) || (s.maxEn && decide (s.lenMax.toNat < l.toNat))

/-- What BODY_LEN becomes at the length stage (R160). -/
def State.newLen (s : State) : Word := s.getf s.bodyLen .buf s.offLen s.wLen

/-- BODY_LEN <- GETF(BODY_LEN, BUF, OFF_LEN, W_LEN) (R160). -/
def State.takeLen (s : State) : State := { s with bodyLen := s.newLen }

/-- Stage 3 (R160, R161). -/
def State.stage3 (s : State) : State :=
  if s.n.toNat = s.hdr then
    (if s.lenFails s.newLen then { s.takeLen.emit (.lenDrop s.newLen) with n := 0 } else s.takeLen)
  else s

/-- Whether the received integrity bytes are those HASH gives for the received frame (R164). -/
def State.integrityOk (s : State) : Bool :=
  decide (s.hash (s.memRead .buf s.offCmd (s.hashLen s.bodyLen.toNat))
    = s.memRead .buf (s.offInt s.bodyLen.toNat) s.wInt)

/-- The drop of R164. -/
def State.integrityDrop (s : State) : State := { s.emit .intDrop with n := 0 }

/-- Stage 4 (R163 to R166). -/
def State.stage4 (s : State) : State :=
  if s.n.toNat = s.total s.bodyLen.toNat then
    if s.intEn then (if s.integrityOk then s.dispatch else s.integrityDrop)
    else if s.params.noIntDispatch then s.dispatch
    else s
  else s

/-- FEED after stage 1 let the byte through (R155 to R166). N above CAP is no state of the block (10_state.md R21; log 11):
the byte it would append does not exist. -/
def State.takeByte (s : State) (b : Byte) : Host.Outcome State Fault Refusal :=
  if s.n = s.params.cap then .next s.overflowDrop
  else if s.params.cap.toNat < s.n.toNat then .fault .countBeyondCapacity
  else .next (s.append b).stage2.stage3.stage4

/-- FEED b (R168). -/
def execFeed (b : Byte) (s : State) : Host.Outcome State Fault Refusal :=
  if s.en = false then .next s.refuseCommand
  else if ((s.respond 0).countRun b).runComplete then .next ((s.respond 0).countRun b).fireReset
  else ((s.respond 0).countRun b).takeByte b

end Sys2Proof.Machine
end

