-- ==== Sys2Proof/Machine/Dispatch.lean ====
section
/-! DEFINITION. One arm per instruction of spec/opcode_table.json. -/

namespace Sys2Proof.Machine

def exec (i : Instr) (s : State) : Host.Outcome State Fault Refusal :=
  match i with
  | .feed b => Sys2Proof.Machine.execFeed b s
  | .cfgwr r v => Sys2Proof.Machine.execCfgwr r v s
  | .cfgrd r => Sys2Proof.Machine.execCfgrd r s
  | .clear => Sys2Proof.Machine.execClear s
  | .encode => Sys2Proof.Machine.execEncode s
  | .txwr a b => Sys2Proof.Machine.execTxwr a b s
  | .txrd a => Sys2Proof.Machine.execTxrd a s
  | .putf1 => Sys2Proof.Machine.execPutf1 s
  | .putf2 => Sys2Proof.Machine.execPutf2 s
  | .putf4 => Sys2Proof.Machine.execPutf4 s
  | .getf1 => Sys2Proof.Machine.execGetf1 s
  | .getf2 => Sys2Proof.Machine.execGetf2 s
  | .getf4 => Sys2Proof.Machine.execGetf4 s

end Sys2Proof.Machine
end

