-- ==== Sys2Proof/Machine/Step.lean ====
section
/-! DEFINITION. One step: the next input is presented to the block and acted on completely (spec 10_state.md R20,
45_host_commands.md R190, R191). -/

namespace Sys2Proof.Machine

/-- Run a presented word: an instruction by `exec`; an illegal op raises CMD_ERR (30_encoding.md R80, 45_host_commands.md
R192); a codec selector of reserved width does nothing (40_field_codec.md R102). -/
def runWord (w : InWord) (s : State) : Host.Outcome State Fault Refusal :=
  match decode w with
  | .instr i => exec i s
  | .illegalOp _ => .next s.refuseCommand
  | .reservedWidth _ _ => .next s

/-- One step. With nothing presented the block waits, and no state changes (10_state.md R20; log 7). -/
def step (s : State) : Host.Outcome State Fault Refusal :=
  match s.inputs with
  | [] => .next s
  | .command w :: rest => runWord (.host w) { s with inputs := rest }
  | .micro u ops :: rest => runWord (.codec u) { s with inputs := rest, codec := ops }
  | .hardReset :: rest => .next (State.hardwareReset { s with inputs := rest })

/-- `s` with the instruction of a table word presented next (log 7): a selector comes with the operands the codec port
already holds. A number that is no table word is no instruction and changes nothing. -/
def State.withFetchWord (s : State) (nbits w : Nat) : State :=
  match tableWord nbits w with
  | none => s
  | some (.host x) => { s with inputs := .command x :: s.inputs }
  | some (.codec u) => { s with inputs := .micro u s.codec :: s.inputs }

end Sys2Proof.Machine
end

