-- ==== Sys2Proof/Machine/Assembler.lean ====
section
/-! DEFINITION. The spec's textual syntax (30_encoding.md R86) and its pseudo-commands (R87): how a host writes command
words. The machine never reads this file: it is presented with words. Numbers are written in hexadecimal here, one of the two
forms R86 allows; a codec micro-operation is no command and has no text (R81). -/

namespace Sys2Proof.Machine

/-- The number of a register (10_state.md R38). -/
def Reg.number : Reg → BitVec 8
  | .ctrl => 0x00#8
  | .status => 0x01#8
  | .width0 => 0x02#8
  | .width1 => 0x03#8
  | .feat => 0x04#8
  | .rstseq => 0x05#8
  | .lenExact => 0x06#8
  | .lenMax => 0x07#8
  | .user => 0x08#8
  | .param0 => 0x09#8
  | .param1 => 0x0A#8
  | .fs i => BitVec.ofNat 8 (0x10 + i.val)
  | .rxCount => 0x20#8
  | .rxBodyLen => 0x21#8
  | .rxRstRun => 0x22#8
  | .txCmd => 0x30#8
  | .txCtl => 0x31#8
  | .txBodyLen => 0x32#8
  | .txArgs => 0x33#8
  | .txLen => 0x34#8
  | .ctCode i => BitVec.ofNat 8 (0x40 + 2 * i.val)
  | .ctHid i => BitVec.ofNat 8 (0x41 + 2 * i.val)

/-- Whether a block with parameters `p` has the register (R32, R33, R38). -/
def Reg.mapped (p : Params) : Reg → Bool
  | .fs i => decide (i.val < p.fsMax.val)
  | .ctCode i => decide (i.val < p.nCmd.val)
  | .ctHid i => decide (i.val < p.nCmd.val)
  | _ => true

/-- One hexadecimal digit. -/
def hexDigit (n : Nat) : Char := if n < 10 then Char.ofNat (48 + n) else Char.ofNat (55 + n)

/-- `k` hexadecimal digits, most significant first. -/
def hexDigits : Nat → Nat → List Char
  | 0, _ => []
  | k + 1, n => hexDigit (n / 16 ^ k % 16) :: hexDigits k n

/-- A decimal index below 100. -/
def decIndex (n : Nat) : List Char := if n < 10 then [hexDigit n] else [hexDigit (n / 10), hexDigit (n % 10)]

/-- A number as `0x` and `k` hexadecimal digits. -/
def hexText (k n : Nat) : String := "0x" ++ String.ofList (hexDigits k n)

/-- A command word, written as 12 hexadecimal digits (R86). -/
def wordText (w : BitVec 48) : String := String.ofList (hexDigits 12 w.toNat)

/-- The name of a register (R86, 10_state.md R38). -/
def Reg.text : Reg → String
  | .ctrl => "CTRL"
  | .status => "STATUS"
  | .width0 => "WIDTH0"
  | .width1 => "WIDTH1"
  | .feat => "FEAT"
  | .rstseq => "RSTSEQ"
  | .lenExact => "LEN_EXACT"
  | .lenMax => "LEN_MAX"
  | .user => "USER"
  | .param0 => "PARAM0"
  | .param1 => "PARAM1"
  | .fs i => "FS[" ++ String.ofList (decIndex i.val) ++ "]"
  | .rxCount => "RX_COUNT"
  | .rxBodyLen => "RX_BODYLEN"
  | .rxRstRun => "RX_RSTRUN"
  | .txCmd => "TX_CMD"
  | .txCtl => "TX_CTL"
  | .txBodyLen => "TX_BODYLEN"
  | .txArgs => "TX_ARGS"
  | .txLen => "TX_LEN"
  | .ctCode i => "CT_CODE[" ++ String.ofList (decIndex i.val) ++ "]"
  | .ctHid i => "CT_HID[" ++ String.ofList (decIndex i.val) ++ "]"

/-- The register operand of a command: its name where the block has one, else the raw number (R86). -/
def regText (p : Params) (r : BitVec 8) : String :=
  match regOf p r with
  | some g => g.text
  | none => hexText 2 r.toNat

/-- One command as text (R86). -/
def commandText (p : Params) : Instr → Option String
  | .feed b => some ("FEED " ++ hexText 2 b.toNat)
  | .cfgwr r v => some ("CFGWR " ++ regText p r ++ ", " ++ hexText 8 v.toNat)
  | .cfgrd r => some ("CFGRD " ++ regText p r)
  | .clear => some "CLEAR"
  | .encode => some "ENCODE"
  | .txwr i b => some ("TXWR " ++ hexText 4 i.toNat ++ ", " ++ hexText 2 b.toNat)
  | .txrd i => some ("TXRD " ++ hexText 4 i.toNat)
  | .putf1 => none
  | .putf2 => none
  | .putf4 => none
  | .getf1 => none
  | .getf2 => none
  | .getf4 => none

/-- The pseudo-commands of R87. -/
inductive Pseudo where
  | enable
  | disable
  | ack (flags : Word)
  | feeds (bs : List Byte)
  | marker (bs : List Byte)
  | entry (i : Fin 32) (code : Word) (hid : BitVec 16)
  | txBody (bs : List Byte)
  | nop
deriving DecidableEq, Repr

/-- MARKER from index `i` on. -/
def markerFrom : Nat → List Byte → List Instr
  | _, [] => []
  | i, b :: bs => .cfgwr (BitVec.ofNat 8 (0x10 + i)) (b.setWidth 32) :: markerFrom (i + 1) bs

/-- TXBODY's byte writes from index `i` on. -/
def txBodyFrom : Nat → List Byte → List Instr
  | _, [] => []
  | i, b :: bs => .txwr (BitVec.ofNat 16 i) b :: txBodyFrom (i + 1) bs

/-- The expansion of a pseudo-command (R87). -/
def Pseudo.expand : Pseudo → List Instr
  | .enable => [.cfgwr (Reg.number .ctrl) 1#32]
  | .disable => [.cfgwr (Reg.number .ctrl) 0#32]
  | .ack flags => [.cfgwr (Reg.number .status) flags]
  | .feeds bs => bs.map .feed
  | .marker bs => markerFrom 0 bs
  | .entry i code hid => [.cfgwr (Reg.number (.ctCode i)) code, .cfgwr (Reg.number (.ctHid i)) (hid.setWidth 32)]
  | .txBody bs => txBodyFrom 0 bs ++ [.cfgwr (Reg.number .txBodyLen) (BitVec.ofNat 32 bs.length)]
  | .nop => [.cfgrd (Reg.number .param0)]

/-- What the host presents to run a list of commands, in order (45_host_commands.md R190). -/
def present : List Instr → List Input
  | [] => []
  | i :: rest =>
    match Sys2Proof.encode i with
    | .host w => .command w :: present rest
    | .codec _ => present rest

end Sys2Proof.Machine
end

