-- ==== Sys2Proof/Safety.lean ====
section
/-! DEFINITION. What claims call a good state and a good run: the canonical memory form, the invariants the spec gives
between two commands (10_state.md R44), the runs of FEED that claims speak of. -/

namespace Sys2Proof.Machine

/-- Every index of a store lies below `c`. -/
def storeBelow (m : Store) (c : Nat) : Bool := m.all fun x => decide (x.1 < c)

/-- The three stores are in canonical form and hold no byte at or beyond their capacity (20_memory.md R50). -/
def State.memoryWf (s : State) : Bool :=
  (Memory.wf s.buf && storeBelow s.buf s.params.cap.toNat) &&
  ((Memory.wf s.txb && storeBelow s.txb s.params.txcap.toNat) &&
   (Memory.wf s.txo && storeBelow s.txo s.params.txcap.toNat))

/-- Wedge mode (00_scope.md R14): no frame ever completes. -/
def State.wedge (s : State) : Bool := !s.params.noIntDispatch && !s.intEn

/-- The longest frame the engine accepts (30_encoding.md R76). -/
def State.frameMax (s : State) : Nat := s.hdr + s.maxBody + s.wInt + s.wCtl

/-- Whether all of the bytes a .. a+n-1 were written since reset. -/
def storeWritten (m : Store) (a : Nat) : Nat → Bool
  | 0 => true
  | n + 1 => (storeGet m a).isSome && storeWritten m (a + 1) n

/-- The bytes of BUF[a..a+n). -/
def State.bufBytes (s : State) (a n : Nat) : List Byte := s.memRead .buf a n

/-- `m'` is `m` with the byte `b` at index `a`, and no other byte changed. -/
def storeSet (m : Store) (a : Nat) (b : Byte) (m' : Store) : Prop :=
  storeGet m' a = some b ∧ ∀ x, x ≠ a → storeGet m' x = storeGet m x

/-- R44 (b) to (e) for an enabled engine, with what makes them inductive: the bytes below N were written, (d) holds from
N = W_FS on, and (e) from N = HDR on. -/
structure State.ProgressOk (s : State) : Prop where
  legal : s.cfgLegal = true
  capOk : s.capOk = true
  written : storeWritten s.buf 0 s.n.toNat = true
  frameBound : s.wedge = false → s.n.toNat < s.frameMax
  runBound : s.rstEn = true → s.rstRun.toNat < s.rstCount.toNat
  markerKept : s.wFs ≤ s.n.toNat → s.bufBytes 0 s.wFs = s.marker
  lengthKept : s.hdr ≤ s.n.toNat →
    s.bodyLen = decBytes s.params.byteOrder (s.bufBytes s.offLen s.wLen) ∧ s.lenFails s.bodyLen = false
      ∧ (s.wedge = false → s.n.toNat < s.total s.bodyLen.toNat)

/-- The invariant of the machine between two steps. -/
structure State.Inv (s : State) : Prop where
  memory : s.memoryWf = true
  countBound : s.n.toNat ≤ s.params.cap.toNat
  progress : s.en = true → s.ProgressOk

/-- RST_RUN after FEED counted the byte `b` (43_reassembly.md R152). -/
def State.runAfter (s : State) (b : Byte) : BitVec 8 :=
  if s.rstEn then (if b = s.rstByte then s.rstRun + 1 else 0) else s.rstRun

/-- Whether the byte `b` completes the reset run (43_reassembly.md R153). -/
def State.fires (s : State) (b : Byte) : Prop := s.rstEn = true ∧ s.runAfter b = s.rstCount

/-- The accumulated bytes with `b` appended: BUF[0..N] after the append of 43_reassembly.md R156. -/
def State.accumulated (s : State) (b : Byte) : List Byte := s.bufBytes 0 s.n.toNat ++ [b]

/-- The event of the lookup (44_dispatch.md R181 to R184) for the frame bytes `f`. -/
def State.frameEvent (s : State) (f : List Byte) : Event :=
  let code := decBytes s.params.byteOrder (slice f s.offCmd s.wCmd)
  match s.lookup code with
  | none => .unknownCmd code
  | some (i, hid) =>
    .dispatch
      { hid := hid
        index := BitVec.ofNat 8 i
        codeVal := code
        tsOff := BitVec.ofNat 16 s.offTs
        ts := slice f s.offTs s.wTs
        bodyLen := s.bodyLen
        bodyOff := BitVec.ofNat 16 s.hdr
        body := slice f s.hdr s.bodyLen.toNat
        ctl := if 0 < s.wCtl then
            decBytes s.params.byteOrder (slice f (s.offCtl s.bodyLen.toNat) s.wCtl)
          else 0
        user := s.user }

/-- Whether the frame bytes `f` fail the integrity comparison (43_reassembly.md R164). -/
def State.frameCorrupt (s : State) (f : List Byte) : Bool :=
  decide (s.hash (slice f s.offCmd (s.hashLen s.bodyLen.toNat)) ≠ slice f (s.offInt s.bodyLen.toNat) s.wInt)

/-- The bytes of a `w`-byte integer field with value `v` (20_memory.md R52): with LE byte i holds bits 8i+7..8i, with BE bits
8(w-1-i)+7..8(w-1-i). -/
def fieldBytes (o : ByteOrder) (w : Nat) (v : Word) : List Byte :=
  (List.range w).map fun i =>
    match o with
    | .le => v.extractLsb' (8 * i) 8
    | .be => v.extractLsb' (8 * (w - 1 - i)) 8

/-- The store holds exactly the written bytes `bs` from index `a` on. -/
def storeHolds (m : Store) (a : Nat) (bs : List Byte) : Prop := ∀ i, i < bs.length → storeGet m (a + i) = bs[i]?

/-- ENCODE is carried out (42_encoder.md R131 to R133): enabled, the frame fits, and a non-empty body is present. -/
def State.encodes (s : State) : Prop :=
  s.en = true ∧ s.total s.txBodyLen.toNat ≤ min s.txCap s.params.txcap.toNat
    ∧ (s.txBodyLen.toNat = 0 ∨ s.txBodyPresent = true)

/-- The values of 10_state.md R41; the stores' contents are unspecified, so no byte counts as written. -/
structure State.HasResetValues (s : State) : Prop where
  progress : s.n = 0 ∧ s.bodyLen = 0 ∧ s.rstRun = 0
  control : s.en = false ∧ s.status = 0
  config : s.width0 = 0 ∧ s.width1 = 0 ∧ s.feat = 0 ∧ s.rstseq = 0 ∧ s.lenExact = 0 ∧ s.lenMax = 0 ∧ s.user = 0
  marker : ∀ i : Fin 16, s.fs[i] = 0
  table : ∀ i : Fin 32, (s.ct[i]).code = 0 ∧ (s.ct[i]).hid = 0
  encoder : s.txCmd = 0 ∧ s.txCtl = 0 ∧ s.txBodyLen = 0 ∧ s.txArgs = 0 ∧ s.txLen = 0
  stores : ∀ (k : StoreId) (x : Nat), storeGet (s.store k) x = none

/-- Feed bytes one after another by `exec`, collecting each FEED's event; `none` if one does not answer a next state. -/
def feedAll : List Byte → State → Option (List (Option Event) × State)
  | [], s => some ([], s)
  | b :: bs, s =>
    match exec (.feed b) s with
    | .next t => (feedAll bs t).map fun r => (t.resp.event :: r.1, r.2)
    | .fault _ => none
    | .refused _ => none

end Sys2Proof.Machine
end

