-- ==== Sys2Proof/Certificates/Slice0/Obligations.lean ====
section
/-! DEFINITION. The statements for the provers. Each docstring names the rule of spec/ the statement formalises; where a
statement rests on a choice of the model, it names the log entry. `resp`, `inputs`, `codec`, `tsIn`, `draws`, `resets` and
`params` are the model's own fields (INVENTORY.md); a next state is written as the old state with the fields that change, so that every
field not named is unchanged. -/

open Sys2Proof Sys2Proof.Machine

/-! ### Words and steps -/

/-- 30_encoding.md R77, R78, R81: no bit of an encoding is dropped. -/
def Obligations.DecodeOfEncode : Prop := ∀ i : Instr, i.wf = true → decode (encode i) = .instr i

/-- 30_encoding.md R79, and the converse round trip: a decoded word is, on the bits its instruction reads, the word the
encoder writes. -/
def Obligations.IgnoredBitsDoNotAffectTheCommand : Prop :=
  (∀ (w w' : BitVec 48) (i : Instr), decode (.host w) = .instr i → w' &&& usedBits i = w &&& usedBits i →
    decode (.host w') = .instr i) ∧
  (∀ (w : BitVec 48) (i : Instr), decode (.host w) = .instr i → encode i = .host (w &&& usedBits i)) ∧
  (∀ (u : BitVec 9) (i : Instr), decode (.codec u) = .instr i → encode i = .codec u)

/-- 45_host_commands.md R191, with the fields of 30_encoding.md R77 as numbers: op 47:40, arg 39:32, data 31:0. -/
def Obligations.EveryCommandWordHasOneMeaning : Prop :=
  ∀ op arg data : Nat, op < 0x100 → arg < 0x100 → data < 0x100000000 →
    decode (.host (BitVec.ofNat 48 (op * 0x10000000000 + arg * 0x100000000 + data))) =
      if op = 1 then .instr (.feed (BitVec.ofNat 8 arg))
      else if op = 2 then .instr (.cfgwr (BitVec.ofNat 8 arg) (BitVec.ofNat 32 data))
      else if op = 3 then .instr (.cfgrd (BitVec.ofNat 8 arg))
      else if op = 4 then .instr .clear
      else if op = 5 then .instr .encode
      else if op = 6 then .instr (.txwr (BitVec.ofNat 16 data) (BitVec.ofNat 8 arg))
      else if op = 7 then .instr (.txrd (BitVec.ofNat 16 data))
      else .illegalOp (BitVec.ofNat 8 op)

/-- Command words the spec writes out (R86, R141, R142, R194, R195, R200) and the selectors of R81 and opcode_table.json. -/
def Obligations.SpecWordsDecode : Prop :=
  decode (.host 0x01AA00000000#48) = .instr (.feed 0xAA#8) ∧
  decode (.host 0x020201000102#48) = .instr (.cfgwr 0x02#8 0x01000102#32) ∧
  decode (.host 0x032000000000#48) = .instr (.cfgrd 0x20#8) ∧
  decode (.host 0x040000000000#48) = .instr .clear ∧
  decode (.host 0x050000000000#48) = .instr .encode ∧
  decode (.host 0x060100000000#48) = .instr (.txwr 0#16 0x01#8) ∧
  decode (.host 0x070000000002#48) = .instr (.txrd 2#16) ∧
  decode (.codec 0b100000001#9) = .instr .putf1 ∧
  decode (.codec 0b100000010#9) = .instr .putf2 ∧
  decode (.codec 0b100000100#9) = .instr .putf4 ∧
  decode (.codec 0b000000001#9) = .instr .getf1 ∧
  decode (.codec 0b000000010#9) = .instr .getf2 ∧
  decode (.codec 0b000000100#9) = .instr .getf4

/-- 10_state.md R20 (b), 45_host_commands.md R190, R191: one step takes the next word and runs its instruction; a codec
selector comes with its operands (log 9). With nothing presented no state changes (log 7). -/
def Obligations.StepRunsTheDecodedInstruction : Prop :=
  (∀ (s : State) (w : BitVec 48) (rest : List Input) (i : Instr), s.inputs = .command w :: rest → i.wf = true →
    decode (.host w) = .instr i → step s = exec i { s with inputs := rest }) ∧
  (∀ (s : State) (u : BitVec 9) (ops : CodecPort) (rest : List Input) (i : Instr), s.inputs = .micro u ops :: rest →
    i.wf = true → decode (.codec u) = .instr i → step s = exec i { s with inputs := rest, codec := ops }) ∧
  (∀ s : State, s.inputs = [] → step s = .next s)

/-- 45_host_commands.md R192 (and 30_encoding.md R80): STATUS bit 2 is CMD_ERR. -/
def Obligations.IllegalCommandOnlyRaisesCmdErr : Prop :=
  ∀ (s : State) (w : BitVec 48) (rest : List Input), s.inputs = .command w :: rest →
    (w.toNat / 0x10000000000 = 0 ∨ 8 ≤ w.toNat / 0x10000000000) →
    step s = .next { s with inputs := rest, status := s.status ||| 0b100#3, resp := ⟨0, none⟩ }

/-- 40_field_codec.md R102, 30_encoding.md R81: a reserved width writes no byte and leaves the destination as it was. The
step form is the model's (log 9, 13). -/
def Obligations.ReservedCodecWidthDoesNothing : Prop :=
  (∀ (s : State) (u : BitVec 9) (ops : CodecPort) (rest : List Input), s.inputs = .micro u ops :: rest →
    u.toNat % 256 ≠ 1 → u.toNat % 256 ≠ 2 → u.toNat % 256 ≠ 4 →
    step s = .next { s with inputs := rest, codec := ops }) ∧
  (∀ (s : State) (k : StoreId) (a w : Nat) (v old : Word), w ≠ 1 → w ≠ 2 → w ≠ 4 →
    s.putf k a v w = s ∧ s.getf old k a w = old)

/-! ### Reset -/

/-- 10_state.md R41, at reset of a block with any parameters. That no byte of a store counts as written is log 5. -/
def Obligations.ResetValues : Prop :=
  (∀ p : Params, (State.resetWith p).HasResetValues ∧ (State.resetWith p).params = p) ∧
  State.reset = State.resetWith Config.params

/-- 70_reset_and_hazards.md R250, R251 (first row): the reset input, from any state. What stays is log 14. -/
def Obligations.HardwareResetGivesResetValues : Prop :=
  ∀ (s : State) (rest : List Input), s.inputs = .hardReset :: rest →
    ∃ t, step s = .next t ∧ t.HasResetValues ∧ t.params = s.params ∧ t.inputs = rest

/-! ### Invariants -/

/-- The invariant holds after reset of a block with any parameters. -/
def Obligations.InvariantHoldsAtReset : Prop := ∀ p : Params, (State.resetWith p).Inv

/-- 10_state.md R44 (a) to (e), in the form that every step keeps: from every state with the invariant. -/
def Obligations.InvariantKeptByEveryStep : Prop := ∀ s t : State, s.Inv → step s = .next t → t.Inv

/-- Every step keeps the canonical form of the three stores and their bounds (20_memory.md R50, R58), from every state. -/
def Obligations.MemoryFormKeptByEveryStep : Prop :=
  ∀ s t : State, s.memoryWf = true → step s = .next t → t.memoryWf = true

/-- The implementation parameters never change (00_scope.md R5), and a presented input is taken exactly once
(70_reset_and_hazards.md R260). -/
def Obligations.ParametersNeverChange : Prop :=
  ∀ s t : State, step s = .next t → t.params = s.params ∧ t.inputs = s.inputs.tail

/-- 43_reassembly.md R155: in an enabled engine the guard is unreachable except in wedge mode. -/
def Obligations.OverflowNeedsWedgeMode : Prop :=
  ∀ (s t : State) (b : Byte), s.Inv → s.en = true → s.wedge = false → exec (.feed b) s = .next t →
    t.resp.event ≠ some .overflow ∧ t.status = s.status

/-! ### FEED -/

/-- FEED completes in every state the block can be in (N is at most CAP, 10_state.md R21), and changes only what
45_host_commands.md R204 lists. The bytes of BUF it stores to are index N (the append) and, when the append brings N to W_FS,
the indices below W_FS - 1 (the shift of a resync). Above CAP it stops (log 11). -/
def Obligations.FeedCompletesAndChangesOnly : Prop :=
  (∀ (s : State) (b : Byte), s.n.toNat ≤ s.params.cap.toNat → ∃ t, exec (.feed b) s = .next t) ∧
  (∀ (s t : State) (b : Byte), exec (.feed b) s = .next t →
    t = { s with n := t.n, bodyLen := t.bodyLen, rstRun := t.rstRun, buf := t.buf, status := t.status, resp := t.resp } ∧
    (t.status = s.status ∨ t.status = s.status ||| 0b010#3 ∨ t.status = s.status ||| 0b100#3) ∧
    t.resp.rdata = 0 ∧
    (∀ x, x ≠ s.n.toNat → (s.n.toNat + 1 ≠ s.wFs ∨ s.wFs ≤ x + 1) → storeGet t.buf x = storeGet s.buf x)) ∧
  (∀ (s : State) (b : Byte), s.en = true → ¬ s.fires b → s.params.cap.toNat < s.n.toNat →
    exec (.feed b) s = .fault .countBeyondCapacity)

/-- 43_reassembly.md R151. -/
def Obligations.FeedDisabledOnlyRaisesCmdErr : Prop :=
  ∀ (s : State) (b : Byte), s.en = false →
    exec (.feed b) s = .next { s with status := s.status ||| 0b100#3, resp := ⟨0, none⟩ }

/-- 43_reassembly.md R153 (with the counter of R152 and the precedence of R154): whatever N is, the byte that completes the
run is not appended. -/
def Obligations.FeedCompletingTheResetRunFires : Prop :=
  ∀ (s : State) (b : Byte), s.en = true → s.rstEn = true →
    (if b = s.rstByte then s.rstRun + 1 else 0) = s.rstCount →
    exec (.feed b) s = .next { s with rstRun := 0, n := 0,
                                      resp := ⟨0, if s.rstCbEn then some .resetSeq else none⟩ }

/-- 43_reassembly.md R155: the guard, BODY_LEN and BUF unchanged. -/
def Obligations.FeedAtCapacityOverflows : Prop :=
  ∀ (s : State) (b : Byte), s.en = true → ¬ s.fires b → s.n = s.params.cap →
    exec (.feed b) s = .next { s with rstRun := s.runAfter b, n := 0, status := s.status ||| 0b010#3,
                                      resp := ⟨0, some .overflow⟩ }

/-- 43_reassembly.md R152, R156, R162: at any other count the byte is appended and no stage acts. -/
def Obligations.FeedBetweenThresholdsOnlyAppends : Prop :=
  ∀ (s : State) (b : Byte), s.en = true → ¬ s.fires b → s.n.toNat < s.params.cap.toNat →
    s.n.toNat + 1 ≠ s.wFs → s.n.toNat + 1 ≠ s.hdr → s.n.toNat + 1 ≠ s.total s.bodyLen.toNat →
    ∃ m, exec (.feed b) s = .next { s with rstRun := s.runAfter b, n := s.n + 1, buf := m, resp := ⟨0, none⟩ } ∧
      storeSet s.buf s.n.toNat b m

/-- 43_reassembly.md R158, mismatch: the first byte is dropped, the rest moves down by one, N is unchanged net. -/
def Obligations.FeedMarkerMismatchResyncs : Prop :=
  ∀ (s : State) (b : Byte), s.Inv → s.en = true → ¬ s.fires b → s.n ≠ s.params.cap → s.n.toNat + 1 = s.wFs →
    s.accumulated b ≠ s.marker →
    ∃ m, exec (.feed b) s = .next { s with rstRun := s.runAfter b, buf := m,
                                           resp := ⟨0, some (.resync ((s.accumulated b).headD 0))⟩ } ∧
      (∀ x, x < s.n.toNat → storeGet m x = (s.accumulated b)[x + 1]?) ∧ storeGet m s.n.toNat = some b ∧
      (∀ x, s.n.toNat < x → storeGet m x = storeGet s.buf x)

/-- 43_reassembly.md R158, match: the buffer is kept and accumulation continues. -/
def Obligations.FeedMarkerMatchContinues : Prop :=
  ∀ (s : State) (b : Byte), s.Inv → s.en = true → ¬ s.fires b → s.n ≠ s.params.cap → s.n.toNat + 1 = s.wFs →
    s.accumulated b = s.marker →
    ∃ t, exec (.feed b) s = .next t ∧ t = { s with rstRun := s.runAfter b, n := s.n + 1, buf := t.buf, resp := ⟨0, none⟩ } ∧
      storeSet s.buf s.n.toNat b t.buf ∧ t.bufBytes 0 s.wFs = s.marker

/-- 43_reassembly.md R159: from N = 0, with stage 1 silent because detection is off, the engine keeps the last bytes fed
until the marker first ends the stream, emits one EV_RESYNC for each byte that finds a mismatch, and synchronises there. -/
def Obligations.EngineIsASlidingWindowMatcher : Prop :=
  ∀ (s : State) (xs : List Byte), s.Inv → s.en = true → s.rstEn = false → s.n = 0 → 1 ≤ s.wFs →
    (∀ k, k ≤ xs.length → ¬ s.marker <:+ xs.take k) →
    ∃ t, feedAll xs s = some ((List.range xs.length).map (fun k =>
        if k + 1 < s.wFs then none else some (.resync (xs.getD (k + 1 - s.wFs) 0))), t) ∧
      t.n.toNat = min xs.length (s.wFs - 1) ∧
      t.bufBytes 0 t.n.toNat = xs.drop (xs.length - t.n.toNat) ∧
      (∀ b, s.marker <:+ xs ++ [b] → ∃ u, exec (.feed b) t = .next u ∧ u.n.toNat = s.wFs ∧
        u.bufBytes 0 s.wFs = s.marker ∧ u.resp.event = none)

/-- 43_reassembly.md R160, R161, R162: a length the policy accepts, in a frame with more to come, or in wedge mode, where the
frame never completes even when the header is all of it (R157, R166, R170 (b)). The policy is spelled out: with neither register
enabled every length passes, LEN_MAX itself passes. -/
def Obligations.FeedAcceptedLengthContinues : Prop :=
  ∀ (s : State) (b : Byte) (len : Word), s.Inv → s.en = true → ¬ s.fires b → s.n ≠ s.params.cap → s.n.toNat + 1 = s.hdr →
    len = decBytes s.params.byteOrder (slice (s.accumulated b) s.offLen s.wLen) →
    (s.exactEn = true → len = s.lenExact) → (s.maxEn = true → len.toNat ≤ s.lenMax.toNat) →
    (s.hdr < s.total len.toNat ∨ s.wedge = true) →
    ∃ t, exec (.feed b) s = .next t ∧
      t = { s with rstRun := s.runAfter b, n := s.n + 1, bodyLen := len, buf := t.buf, resp := ⟨0, none⟩ } ∧
      storeSet s.buf s.n.toNat b t.buf ∧ t.bufBytes 0 s.hdr = s.accumulated b

/-- 43_reassembly.md R161: a length the policy rejects drops the buffer; BODY_LEN keeps the rejected value. The policy is
spelled out: exact or maximum, unsigned on 32 bits. -/
def Obligations.FeedRejectedLengthDrops : Prop :=
  ∀ (s : State) (b : Byte) (len : Word), s.Inv → s.en = true → ¬ s.fires b → s.n ≠ s.params.cap → s.n.toNat + 1 = s.hdr →
    len = decBytes s.params.byteOrder (slice (s.accumulated b) s.offLen s.wLen) →
    (s.exactEn = true ∧ len ≠ s.lenExact) ∨ (s.maxEn = true ∧ s.lenMax.toNat < len.toNat) →
    ∃ t, exec (.feed b) s = .next t ∧
      t = { s with rstRun := s.runAfter b, n := 0, bodyLen := len, buf := t.buf, resp := ⟨0, some (.lenDrop len)⟩ } ∧
      storeSet s.buf s.n.toNat b t.buf

/-- 43_reassembly.md R157, R170 (b): an empty body with no trailer completes on the length byte itself, stage 3 and stage 4
acting on one FEED. No maximum rejects 0 (R161). -/
def Obligations.EmptyFrameCompletesAtTheLengthByte : Prop :=
  ∀ (s : State) (b : Byte), s.Inv → s.en = true → s.wedge = false → ¬ s.fires b → s.n.toNat + 1 = s.hdr →
    decBytes s.params.byteOrder (slice (s.accumulated b) s.offLen s.wLen) = 0 → (s.exactEn = true → s.lenExact = 0) →
    s.wInt = 0 → s.wCtl = 0 →
    ∃ t, exec (.feed b) s = .next t ∧
      t = { s with rstRun := s.runAfter b, n := 0, bodyLen := 0, buf := t.buf,
                   resp := ⟨0, some ({ s with bodyLen := 0 }.frameEvent (s.accumulated b))⟩ } ∧
      storeSet s.buf s.n.toNat b t.buf

/-- 43_reassembly.md R164: HASH over command, timestamp, length and body differs from the received integrity bytes. -/
def Obligations.FeedIntegrityMismatchDrops : Prop :=
  ∀ (s : State) (b : Byte), s.Inv → s.en = true → ¬ s.fires b → s.hdr < s.n.toNat + 1 →
    s.n.toNat + 1 = s.total s.bodyLen.toNat → s.intEn = true →
    s.hash (slice (s.accumulated b) s.wFs (s.wCmd + s.wTs + s.wLen + s.bodyLen.toNat)) ≠
      slice (s.accumulated b) (s.hdr + s.bodyLen.toNat) s.wInt →
    ∃ t, exec (.feed b) s = .next t ∧
      t = { s with rstRun := s.runAfter b, n := 0, buf := t.buf, resp := ⟨0, some .intDrop⟩ } ∧
      storeSet s.buf s.n.toNat b t.buf

/-- 43_reassembly.md R164, R165, R166, 44_dispatch.md R181, R183, R184: a complete frame that passes or skips the integrity
check is looked up once, and N is cleared whatever the lookup finds. -/
def Obligations.FeedCompleteFrameIsLookedUp : Prop :=
  ∀ (s : State) (b : Byte) (code : Word), s.Inv → s.en = true → ¬ s.fires b → s.hdr < s.n.toNat + 1 →
    s.n.toNat + 1 = s.total s.bodyLen.toNat → s.wedge = false →
    (s.intEn = true →
      s.hash (slice (s.accumulated b) s.wFs (s.wCmd + s.wTs + s.wLen + s.bodyLen.toNat)) =
        slice (s.accumulated b) (s.hdr + s.bodyLen.toNat) s.wInt) →
    code = decBytes s.params.byteOrder (slice (s.accumulated b) s.wFs s.wCmd) →
    ∃ t e, exec (.feed b) s = .next t ∧
      t = { s with rstRun := s.runAfter b, n := 0, buf := t.buf, resp := ⟨0, some e⟩ } ∧
      storeSet s.buf s.n.toNat b t.buf ∧
      (s.lookup code = none → e = .unknownCmd code) ∧
      (∀ i hid, s.lookup code = some (i, hid) →
        e = .dispatch
          { hid := hid
            index := BitVec.ofNat 8 i
            codeVal := code
            tsOff := BitVec.ofNat 16 (s.wFs + s.wCmd)
            ts := slice (s.accumulated b) (s.wFs + s.wCmd) s.wTs
            bodyLen := s.bodyLen
            bodyOff := BitVec.ofNat 16 s.hdr
            body := slice (s.accumulated b) s.hdr s.bodyLen.toNat
            ctl := if s.wCtl = 0 then 0 else
              decBytes s.params.byteOrder (slice (s.accumulated b) (s.hdr + s.bodyLen.toNat + s.wInt) s.wCtl)
            user := s.user })

/-- 43_reassembly.md R166, NOINT_DISPATCH = false: at a completion threshold beyond the header nothing happens but the append
(at the header itself, Obligations.FeedAcceptedLengthContinues says so), and in no state does a FEED complete a frame. -/
def Obligations.WedgeModeIgnoresTheCompletionThreshold : Prop :=
  (∀ (s : State) (b : Byte), s.Inv → s.en = true → s.wedge = true → ¬ s.fires b → s.n ≠ s.params.cap →
    s.hdr < s.n.toNat + 1 →
    ∃ t, exec (.feed b) s = .next t ∧
      t = { s with rstRun := s.runAfter b, n := s.n + 1, buf := t.buf, resp := ⟨0, none⟩ } ∧
      storeSet s.buf s.n.toNat b t.buf) ∧
  ∀ (s t : State) (b : Byte), s.wedge = true → exec (.feed b) s = .next t →
    t.resp.event ≠ some .intDrop ∧ (∀ c, t.resp.event ≠ some (.unknownCmd c)) ∧ ∀ d, t.resp.event ≠ some (.dispatch d)

/-- 60_exceptions.md R227, the source's "Idempotent buffer state": after any terminal outcome N is 0, in every state. -/
def Obligations.CountIsZeroAfterEveryTerminalOutcome : Prop :=
  ∀ (s t : State) (b : Byte) (e : Event), exec (.feed b) s = .next t → t.resp.event = some e →
    (∀ d, e ≠ .resync d) → t.n = 0

/-- 44_dispatch.md R182: the lowest-numbered entry with the code, before the first sentinel, among the N_CMD entries. -/
def Obligations.TableLookupFindsTheFirstMatch : Prop :=
  (∀ (s : State) (code : Word) (i : Nat) (hid : BitVec 16),
    s.lookup code = some (i, hid) ↔
      ∃ h : i < 32, i < s.params.nCmd.val ∧ (s.ct[i]).code = code ∧ (s.ct[i]).hid = hid ∧ hid ≠ 0 ∧
        ∀ j : Fin 32, j.val < i → (s.ct[j]).hid ≠ 0 ∧ (s.ct[j]).code ≠ code) ∧
  (∀ (s : State) (code : Word),
    s.lookup code = none ↔
      ∀ i : Fin 32, i.val < s.params.nCmd.val → (s.ct[i]).code = code →
        ∃ j : Fin 32, j.val ≤ i.val ∧ (s.ct[j]).hid = 0)

/-! ### Host commands -/

/-- 45_host_commands.md R194 with the numbers of 10_state.md R38: what CFGRD answers, enabled or not. PARAM0 as R34 packs
it. -/
def Obligations.CfgrdAnswersTheRegisterValue : Prop :=
  ∀ s : State,
    let reads := fun (r : Nat) (v : Word) => exec (.cfgrd (BitVec.ofNat 8 r)) s = .next { s with resp := ⟨v, none⟩ }
    reads 0x00 (if s.en then 1 else 0) ∧ reads 0x01 (BitVec.ofNat 32 s.status.toNat) ∧
    reads 0x02 s.width0 ∧ reads 0x03 (BitVec.ofNat 32 s.width1.toNat) ∧ reads 0x04 (BitVec.ofNat 32 s.feat.toNat) ∧
    reads 0x05 (BitVec.ofNat 32 s.rstseq.toNat) ∧ reads 0x06 s.lenExact ∧ reads 0x07 s.lenMax ∧ reads 0x08 s.user ∧
    reads 0x09 (BitVec.ofNat 32 (s.params.cap.toNat + s.params.fsMax.val * 2 ^ 16 + s.params.nCmd.val * 2 ^ 21
      + (if s.params.byteOrder = .be then 1 else 0) * 2 ^ 27 + (if s.params.noIntDispatch then 1 else 0) * 2 ^ 28)) ∧
    reads 0x0A (BitVec.ofNat 32 s.params.txcap.toNat) ∧
    reads 0x20 (BitVec.ofNat 32 s.n.toNat) ∧ reads 0x21 s.bodyLen ∧ reads 0x22 (BitVec.ofNat 32 s.rstRun.toNat) ∧
    reads 0x30 s.txCmd ∧ reads 0x31 s.txCtl ∧ reads 0x32 s.txBodyLen ∧ reads 0x33 (BitVec.ofNat 32 s.txArgs.toNat) ∧
    reads 0x34 (BitVec.ofNat 32 s.txLen.toNat) ∧
    (∀ i : Fin 16, i.val < s.params.fsMax.val → reads (0x10 + i.val) (BitVec.ofNat 32 (s.fs[i]).toNat)) ∧
    (∀ i : Fin 32, i.val < s.params.nCmd.val → reads (0x40 + 2 * i.val) (s.ct[i]).code ∧
      reads (0x41 + 2 * i.val) (BitVec.ofNat 32 (s.ct[i]).hid.toNat))

/-- 10_state.md R32, R33, R38: a number names a register exactly when the block has that register and it has that number. -/
def Obligations.RegisterNumbersNameTheMap : Prop :=
  ∀ (p : Params) (r : BitVec 8) (g : Reg), regOf p r = some g ↔ (g.mapped p = true ∧ g.number = r)

/-- 45_host_commands.md R193: every number outside the map of R38, read or written. -/
def Obligations.UnmappedRegisterOnlyRaisesCmdErr : Prop :=
  ∀ (s : State) (r : BitVec 8) (v : Word),
    ¬ (r.toNat ≤ 0x0A ∨ (0x10 ≤ r.toNat ∧ r.toNat < 0x10 + s.params.fsMax.val) ∨ (0x20 ≤ r.toNat ∧ r.toNat ≤ 0x22) ∨
       (0x30 ≤ r.toNat ∧ r.toNat ≤ 0x34) ∨ (0x40 ≤ r.toNat ∧ r.toNat < 0x40 + 2 * s.params.nCmd.val)) →
    exec (.cfgrd r) s = .next { s with status := s.status ||| 0b100#3, resp := ⟨0, none⟩ } ∧
    exec (.cfgwr r v) s = .next { s with status := s.status ||| 0b100#3, resp := ⟨0, none⟩ }

/-- 45_host_commands.md R195 (RW), R202: writable enabled or not, reserved bits dropped (10_state.md R39). -/
def Obligations.CfgwrWritesTableAndEncoderOperands : Prop :=
  ∀ (s : State) (v : Word),
    let writes := fun (r : Nat) (t : State) => exec (.cfgwr (BitVec.ofNat 8 r) v) s = .next { t with resp := ⟨0, none⟩ }
    writes 0x30 { s with txCmd := v } ∧ writes 0x31 { s with txCtl := v } ∧ writes 0x32 { s with txBodyLen := v } ∧
    writes 0x33 { s with txArgs := BitVec.ofNat 17 v.toNat } ∧
    (∀ i : Fin 32, i.val < s.params.nCmd.val →
      writes (0x40 + 2 * i.val) { s with ct := s.ct.set i.val { code := v, hid := (s.ct[i]).hid } } ∧
      writes (0x41 + 2 * i.val)
        { s with ct := s.ct.set i.val { code := (s.ct[i]).code, hid := BitVec.ofNat 16 v.toNat } })

/-- 45_host_commands.md R195 (RWF while disabled): reserved bits dropped (10_state.md R39), illegal values stored. -/
def Obligations.CfgwrWritesConfigurationWhileDisabled : Prop :=
  ∀ (s : State) (v : Word), s.en = false →
    let writes := fun (r : Nat) (t : State) => exec (.cfgwr (BitVec.ofNat 8 r) v) s = .next { t with resp := ⟨0, none⟩ }
    writes 0x02 { s with width0 := v } ∧ writes 0x03 { s with width1 := BitVec.ofNat 16 v.toNat } ∧
    writes 0x04 { s with feat := BitVec.ofNat 6 v.toNat } ∧ writes 0x05 { s with rstseq := BitVec.ofNat 16 v.toNat } ∧
    writes 0x06 { s with lenExact := v } ∧ writes 0x07 { s with lenMax := v } ∧ writes 0x08 { s with user := v } ∧
    (∀ i : Fin 16, i.val < s.params.fsMax.val →
      writes (0x10 + i.val) { s with fs := s.fs.set i.val (BitVec.ofNat 8 v.toNat) })

/-- 45_host_commands.md R196: the RWF registers while enabled. -/
def Obligations.FrozenRegisterWriteIsRefused : Prop :=
  ∀ (s : State) (r : BitVec 8) (v : Word), s.en = true →
    ((0x02 ≤ r.toNat ∧ r.toNat ≤ 0x08) ∨ (0x10 ≤ r.toNat ∧ r.toNat < 0x10 + s.params.fsMax.val)) →
    exec (.cfgwr r v) s = .next { s with status := s.status ||| 0b100#3, resp := ⟨0, none⟩ }

/-- 45_host_commands.md R201, over the read-only registers of 10_state.md R38. -/
def Obligations.ReadOnlyRegisterWriteIsIgnored : Prop :=
  ∀ (s : State) (v : Word) (r : BitVec 8),
    (r = 0x09#8 ∨ r = 0x0A#8 ∨ r = 0x20#8 ∨ r = 0x21#8 ∨ r = 0x22#8 ∨ r = 0x34#8) →
    exec (.cfgwr r v) s = .next { s with resp := ⟨0, none⟩ }

/-- 45_host_commands.md R197: write-one-to-clear, bit by bit; bits 31:3 of the value are ignored. -/
def Obligations.StatusWriteOneToClear : Prop :=
  ∀ (s : State) (v : Word), ∃ t, exec (.cfgwr 0x01#8 v) s = .next t ∧
    t = { s with status := t.status, resp := ⟨0, none⟩ } ∧
    ∀ k, k < 3 → t.status.getLsbD k = (s.status.getLsbD k && !v.getLsbD k)

/-- 45_host_commands.md R198: enable while disabled, legal or not. STATUS bit 0 is CFG_ERR. -/
def Obligations.EnableChecksTheConfiguration : Prop :=
  ∀ (s : State) (v : Word), s.en = false → v.getLsbD 0 = true →
    (s.cfgLegal = true ∧ s.capOk = true →
      exec (.cfgwr 0x00#8 v) s =
        .next { s with en := true, n := 0, bodyLen := 0, rstRun := 0, resp := ⟨0, none⟩ }) ∧
    (s.cfgLegal = false ∨ s.capOk = false →
      exec (.cfgwr 0x00#8 v) s = .next { s with status := s.status ||| 0b001#3, resp := ⟨0, none⟩ })

/-- 45_host_commands.md R199: disable keeps the progress registers; the other writes of CTRL do nothing. -/
def Obligations.OtherCtrlWrites : Prop :=
  ∀ (s : State) (v : Word),
    (s.en = true → v.getLsbD 0 = false →
      exec (.cfgwr 0x00#8 v) s = .next { s with en := false, resp := ⟨0, none⟩ }) ∧
    (s.en = v.getLsbD 0 → exec (.cfgwr 0x00#8 v) s = .next { s with resp := ⟨0, none⟩ })

/-- 45_host_commands.md R200. -/
def Obligations.ClearZeroesTheProgressRegisters : Prop :=
  ∀ s : State, exec .clear s = .next { s with n := 0, bodyLen := 0, rstRun := 0, resp := ⟨0, none⟩ }

/-- 10_state.md R42 and R43, with the fields of WIDTH0, WIDTH1, FEAT and RSTSEQ at the places R26 to R29 give them. -/
def Obligations.LegalConfigurations : Prop :=
  ∀ s : State,
    let wFs := s.width0.toNat % 256
    let wCmd := s.width0.toNat / 2 ^ 8 % 256
    let wTs := s.width0.toNat / 2 ^ 16 % 256
    let wLen := s.width0.toNat / 2 ^ 24
    let wInt := s.width1.toNat % 256
    let wCtl := s.width1.toNat / 2 ^ 8
    let rstEn := s.feat.getLsbD 2
    let exactEn := s.feat.getLsbD 4
    let maxEn := s.feat.getLsbD 5
    let lim := 2 ^ (8 * wLen) - 1
    (s.cfgLegal = true ↔
      wFs ≤ s.params.fsMax.val ∧ (wCmd = 1 ∨ wCmd = 2 ∨ wCmd = 4) ∧ (wLen = 1 ∨ wLen = 2 ∨ wLen = 4) ∧
      (wCtl = 0 ∨ wCtl = 1 ∨ wCtl = 2 ∨ wCtl = 4) ∧ ¬ (exactEn = true ∧ maxEn = true) ∧
      (rstEn = true → 1 ≤ s.rstseq.toNat / 2 ^ 8)) ∧
    (¬ (exactEn = true ∧ maxEn = true) →
      (s.capOk = true ↔
        wFs + wCmd + wTs + wLen
          + (if exactEn then min s.lenExact.toNat lim else if maxEn then min s.lenMax.toNat lim else lim)
          + wInt + wCtl ≤ s.params.cap.toNat))

/-! ### Rules about the whole machine -/

/-- 10_state.md R24: a flag is cleared only by the host writing 1 to it; no instruction clears one otherwise. -/
def Obligations.OnlyTheHostClearsAFlag : Prop :=
  ∀ (i : Instr) (s t : State) (k : Nat), exec i s = .next t → s.status.getLsbD k = true → t.status.getLsbD k = false →
    ∃ v, i = .cfgwr 0x01#8 v ∧ v.getLsbD k = true

/-- 10_state.md R25, 45_host_commands.md R198: EN rises only by a write of CTRL on a legal configuration that fits. -/
def Obligations.OnlyALegalEnableEnables : Prop :=
  ∀ (i : Instr) (s t : State), exec i s = .next t → s.en = false → t.en = true →
    ∃ v, i = .cfgwr 0x00#8 v ∧ v.getLsbD 0 = true ∧ s.cfgLegal = true ∧ s.capOk = true ∧
      t = { s with en := true, n := 0, bodyLen := 0, rstRun := 0, resp := ⟨0, none⟩ }

/-- 00_scope.md R6, 45_host_commands.md R196: while enabled no instruction changes a configuration register. -/
def Obligations.ConfigurationIsFrozenWhileEnabled : Prop :=
  ∀ (i : Instr) (s t : State), exec i s = .next t → s.en = true →
    t.width0 = s.width0 ∧ t.width1 = s.width1 ∧ t.feat = s.feat ∧ t.rstseq = s.rstseq ∧ t.lenExact = s.lenExact ∧
    t.lenMax = s.lenMax ∧ t.user = s.user ∧ t.fs = s.fs

/-- 30_encoding.md R83: only FEED emits events. A codec micro-operation taken alone answers no response (log 12). -/
def Obligations.OnlyFeedEmitsEvents : Prop :=
  ∀ (i : Instr) (s t : State), exec i s = .next t → t.resp.event ≠ none →
    (∃ b, i = .feed b) ∨ t.resp = s.resp

/-! ### The codec taken alone -/

/-- 40_field_codec.md R100, with the bytes of 20_memory.md R52: PUTF writes the low bytes of its value and changes no other
byte of its store and nothing else. The operands, the store among them, stand in the codec port (log 9). -/
def Obligations.PutfWritesTheLowBytes : Prop :=
  ∀ (i : Instr) (w : Nat), ((i, w) = (.putf1, 1) ∨ (i, w) = (.putf2, 2) ∨ (i, w) = (.putf4, 4)) →
    ∀ s : State, s.codec.off.toNat + w ≤ s.codec.bytes.length →
      ∃ l, exec i s = .next { s with codec := { s.codec with bytes := l } } ∧
        slice l s.codec.off.toNat w = fieldBytes s.params.byteOrder w s.codec.val ∧
        ∀ x, (x < s.codec.off.toNat ∨ s.codec.off.toNat + w ≤ x) → l[x]? = s.codec.bytes[x]?

/-- 40_field_codec.md R101: GETF changes only its destination, to the value below 2^(8w) whose field bytes it read. The
operands, the store among them, stand in the codec port (log 9). -/
def Obligations.GetfReadsTheFieldZeroExtended : Prop :=
  ∀ (i : Instr) (w : Nat), ((i, w) = (.getf1, 1) ∨ (i, w) = (.getf2, 2) ∨ (i, w) = (.getf4, 4)) →
    ∀ s : State, s.codec.off.toNat + w ≤ s.codec.bytes.length →
      ∃ v : Word, exec i s = .next { s with codec := { s.codec with dst := v } } ∧ v.toNat < 2 ^ (8 * w) ∧
        slice s.codec.bytes s.codec.off.toNat w = fieldBytes s.params.byteOrder w v

/-- 40_field_codec.md R103 (a), (b): GETF after PUTF gives the value modulo 2^(8w); PUTF of what GETF gave leaves the store as
it was. The operands stand in the codec port (log 9). -/
def Obligations.CodecRoundTrips : Prop :=
  ∀ (i j : Instr) (w : Nat),
    ((i, j, w) = (.putf1, .getf1, 1) ∨ (i, j, w) = (.putf2, .getf2, 2) ∨ (i, j, w) = (.putf4, .getf4, 4)) →
    (∀ s t : State, exec i s = .next t →
      ∃ u, exec j t = .next u ∧ u.codec.dst.toNat = s.codec.val.toNat % 2 ^ (8 * w)) ∧
    (∀ s t : State, exec j s = .next t →
      exec i { t with codec := { t.codec with val := t.codec.dst } } =
        .next { t with codec := { t.codec with val := t.codec.dst } })

/-- The model's choice (log 10): outside the store the caller breaks R100's guarantee and the access is not defined
(00_scope.md R9); the model stops. -/
def Obligations.CodecOutsideItsStoreFaults : Prop :=
  ∀ (i : Instr) (w : Nat),
    ((i, w) = (.putf1, 1) ∨ (i, w) = (.putf2, 2) ∨ (i, w) = (.putf4, 4) ∨
     (i, w) = (.getf1, 1) ∨ (i, w) = (.getf2, 2) ∨ (i, w) = (.getf4, 4)) →
    ∀ s : State, s.codec.bytes.length < s.codec.off.toNat + w → exec i s = .fault .codecOutOfRange

/-! ### The encoder -/

/-- 42_encoder.md R141. -/
def Obligations.TxwrWritesOneBodyByte : Prop :=
  ∀ (s : State) (i : BitVec 16) (b : Byte),
    (i.toNat < s.params.txcap.toNat → ∃ m, exec (.txwr i b) s = .next { s with txb := m, resp := ⟨0, none⟩ } ∧
      storeGet m i.toNat = some b ∧ ∀ x, x ≠ i.toNat → storeGet m x = storeGet s.txb x) ∧
    (s.params.txcap.toNat ≤ i.toNat →
      exec (.txwr i b) s = .next { s with status := s.status ||| 0b100#3, resp := ⟨0, none⟩ })

/-- 42_encoder.md R142, 20_memory.md R56: the byte TXO holds is answered and nothing changes; a byte ENCODE never wrote holds
a free value (log 5); an index out of range is refused. -/
def Obligations.TxrdReadsOneOutputByte : Prop :=
  ∀ (s : State) (i : BitVec 16),
    (i.toNat < s.params.txcap.toNat →
      ∃ b : Byte, exec (.txrd i) s = .next { s with resp := ⟨BitVec.ofNat 32 b.toNat, none⟩ } ∧
        s.memRead .txo i.toNat 1 = [b] ∧ ∀ c, storeGet s.txo i.toNat = some c → b = c) ∧
    (s.params.txcap.toNat ≤ i.toNat →
      exec (.txrd i) s = .next { s with status := s.status ||| 0b100#3, resp := ⟨0, none⟩ })

/-- 60_exceptions.md R221 row 9, R227: a refused command has no other effect. That TX_LEN keeps its value, where 42_encoder.md
R131 and R140 write TX_LEN <- 0, is the model's choice of that rule and of D21 and U13 (log 22). -/
def Obligations.EncodeDisabledIsRefused : Prop :=
  ∀ s : State, s.en = false →
    exec .encode s = .next { s with status := s.status ||| 0b100#3, resp := ⟨0, none⟩ }

/-- 42_encoder.md R132, R133: the capacity and the argument error, with the sum of R72 computed without wrap. -/
def Obligations.EncodeErrorsWriteNothing : Prop :=
  ∀ s : State, s.en = true →
    (min s.txCap s.params.txcap.toNat
        < s.wFs + s.wCmd + s.wTs + s.wLen + s.txBodyLen.toNat + s.wInt + s.wCtl ∨
      (0 < s.txBodyLen.toNat ∧ s.txBodyPresent = false)) →
    exec .encode s = .next { s with txLen := 0, resp := ⟨0, none⟩ }

/-- 45_host_commands.md R204, 42_encoder.md R139, R143 (h), R146: ENCODE completes in every state and changes only TXO below
TOTAL(L), TX_LEN and CMD_ERR; TS_SRC's bytes and draws may be used up (log 4). -/
def Obligations.EncodeCompletesAndChangesOnly : Prop :=
  ∀ s : State, ∃ t, exec .encode s = .next t ∧
    t = { s with txo := t.txo, txLen := t.txLen, status := t.status, resp := t.resp, tsIn := t.tsIn, draws := t.draws } ∧
    (t.status = s.status ∨ (s.en = false ∧ t.status = s.status ||| 0b100#3)) ∧ t.resp.event = none ∧
    ∀ x, (¬ s.encodes ∨ s.total s.txBodyLen.toNat ≤ x) → storeGet t.txo x = storeGet s.txo x

/-- 42_encoder.md R134 to R139: the frame ENCODE builds, field by field; without a timestamp source its bytes keep what TXO
held (R135). A body byte the host never wrote is the free value TXB holds (log 5). -/
def Obligations.EncodeBuildsTheFrame : Prop :=
  ∀ s : State, s.encodes → s.cfgLegal = true →
    ∃ t ts, exec .encode s = .next t ∧
      t.resp = ⟨BitVec.ofNat 32 (s.total s.txBodyLen.toNat), none⟩ ∧ t.txLen.toNat = s.total s.txBodyLen.toNat ∧
      storeHolds t.txo 0 s.marker ∧
      storeHolds t.txo s.offCmd (fieldBytes s.params.byteOrder s.wCmd s.txCmd) ∧
      (s.tsEn = true → ts.length = s.wTs ∧ storeHolds t.txo s.offTs ts ∧
        (s.wTs ≤ s.tsIn.length → ts = s.tsIn.take s.wTs)) ∧
      (s.tsEn = false → ∀ x, s.offTs ≤ x → x < s.offLen →
        storeGet t.txo x = storeGet s.txo x ∧ t.memRead .txo x 1 = s.memRead .txo x 1) ∧
      storeHolds t.txo s.offLen (fieldBytes s.params.byteOrder s.wLen s.txBodyLen) ∧
      storeHolds t.txo s.hdr (s.memRead .txb 0 s.txBodyLen.toNat) ∧
      (s.intEn = false → storeHolds t.txo (s.offInt s.txBodyLen.toNat) (List.replicate s.wInt 0)) ∧
      (s.intEn = true →
        storeHolds t.txo (s.offInt s.txBodyLen.toNat)
          (s.hash (t.memRead .txo s.offCmd (s.hashLen s.txBodyLen.toNat)))) ∧
      storeHolds t.txo (s.offCtl s.txBodyLen.toNat) (fieldBytes s.params.byteOrder s.wCtl s.txCtl)

/-- 42_encoder.md R145, the source's round-trip property, without noise before the frame and with reset detection off: the
bytes ENCODE leaves in TXO, fed back one by one from N = 0, give no event but the last byte's EV_DISPATCH, with the original
command, body and control value. A body or timestamp byte that was never written is the free value its store holds (log 5). -/
def Obligations.EncodedFrameIsDispatchedOnce : Prop :=
  ∀ (s : State) (i : Nat) (hid : BitVec 16), s.Inv → s.encodes → s.n = 0 → s.rstEn = false → s.wedge = false →
    s.txBodyLen.toNat < 2 ^ (8 * s.wLen) → (s.exactEn = true → s.txBodyLen = s.lenExact) →
    (s.maxEn = true → s.txBodyLen.toNat ≤ s.lenMax.toNat) → s.txCmd.toNat < 2 ^ (8 * s.wCmd) →
    (s.wCtl = 0 ∨ s.txCtl.toNat < 2 ^ (8 * s.wCtl)) → s.lookup s.txCmd = some (i, hid) →
    ∃ t u, exec .encode s = .next t ∧
      feedAll (t.memRead .txo 0 (s.total s.txBodyLen.toNat)) t =
        some (List.replicate (s.total s.txBodyLen.toNat - 1) none ++
          [some (.dispatch
            { hid := hid
              index := BitVec.ofNat 8 i
              codeVal := s.txCmd
              tsOff := BitVec.ofNat 16 s.offTs
              ts := t.memRead .txo s.offTs s.wTs
              bodyLen := s.txBodyLen
              bodyOff := BitVec.ofNat 16 s.hdr
              body := s.memRead .txb 0 s.txBodyLen.toNat
              ctl := if s.wCtl = 0 then 0 else s.txCtl
              user := s.user })], u) ∧
      u.n = 0

/-- 42_encoder.md R139: the result, what stays, and that a second ENCODE with the same operands gives the same bytes but for
the timestamp bytes of a source and the integrity bytes that depend on them. TS_SRC's bytes and draws are used up (log 4); an
unwritten byte keeps the free value it holds (log 5). -/
def Obligations.SecondEncodeGivesTheSameFrame : Prop :=
  ∀ s : State, s.encodes → s.cfgLegal = true →
    ∃ t u, exec .encode s = .next t ∧ exec .encode t = .next u ∧
      t = { s with txo := t.txo, txLen := BitVec.ofNat 16 (s.total s.txBodyLen.toNat),
                   resp := ⟨BitVec.ofNat 32 (s.total s.txBodyLen.toNat), none⟩, tsIn := t.tsIn, draws := t.draws } ∧
      s.total s.txBodyLen.toNat < 2 ^ 16 ∧
      (∀ x, s.total s.txBodyLen.toNat ≤ x → storeGet t.txo x = storeGet s.txo x) ∧
      (∀ x, ¬ (s.tsEn = true ∧ s.offTs ≤ x ∧ x < s.offLen) →
        ¬ (s.tsEn = true ∧ s.intEn = true ∧ s.offInt s.txBodyLen.toNat ≤ x ∧ x < s.offCtl s.txBodyLen.toNat) →
        storeGet u.txo x = storeGet t.txo x ∧ u.memRead .txo x 1 = t.memRead .txo x 1)

/-! ### Who reads and writes the stores -/

/-- 10_state.md R23, R37: of all instructions only FEED changes BUF, only TXWR changes TXB, only ENCODE changes TXO, and none
changes what an unwritten byte holds (log 5). -/
def Obligations.OnlyTheirOwnersChangeTheStores : Prop :=
  ∀ (i : Instr) (s t : State), exec i s = .next t →
    ((∀ b, i ≠ .feed b) → t.buf = s.buf) ∧ ((∀ j b, i ≠ .txwr j b) → t.txb = s.txb) ∧ (i ≠ .encode → t.txo = s.txo) ∧
    ∀ k, t.held k = s.held k

/-- 10_state.md R23, R37, 20_memory.md R50: of all instructions only FEED reads BUF, only ENCODE reads TXB, and only TXRD and
ENCODE read TXO: any other instruction does the same with other contents of the store. TXWR, which writes TXB, answers the same
and does the same to everything else. -/
def Obligations.OnlyTheirOwnersReadTheStores : Prop :=
  ∀ (i : Instr) (s t : State) (m : Store), exec i s = .next t →
    ((∀ b, i ≠ .feed b) → exec i { s with buf := m } = .next { t with buf := m }) ∧
    (i ≠ .encode → ∃ m', exec i { s with txb := m } = .next { t with txb := m' } ∧ ((∀ j b, i ≠ .txwr j b) → m' = m)) ∧
    (i ≠ .encode → (∀ j, i ≠ .txrd j) → exec i { s with txo := m } = .next { t with txo := m })
end

