-- ==== Sys2Proof/Laws/State.lean ====
section
/-! SUPPORT. One lemma per field of State per shared update: what the update leaves alone, and what it writes. -/

namespace Sys2Proof.Machine

/-! ### raise -/

@[simp] theorem raise_params (s : State) (f : Flag) : (s.raise f).params = s.params := rfl
@[simp] theorem raise_inputs (s : State) (f : Flag) : (s.raise f).inputs = s.inputs := rfl
@[simp] theorem raise_resp (s : State) (f : Flag) : (s.raise f).resp = s.resp := rfl
@[simp] theorem raise_codec (s : State) (f : Flag) : (s.raise f).codec = s.codec := rfl
@[simp] theorem raise_tsIn (s : State) (f : Flag) : (s.raise f).tsIn = s.tsIn := rfl
@[simp] theorem raise_draws (s : State) (f : Flag) : (s.raise f).draws = s.draws := rfl
@[simp] theorem raise_resets (s : State) (f : Flag) : (s.raise f).resets = s.resets := rfl
@[simp] theorem raise_n (s : State) (f : Flag) : (s.raise f).n = s.n := rfl
@[simp] theorem raise_bodyLen (s : State) (f : Flag) : (s.raise f).bodyLen = s.bodyLen := rfl
@[simp] theorem raise_rstRun (s : State) (f : Flag) : (s.raise f).rstRun = s.rstRun := rfl
@[simp] theorem raise_buf (s : State) (f : Flag) : (s.raise f).buf = s.buf := rfl
@[simp] theorem raise_en (s : State) (f : Flag) : (s.raise f).en = s.en := rfl
@[simp] theorem raise_status (s : State) (f : Flag) : (s.raise f).status = s.status ||| f.mask := rfl
@[simp] theorem raise_width0 (s : State) (f : Flag) : (s.raise f).width0 = s.width0 := rfl
@[simp] theorem raise_width1 (s : State) (f : Flag) : (s.raise f).width1 = s.width1 := rfl
@[simp] theorem raise_feat (s : State) (f : Flag) : (s.raise f).feat = s.feat := rfl
@[simp] theorem raise_rstseq (s : State) (f : Flag) : (s.raise f).rstseq = s.rstseq := rfl
@[simp] theorem raise_lenExact (s : State) (f : Flag) : (s.raise f).lenExact = s.lenExact := rfl
@[simp] theorem raise_lenMax (s : State) (f : Flag) : (s.raise f).lenMax = s.lenMax := rfl
@[simp] theorem raise_user (s : State) (f : Flag) : (s.raise f).user = s.user := rfl
@[simp] theorem raise_fs (s : State) (f : Flag) : (s.raise f).fs = s.fs := rfl
@[simp] theorem raise_ct (s : State) (f : Flag) : (s.raise f).ct = s.ct := rfl
@[simp] theorem raise_txCmd (s : State) (f : Flag) : (s.raise f).txCmd = s.txCmd := rfl
@[simp] theorem raise_txCtl (s : State) (f : Flag) : (s.raise f).txCtl = s.txCtl := rfl
@[simp] theorem raise_txBodyLen (s : State) (f : Flag) : (s.raise f).txBodyLen = s.txBodyLen := rfl
@[simp] theorem raise_txArgs (s : State) (f : Flag) : (s.raise f).txArgs = s.txArgs := rfl
@[simp] theorem raise_txLen (s : State) (f : Flag) : (s.raise f).txLen = s.txLen := rfl
@[simp] theorem raise_txb (s : State) (f : Flag) : (s.raise f).txb = s.txb := rfl
@[simp] theorem raise_txo (s : State) (f : Flag) : (s.raise f).txo = s.txo := rfl

/-! ### clearFlags -/

@[simp] theorem clearFlags_params (s : State) (v : Word) : (s.clearFlags v).params = s.params := rfl
@[simp] theorem clearFlags_inputs (s : State) (v : Word) : (s.clearFlags v).inputs = s.inputs := rfl
@[simp] theorem clearFlags_resp (s : State) (v : Word) : (s.clearFlags v).resp = s.resp := rfl
@[simp] theorem clearFlags_codec (s : State) (v : Word) : (s.clearFlags v).codec = s.codec := rfl
@[simp] theorem clearFlags_tsIn (s : State) (v : Word) : (s.clearFlags v).tsIn = s.tsIn := rfl
@[simp] theorem clearFlags_draws (s : State) (v : Word) : (s.clearFlags v).draws = s.draws := rfl
@[simp] theorem clearFlags_resets (s : State) (v : Word) : (s.clearFlags v).resets = s.resets := rfl
@[simp] theorem clearFlags_n (s : State) (v : Word) : (s.clearFlags v).n = s.n := rfl
@[simp] theorem clearFlags_bodyLen (s : State) (v : Word) : (s.clearFlags v).bodyLen = s.bodyLen := rfl
@[simp] theorem clearFlags_rstRun (s : State) (v : Word) : (s.clearFlags v).rstRun = s.rstRun := rfl
@[simp] theorem clearFlags_buf (s : State) (v : Word) : (s.clearFlags v).buf = s.buf := rfl
@[simp] theorem clearFlags_en (s : State) (v : Word) : (s.clearFlags v).en = s.en := rfl
@[simp] theorem clearFlags_status (s : State) (v : Word) : (s.clearFlags v).status = s.status &&& ~~~ (v.extractLsb' 0 3) := rfl
@[simp] theorem clearFlags_width0 (s : State) (v : Word) : (s.clearFlags v).width0 = s.width0 := rfl
@[simp] theorem clearFlags_width1 (s : State) (v : Word) : (s.clearFlags v).width1 = s.width1 := rfl
@[simp] theorem clearFlags_feat (s : State) (v : Word) : (s.clearFlags v).feat = s.feat := rfl
@[simp] theorem clearFlags_rstseq (s : State) (v : Word) : (s.clearFlags v).rstseq = s.rstseq := rfl
@[simp] theorem clearFlags_lenExact (s : State) (v : Word) : (s.clearFlags v).lenExact = s.lenExact := rfl
@[simp] theorem clearFlags_lenMax (s : State) (v : Word) : (s.clearFlags v).lenMax = s.lenMax := rfl
@[simp] theorem clearFlags_user (s : State) (v : Word) : (s.clearFlags v).user = s.user := rfl
@[simp] theorem clearFlags_fs (s : State) (v : Word) : (s.clearFlags v).fs = s.fs := rfl
@[simp] theorem clearFlags_ct (s : State) (v : Word) : (s.clearFlags v).ct = s.ct := rfl
@[simp] theorem clearFlags_txCmd (s : State) (v : Word) : (s.clearFlags v).txCmd = s.txCmd := rfl
@[simp] theorem clearFlags_txCtl (s : State) (v : Word) : (s.clearFlags v).txCtl = s.txCtl := rfl
@[simp] theorem clearFlags_txBodyLen (s : State) (v : Word) : (s.clearFlags v).txBodyLen = s.txBodyLen := rfl
@[simp] theorem clearFlags_txArgs (s : State) (v : Word) : (s.clearFlags v).txArgs = s.txArgs := rfl
@[simp] theorem clearFlags_txLen (s : State) (v : Word) : (s.clearFlags v).txLen = s.txLen := rfl
@[simp] theorem clearFlags_txb (s : State) (v : Word) : (s.clearFlags v).txb = s.txb := rfl
@[simp] theorem clearFlags_txo (s : State) (v : Word) : (s.clearFlags v).txo = s.txo := rfl

/-! ### respond -/

@[simp] theorem respond_params (s : State) (v : Word) : (s.respond v).params = s.params := rfl
@[simp] theorem respond_inputs (s : State) (v : Word) : (s.respond v).inputs = s.inputs := rfl
@[simp] theorem respond_resp (s : State) (v : Word) : (s.respond v).resp = ⟨v, none⟩ := rfl
@[simp] theorem respond_codec (s : State) (v : Word) : (s.respond v).codec = s.codec := rfl
@[simp] theorem respond_tsIn (s : State) (v : Word) : (s.respond v).tsIn = s.tsIn := rfl
@[simp] theorem respond_draws (s : State) (v : Word) : (s.respond v).draws = s.draws := rfl
@[simp] theorem respond_resets (s : State) (v : Word) : (s.respond v).resets = s.resets := rfl
@[simp] theorem respond_n (s : State) (v : Word) : (s.respond v).n = s.n := rfl
@[simp] theorem respond_bodyLen (s : State) (v : Word) : (s.respond v).bodyLen = s.bodyLen := rfl
@[simp] theorem respond_rstRun (s : State) (v : Word) : (s.respond v).rstRun = s.rstRun := rfl
@[simp] theorem respond_buf (s : State) (v : Word) : (s.respond v).buf = s.buf := rfl
@[simp] theorem respond_en (s : State) (v : Word) : (s.respond v).en = s.en := rfl
@[simp] theorem respond_status (s : State) (v : Word) : (s.respond v).status = s.status := rfl
@[simp] theorem respond_width0 (s : State) (v : Word) : (s.respond v).width0 = s.width0 := rfl
@[simp] theorem respond_width1 (s : State) (v : Word) : (s.respond v).width1 = s.width1 := rfl
@[simp] theorem respond_feat (s : State) (v : Word) : (s.respond v).feat = s.feat := rfl
@[simp] theorem respond_rstseq (s : State) (v : Word) : (s.respond v).rstseq = s.rstseq := rfl
@[simp] theorem respond_lenExact (s : State) (v : Word) : (s.respond v).lenExact = s.lenExact := rfl
@[simp] theorem respond_lenMax (s : State) (v : Word) : (s.respond v).lenMax = s.lenMax := rfl
@[simp] theorem respond_user (s : State) (v : Word) : (s.respond v).user = s.user := rfl
@[simp] theorem respond_fs (s : State) (v : Word) : (s.respond v).fs = s.fs := rfl
@[simp] theorem respond_ct (s : State) (v : Word) : (s.respond v).ct = s.ct := rfl
@[simp] theorem respond_txCmd (s : State) (v : Word) : (s.respond v).txCmd = s.txCmd := rfl
@[simp] theorem respond_txCtl (s : State) (v : Word) : (s.respond v).txCtl = s.txCtl := rfl
@[simp] theorem respond_txBodyLen (s : State) (v : Word) : (s.respond v).txBodyLen = s.txBodyLen := rfl
@[simp] theorem respond_txArgs (s : State) (v : Word) : (s.respond v).txArgs = s.txArgs := rfl
@[simp] theorem respond_txLen (s : State) (v : Word) : (s.respond v).txLen = s.txLen := rfl
@[simp] theorem respond_txb (s : State) (v : Word) : (s.respond v).txb = s.txb := rfl
@[simp] theorem respond_txo (s : State) (v : Word) : (s.respond v).txo = s.txo := rfl

/-! ### emit -/

@[simp] theorem emit_params (s : State) (e : Event) : (s.emit e).params = s.params := rfl
@[simp] theorem emit_inputs (s : State) (e : Event) : (s.emit e).inputs = s.inputs := rfl
@[simp] theorem emit_resp (s : State) (e : Event) : (s.emit e).resp = { s.resp with event := some e } := rfl
@[simp] theorem emit_codec (s : State) (e : Event) : (s.emit e).codec = s.codec := rfl
@[simp] theorem emit_tsIn (s : State) (e : Event) : (s.emit e).tsIn = s.tsIn := rfl
@[simp] theorem emit_draws (s : State) (e : Event) : (s.emit e).draws = s.draws := rfl
@[simp] theorem emit_resets (s : State) (e : Event) : (s.emit e).resets = s.resets := rfl
@[simp] theorem emit_n (s : State) (e : Event) : (s.emit e).n = s.n := rfl
@[simp] theorem emit_bodyLen (s : State) (e : Event) : (s.emit e).bodyLen = s.bodyLen := rfl
@[simp] theorem emit_rstRun (s : State) (e : Event) : (s.emit e).rstRun = s.rstRun := rfl
@[simp] theorem emit_buf (s : State) (e : Event) : (s.emit e).buf = s.buf := rfl
@[simp] theorem emit_en (s : State) (e : Event) : (s.emit e).en = s.en := rfl
@[simp] theorem emit_status (s : State) (e : Event) : (s.emit e).status = s.status := rfl
@[simp] theorem emit_width0 (s : State) (e : Event) : (s.emit e).width0 = s.width0 := rfl
@[simp] theorem emit_width1 (s : State) (e : Event) : (s.emit e).width1 = s.width1 := rfl
@[simp] theorem emit_feat (s : State) (e : Event) : (s.emit e).feat = s.feat := rfl
@[simp] theorem emit_rstseq (s : State) (e : Event) : (s.emit e).rstseq = s.rstseq := rfl
@[simp] theorem emit_lenExact (s : State) (e : Event) : (s.emit e).lenExact = s.lenExact := rfl
@[simp] theorem emit_lenMax (s : State) (e : Event) : (s.emit e).lenMax = s.lenMax := rfl
@[simp] theorem emit_user (s : State) (e : Event) : (s.emit e).user = s.user := rfl
@[simp] theorem emit_fs (s : State) (e : Event) : (s.emit e).fs = s.fs := rfl
@[simp] theorem emit_ct (s : State) (e : Event) : (s.emit e).ct = s.ct := rfl
@[simp] theorem emit_txCmd (s : State) (e : Event) : (s.emit e).txCmd = s.txCmd := rfl
@[simp] theorem emit_txCtl (s : State) (e : Event) : (s.emit e).txCtl = s.txCtl := rfl
@[simp] theorem emit_txBodyLen (s : State) (e : Event) : (s.emit e).txBodyLen = s.txBodyLen := rfl
@[simp] theorem emit_txArgs (s : State) (e : Event) : (s.emit e).txArgs = s.txArgs := rfl
@[simp] theorem emit_txLen (s : State) (e : Event) : (s.emit e).txLen = s.txLen := rfl
@[simp] theorem emit_txb (s : State) (e : Event) : (s.emit e).txb = s.txb := rfl
@[simp] theorem emit_txo (s : State) (e : Event) : (s.emit e).txo = s.txo := rfl

/-! ### zeroProgress -/

@[simp] theorem zeroProgress_params (s : State)  : (s.zeroProgress).params = s.params := rfl
@[simp] theorem zeroProgress_inputs (s : State)  : (s.zeroProgress).inputs = s.inputs := rfl
@[simp] theorem zeroProgress_resp (s : State)  : (s.zeroProgress).resp = s.resp := rfl
@[simp] theorem zeroProgress_codec (s : State)  : (s.zeroProgress).codec = s.codec := rfl
@[simp] theorem zeroProgress_tsIn (s : State)  : (s.zeroProgress).tsIn = s.tsIn := rfl
@[simp] theorem zeroProgress_draws (s : State)  : (s.zeroProgress).draws = s.draws := rfl
@[simp] theorem zeroProgress_resets (s : State)  : (s.zeroProgress).resets = s.resets := rfl
@[simp] theorem zeroProgress_n (s : State)  : (s.zeroProgress).n = 0 := rfl
@[simp] theorem zeroProgress_bodyLen (s : State)  : (s.zeroProgress).bodyLen = 0 := rfl
@[simp] theorem zeroProgress_rstRun (s : State)  : (s.zeroProgress).rstRun = 0 := rfl
@[simp] theorem zeroProgress_buf (s : State)  : (s.zeroProgress).buf = s.buf := rfl
@[simp] theorem zeroProgress_en (s : State)  : (s.zeroProgress).en = s.en := rfl
@[simp] theorem zeroProgress_status (s : State)  : (s.zeroProgress).status = s.status := rfl
@[simp] theorem zeroProgress_width0 (s : State)  : (s.zeroProgress).width0 = s.width0 := rfl
@[simp] theorem zeroProgress_width1 (s : State)  : (s.zeroProgress).width1 = s.width1 := rfl
@[simp] theorem zeroProgress_feat (s : State)  : (s.zeroProgress).feat = s.feat := rfl
@[simp] theorem zeroProgress_rstseq (s : State)  : (s.zeroProgress).rstseq = s.rstseq := rfl
@[simp] theorem zeroProgress_lenExact (s : State)  : (s.zeroProgress).lenExact = s.lenExact := rfl
@[simp] theorem zeroProgress_lenMax (s : State)  : (s.zeroProgress).lenMax = s.lenMax := rfl
@[simp] theorem zeroProgress_user (s : State)  : (s.zeroProgress).user = s.user := rfl
@[simp] theorem zeroProgress_fs (s : State)  : (s.zeroProgress).fs = s.fs := rfl
@[simp] theorem zeroProgress_ct (s : State)  : (s.zeroProgress).ct = s.ct := rfl
@[simp] theorem zeroProgress_txCmd (s : State)  : (s.zeroProgress).txCmd = s.txCmd := rfl
@[simp] theorem zeroProgress_txCtl (s : State)  : (s.zeroProgress).txCtl = s.txCtl := rfl
@[simp] theorem zeroProgress_txBodyLen (s : State)  : (s.zeroProgress).txBodyLen = s.txBodyLen := rfl
@[simp] theorem zeroProgress_txArgs (s : State)  : (s.zeroProgress).txArgs = s.txArgs := rfl
@[simp] theorem zeroProgress_txLen (s : State)  : (s.zeroProgress).txLen = s.txLen := rfl
@[simp] theorem zeroProgress_txb (s : State)  : (s.zeroProgress).txb = s.txb := rfl
@[simp] theorem zeroProgress_txo (s : State)  : (s.zeroProgress).txo = s.txo := rfl

/-! ### afterTs -/

@[simp] theorem afterTs_params (s : State) (k : Nat) : (s.afterTs k).params = s.params := rfl
@[simp] theorem afterTs_inputs (s : State) (k : Nat) : (s.afterTs k).inputs = s.inputs := rfl
@[simp] theorem afterTs_resp (s : State) (k : Nat) : (s.afterTs k).resp = s.resp := rfl
@[simp] theorem afterTs_codec (s : State) (k : Nat) : (s.afterTs k).codec = s.codec := rfl
@[simp] theorem afterTs_tsIn (s : State) (k : Nat) : (s.afterTs k).tsIn = s.tsIn.drop k := rfl
@[simp] theorem afterTs_resets (s : State) (k : Nat) : (s.afterTs k).resets = s.resets := rfl
@[simp] theorem afterTs_draws (s : State) (k : Nat) : (s.afterTs k).draws = s.draws + (k - s.tsIn.length) := rfl
@[simp] theorem afterTs_n (s : State) (k : Nat) : (s.afterTs k).n = s.n := rfl
@[simp] theorem afterTs_bodyLen (s : State) (k : Nat) : (s.afterTs k).bodyLen = s.bodyLen := rfl
@[simp] theorem afterTs_rstRun (s : State) (k : Nat) : (s.afterTs k).rstRun = s.rstRun := rfl
@[simp] theorem afterTs_buf (s : State) (k : Nat) : (s.afterTs k).buf = s.buf := rfl
@[simp] theorem afterTs_en (s : State) (k : Nat) : (s.afterTs k).en = s.en := rfl
@[simp] theorem afterTs_status (s : State) (k : Nat) : (s.afterTs k).status = s.status := rfl
@[simp] theorem afterTs_width0 (s : State) (k : Nat) : (s.afterTs k).width0 = s.width0 := rfl
@[simp] theorem afterTs_width1 (s : State) (k : Nat) : (s.afterTs k).width1 = s.width1 := rfl
@[simp] theorem afterTs_feat (s : State) (k : Nat) : (s.afterTs k).feat = s.feat := rfl
@[simp] theorem afterTs_rstseq (s : State) (k : Nat) : (s.afterTs k).rstseq = s.rstseq := rfl
@[simp] theorem afterTs_lenExact (s : State) (k : Nat) : (s.afterTs k).lenExact = s.lenExact := rfl
@[simp] theorem afterTs_lenMax (s : State) (k : Nat) : (s.afterTs k).lenMax = s.lenMax := rfl
@[simp] theorem afterTs_user (s : State) (k : Nat) : (s.afterTs k).user = s.user := rfl
@[simp] theorem afterTs_fs (s : State) (k : Nat) : (s.afterTs k).fs = s.fs := rfl
@[simp] theorem afterTs_ct (s : State) (k : Nat) : (s.afterTs k).ct = s.ct := rfl
@[simp] theorem afterTs_txCmd (s : State) (k : Nat) : (s.afterTs k).txCmd = s.txCmd := rfl
@[simp] theorem afterTs_txCtl (s : State) (k : Nat) : (s.afterTs k).txCtl = s.txCtl := rfl
@[simp] theorem afterTs_txBodyLen (s : State) (k : Nat) : (s.afterTs k).txBodyLen = s.txBodyLen := rfl
@[simp] theorem afterTs_txArgs (s : State) (k : Nat) : (s.afterTs k).txArgs = s.txArgs := rfl
@[simp] theorem afterTs_txLen (s : State) (k : Nat) : (s.afterTs k).txLen = s.txLen := rfl
@[simp] theorem afterTs_txb (s : State) (k : Nat) : (s.afterTs k).txb = s.txb := rfl
@[simp] theorem afterTs_txo (s : State) (k : Nat) : (s.afterTs k).txo = s.txo := rfl

/-! ### withStore -/

@[simp] theorem withStore_params (s : State) (k : StoreId) (m : Store) : (s.withStore k m).params = s.params := by cases k <;> rfl
@[simp] theorem withStore_inputs (s : State) (k : StoreId) (m : Store) : (s.withStore k m).inputs = s.inputs := by cases k <;> rfl
@[simp] theorem withStore_resp (s : State) (k : StoreId) (m : Store) : (s.withStore k m).resp = s.resp := by cases k <;> rfl
@[simp] theorem withStore_codec (s : State) (k : StoreId) (m : Store) : (s.withStore k m).codec = s.codec := by cases k <;> rfl
@[simp] theorem withStore_tsIn (s : State) (k : StoreId) (m : Store) : (s.withStore k m).tsIn = s.tsIn := by cases k <;> rfl
@[simp] theorem withStore_draws (s : State) (k : StoreId) (m : Store) : (s.withStore k m).draws = s.draws := by cases k <;> rfl
@[simp] theorem withStore_resets (s : State) (k : StoreId) (m : Store) : (s.withStore k m).resets = s.resets := by cases k <;> rfl
@[simp] theorem withStore_n (s : State) (k : StoreId) (m : Store) : (s.withStore k m).n = s.n := by cases k <;> rfl
@[simp] theorem withStore_bodyLen (s : State) (k : StoreId) (m : Store) : (s.withStore k m).bodyLen = s.bodyLen := by cases k <;> rfl
@[simp] theorem withStore_rstRun (s : State) (k : StoreId) (m : Store) : (s.withStore k m).rstRun = s.rstRun := by cases k <;> rfl
@[simp] theorem withStore_en (s : State) (k : StoreId) (m : Store) : (s.withStore k m).en = s.en := by cases k <;> rfl
@[simp] theorem withStore_status (s : State) (k : StoreId) (m : Store) : (s.withStore k m).status = s.status := by cases k <;> rfl
@[simp] theorem withStore_width0 (s : State) (k : StoreId) (m : Store) : (s.withStore k m).width0 = s.width0 := by cases k <;> rfl
@[simp] theorem withStore_width1 (s : State) (k : StoreId) (m : Store) : (s.withStore k m).width1 = s.width1 := by cases k <;> rfl
@[simp] theorem withStore_feat (s : State) (k : StoreId) (m : Store) : (s.withStore k m).feat = s.feat := by cases k <;> rfl
@[simp] theorem withStore_rstseq (s : State) (k : StoreId) (m : Store) : (s.withStore k m).rstseq = s.rstseq := by cases k <;> rfl
@[simp] theorem withStore_lenExact (s : State) (k : StoreId) (m : Store) : (s.withStore k m).lenExact = s.lenExact := by cases k <;> rfl
@[simp] theorem withStore_lenMax (s : State) (k : StoreId) (m : Store) : (s.withStore k m).lenMax = s.lenMax := by cases k <;> rfl
@[simp] theorem withStore_user (s : State) (k : StoreId) (m : Store) : (s.withStore k m).user = s.user := by cases k <;> rfl
@[simp] theorem withStore_fs (s : State) (k : StoreId) (m : Store) : (s.withStore k m).fs = s.fs := by cases k <;> rfl
@[simp] theorem withStore_ct (s : State) (k : StoreId) (m : Store) : (s.withStore k m).ct = s.ct := by cases k <;> rfl
@[simp] theorem withStore_txCmd (s : State) (k : StoreId) (m : Store) : (s.withStore k m).txCmd = s.txCmd := by cases k <;> rfl
@[simp] theorem withStore_txCtl (s : State) (k : StoreId) (m : Store) : (s.withStore k m).txCtl = s.txCtl := by cases k <;> rfl
@[simp] theorem withStore_txBodyLen (s : State) (k : StoreId) (m : Store) : (s.withStore k m).txBodyLen = s.txBodyLen := by cases k <;> rfl
@[simp] theorem withStore_txArgs (s : State) (k : StoreId) (m : Store) : (s.withStore k m).txArgs = s.txArgs := by cases k <;> rfl
@[simp] theorem withStore_txLen (s : State) (k : StoreId) (m : Store) : (s.withStore k m).txLen = s.txLen := by cases k <;> rfl

/-! ### memWrite -/

@[simp] theorem memWrite_params (s : State) (k : StoreId) (a : Nat) (bs : List Byte) : (s.memWrite k a bs).params = s.params := by cases k <;> rfl
@[simp] theorem memWrite_inputs (s : State) (k : StoreId) (a : Nat) (bs : List Byte) : (s.memWrite k a bs).inputs = s.inputs := by cases k <;> rfl
@[simp] theorem memWrite_resp (s : State) (k : StoreId) (a : Nat) (bs : List Byte) : (s.memWrite k a bs).resp = s.resp := by cases k <;> rfl
@[simp] theorem memWrite_codec (s : State) (k : StoreId) (a : Nat) (bs : List Byte) : (s.memWrite k a bs).codec = s.codec := by cases k <;> rfl
@[simp] theorem memWrite_tsIn (s : State) (k : StoreId) (a : Nat) (bs : List Byte) : (s.memWrite k a bs).tsIn = s.tsIn := by cases k <;> rfl
@[simp] theorem memWrite_draws (s : State) (k : StoreId) (a : Nat) (bs : List Byte) : (s.memWrite k a bs).draws = s.draws := by cases k <;> rfl
@[simp] theorem memWrite_resets (s : State) (k : StoreId) (a : Nat) (bs : List Byte) : (s.memWrite k a bs).resets = s.resets := by cases k <;> rfl
@[simp] theorem memWrite_n (s : State) (k : StoreId) (a : Nat) (bs : List Byte) : (s.memWrite k a bs).n = s.n := by cases k <;> rfl
@[simp] theorem memWrite_bodyLen (s : State) (k : StoreId) (a : Nat) (bs : List Byte) : (s.memWrite k a bs).bodyLen = s.bodyLen := by cases k <;> rfl
@[simp] theorem memWrite_rstRun (s : State) (k : StoreId) (a : Nat) (bs : List Byte) : (s.memWrite k a bs).rstRun = s.rstRun := by cases k <;> rfl
@[simp] theorem memWrite_en (s : State) (k : StoreId) (a : Nat) (bs : List Byte) : (s.memWrite k a bs).en = s.en := by cases k <;> rfl
@[simp] theorem memWrite_status (s : State) (k : StoreId) (a : Nat) (bs : List Byte) : (s.memWrite k a bs).status = s.status := by cases k <;> rfl
@[simp] theorem memWrite_width0 (s : State) (k : StoreId) (a : Nat) (bs : List Byte) : (s.memWrite k a bs).width0 = s.width0 := by cases k <;> rfl
@[simp] theorem memWrite_width1 (s : State) (k : StoreId) (a : Nat) (bs : List Byte) : (s.memWrite k a bs).width1 = s.width1 := by cases k <;> rfl
@[simp] theorem memWrite_feat (s : State) (k : StoreId) (a : Nat) (bs : List Byte) : (s.memWrite k a bs).feat = s.feat := by cases k <;> rfl
@[simp] theorem memWrite_rstseq (s : State) (k : StoreId) (a : Nat) (bs : List Byte) : (s.memWrite k a bs).rstseq = s.rstseq := by cases k <;> rfl
@[simp] theorem memWrite_lenExact (s : State) (k : StoreId) (a : Nat) (bs : List Byte) : (s.memWrite k a bs).lenExact = s.lenExact := by cases k <;> rfl
@[simp] theorem memWrite_lenMax (s : State) (k : StoreId) (a : Nat) (bs : List Byte) : (s.memWrite k a bs).lenMax = s.lenMax := by cases k <;> rfl
@[simp] theorem memWrite_user (s : State) (k : StoreId) (a : Nat) (bs : List Byte) : (s.memWrite k a bs).user = s.user := by cases k <;> rfl
@[simp] theorem memWrite_fs (s : State) (k : StoreId) (a : Nat) (bs : List Byte) : (s.memWrite k a bs).fs = s.fs := by cases k <;> rfl
@[simp] theorem memWrite_ct (s : State) (k : StoreId) (a : Nat) (bs : List Byte) : (s.memWrite k a bs).ct = s.ct := by cases k <;> rfl
@[simp] theorem memWrite_txCmd (s : State) (k : StoreId) (a : Nat) (bs : List Byte) : (s.memWrite k a bs).txCmd = s.txCmd := by cases k <;> rfl
@[simp] theorem memWrite_txCtl (s : State) (k : StoreId) (a : Nat) (bs : List Byte) : (s.memWrite k a bs).txCtl = s.txCtl := by cases k <;> rfl
@[simp] theorem memWrite_txBodyLen (s : State) (k : StoreId) (a : Nat) (bs : List Byte) : (s.memWrite k a bs).txBodyLen = s.txBodyLen := by cases k <;> rfl
@[simp] theorem memWrite_txArgs (s : State) (k : StoreId) (a : Nat) (bs : List Byte) : (s.memWrite k a bs).txArgs = s.txArgs := by cases k <;> rfl
@[simp] theorem memWrite_txLen (s : State) (k : StoreId) (a : Nat) (bs : List Byte) : (s.memWrite k a bs).txLen = s.txLen := by cases k <;> rfl

/-! ### putf -/

@[simp] theorem putf_params (s : State) (k : StoreId) (a : Nat) (v : Word) (w : Nat) : (s.putf k a v w).params = s.params := by cases k <;> rfl
@[simp] theorem putf_inputs (s : State) (k : StoreId) (a : Nat) (v : Word) (w : Nat) : (s.putf k a v w).inputs = s.inputs := by cases k <;> rfl
@[simp] theorem putf_resp (s : State) (k : StoreId) (a : Nat) (v : Word) (w : Nat) : (s.putf k a v w).resp = s.resp := by cases k <;> rfl
@[simp] theorem putf_codec (s : State) (k : StoreId) (a : Nat) (v : Word) (w : Nat) : (s.putf k a v w).codec = s.codec := by cases k <;> rfl
@[simp] theorem putf_tsIn (s : State) (k : StoreId) (a : Nat) (v : Word) (w : Nat) : (s.putf k a v w).tsIn = s.tsIn := by cases k <;> rfl
@[simp] theorem putf_draws (s : State) (k : StoreId) (a : Nat) (v : Word) (w : Nat) : (s.putf k a v w).draws = s.draws := by cases k <;> rfl
@[simp] theorem putf_resets (s : State) (k : StoreId) (a : Nat) (v : Word) (w : Nat) : (s.putf k a v w).resets = s.resets := by cases k <;> rfl
@[simp] theorem putf_n (s : State) (k : StoreId) (a : Nat) (v : Word) (w : Nat) : (s.putf k a v w).n = s.n := by cases k <;> rfl
@[simp] theorem putf_bodyLen (s : State) (k : StoreId) (a : Nat) (v : Word) (w : Nat) : (s.putf k a v w).bodyLen = s.bodyLen := by cases k <;> rfl
@[simp] theorem putf_rstRun (s : State) (k : StoreId) (a : Nat) (v : Word) (w : Nat) : (s.putf k a v w).rstRun = s.rstRun := by cases k <;> rfl
@[simp] theorem putf_en (s : State) (k : StoreId) (a : Nat) (v : Word) (w : Nat) : (s.putf k a v w).en = s.en := by cases k <;> rfl
@[simp] theorem putf_status (s : State) (k : StoreId) (a : Nat) (v : Word) (w : Nat) : (s.putf k a v w).status = s.status := by cases k <;> rfl
@[simp] theorem putf_width0 (s : State) (k : StoreId) (a : Nat) (v : Word) (w : Nat) : (s.putf k a v w).width0 = s.width0 := by cases k <;> rfl
@[simp] theorem putf_width1 (s : State) (k : StoreId) (a : Nat) (v : Word) (w : Nat) : (s.putf k a v w).width1 = s.width1 := by cases k <;> rfl
@[simp] theorem putf_feat (s : State) (k : StoreId) (a : Nat) (v : Word) (w : Nat) : (s.putf k a v w).feat = s.feat := by cases k <;> rfl
@[simp] theorem putf_rstseq (s : State) (k : StoreId) (a : Nat) (v : Word) (w : Nat) : (s.putf k a v w).rstseq = s.rstseq := by cases k <;> rfl
@[simp] theorem putf_lenExact (s : State) (k : StoreId) (a : Nat) (v : Word) (w : Nat) : (s.putf k a v w).lenExact = s.lenExact := by cases k <;> rfl
@[simp] theorem putf_lenMax (s : State) (k : StoreId) (a : Nat) (v : Word) (w : Nat) : (s.putf k a v w).lenMax = s.lenMax := by cases k <;> rfl
@[simp] theorem putf_user (s : State) (k : StoreId) (a : Nat) (v : Word) (w : Nat) : (s.putf k a v w).user = s.user := by cases k <;> rfl
@[simp] theorem putf_fs (s : State) (k : StoreId) (a : Nat) (v : Word) (w : Nat) : (s.putf k a v w).fs = s.fs := by cases k <;> rfl
@[simp] theorem putf_ct (s : State) (k : StoreId) (a : Nat) (v : Word) (w : Nat) : (s.putf k a v w).ct = s.ct := by cases k <;> rfl
@[simp] theorem putf_txCmd (s : State) (k : StoreId) (a : Nat) (v : Word) (w : Nat) : (s.putf k a v w).txCmd = s.txCmd := by cases k <;> rfl
@[simp] theorem putf_txCtl (s : State) (k : StoreId) (a : Nat) (v : Word) (w : Nat) : (s.putf k a v w).txCtl = s.txCtl := by cases k <;> rfl
@[simp] theorem putf_txBodyLen (s : State) (k : StoreId) (a : Nat) (v : Word) (w : Nat) : (s.putf k a v w).txBodyLen = s.txBodyLen := by cases k <;> rfl
@[simp] theorem putf_txArgs (s : State) (k : StoreId) (a : Nat) (v : Word) (w : Nat) : (s.putf k a v w).txArgs = s.txArgs := by cases k <;> rfl
@[simp] theorem putf_txLen (s : State) (k : StoreId) (a : Nat) (v : Word) (w : Nat) : (s.putf k a v w).txLen = s.txLen := by cases k <;> rfl

/-! ### The stores after an update -/

@[simp] theorem withStore_store_self (s : State) (k : StoreId) (m : Store) : (s.withStore k m).store k = m := by
  cases k <;> rfl
theorem withStore_store_of_ne (s : State) (k j : StoreId) (m : Store) (h : j ≠ k) :
    (s.withStore k m).store j = s.store j := by
  cases k <;> cases j <;> first | rfl | exact absurd rfl h
@[simp] theorem memWrite_store_self (s : State) (k : StoreId) (a : Nat) (bs : List Byte) :
    (s.memWrite k a bs).store k = storeWrite (s.store k) a bs := withStore_store_self ..
theorem memWrite_store_of_ne (s : State) (k j : StoreId) (a : Nat) (bs : List Byte) (h : j ≠ k) :
    (s.memWrite k a bs).store j = s.store j := withStore_store_of_ne s k j _ h
@[simp] theorem store_buf (s : State) : s.store .buf = s.buf := rfl
@[simp] theorem store_txb (s : State) : s.store .txb = s.txb := rfl
@[simp] theorem store_txo (s : State) : s.store .txo = s.txo := rfl
@[simp] theorem memWrite_buf_buf (s : State) (a : Nat) (bs : List Byte) :
    (s.memWrite .buf a bs).buf = storeWrite s.buf a bs := rfl
@[simp] theorem memWrite_buf_txb (s : State) (a : Nat) (bs : List Byte) : (s.memWrite .buf a bs).txb = s.txb := rfl
@[simp] theorem memWrite_buf_txo (s : State) (a : Nat) (bs : List Byte) : (s.memWrite .buf a bs).txo = s.txo := rfl
@[simp] theorem memWrite_txb_buf (s : State) (a : Nat) (bs : List Byte) : (s.memWrite .txb a bs).buf = s.buf := rfl
@[simp] theorem memWrite_txb_txb (s : State) (a : Nat) (bs : List Byte) :
    (s.memWrite .txb a bs).txb = storeWrite s.txb a bs := rfl
@[simp] theorem memWrite_txb_txo (s : State) (a : Nat) (bs : List Byte) : (s.memWrite .txb a bs).txo = s.txo := rfl
@[simp] theorem memWrite_txo_buf (s : State) (a : Nat) (bs : List Byte) : (s.memWrite .txo a bs).buf = s.buf := rfl
@[simp] theorem memWrite_txo_txb (s : State) (a : Nat) (bs : List Byte) : (s.memWrite .txo a bs).txb = s.txb := rfl
@[simp] theorem memWrite_txo_txo (s : State) (a : Nat) (bs : List Byte) :
    (s.memWrite .txo a bs).txo = storeWrite s.txo a bs := rfl

end Sys2Proof.Machine
end

