-- ==== Sys2Proof/Laws/Memory.lean ====
section
/-! SUPPORT. The byte stores: reading after writing, the canonical form, and that every operation keeps it. -/

namespace Sys2Proof.Machine

/-! ### One byte -/

theorem storeGet_storePut_self (m : Store) (a : Nat) (b : Byte) : storeGet (storePut m a b) a = some b := by
  induction m with
  | nil => simp [storePut, storeGet]
  | cons p rest ih =>
    obtain ⟨k, c⟩ := p
    unfold storePut
    split
    · simp [storeGet]
    · split
      · simp [storeGet]
      · have hk : k ≠ a := fun h => by simp_all
        simp [storeGet, hk, ih]

theorem storeGet_storePut_of_ne (m : Store) (a x : Nat) (b : Byte) (h : x ≠ a) :
    storeGet (storePut m a b) x = storeGet m x := by
  induction m with
  | nil => simp [storePut, storeGet, Ne.symm h]
  | cons p rest ih =>
    obtain ⟨k, c⟩ := p
    unfold storePut
    split
    · simp [storeGet, Ne.symm h]
    · split
      next hk => subst hk; simp [storeGet, Ne.symm h]
      next => simp [storeGet, ih]

theorem storeGet_storePut (m : Store) (a x : Nat) (b : Byte) :
    storeGet (storePut m a b) x = if x = a then some b else storeGet m x := by
  split
  next h => subst h; exact storeGet_storePut_self ..
  next h => exact storeGet_storePut_of_ne _ _ _ _ h

/-! ### Sequences -/

/-- MemWrite sets exactly the bytes it names. -/
theorem storeGet_storeWrite (m : Store) (a x : Nat) (bs : List Byte) :
    storeGet (storeWrite m a bs) x = if a ≤ x ∧ x < a + bs.length then bs[x - a]? else storeGet m x := by
  induction bs generalizing m a with
  | nil => simp [storeWrite]
  | cons b rest ih =>
    rw [storeWrite, ih, storeGet_storePut]
    by_cases hx : x = a
    · subst hx; simp
    · by_cases h : a + 1 ≤ x ∧ x < a + 1 + rest.length
      · have h' : a ≤ x ∧ x < a + (b :: rest).length := by simp only [List.length_cons]; omega
        rw [if_pos h, if_pos h', show x - a = (x - (a + 1)) + 1 by omega, List.getElem?_cons_succ]
      · have h' : ¬(a ≤ x ∧ x < a + (b :: rest).length) := by simp only [List.length_cons]; omega
        rw [if_neg h, if_neg h', if_neg hx]

theorem storeGet_storeWrite_outside (m : Store) (a x : Nat) (bs : List Byte) (h : x < a ∨ a + bs.length ≤ x) :
    storeGet (storeWrite m a bs) x = storeGet m x := by
  rw [storeGet_storeWrite, if_neg (by omega)]

theorem storeGet_storeWrite_inside (m : Store) (a i : Nat) (bs : List Byte) (h : i < bs.length) :
    storeGet (storeWrite m a bs) (a + i) = some bs[i] := by
  rw [storeGet_storeWrite, if_pos (by omega), Nat.add_sub_cancel_left, List.getElem?_eq_getElem h]

@[simp] theorem storeWrite_nil (m : Store) (a : Nat) : storeWrite m a [] = m := rfl

@[simp] theorem storeRead_length (m : Store) (c : Nat → Byte) (a n : Nat) : (storeRead m c a n).length = n := by
  induction n generalizing a with
  | zero => rfl
  | succ n ih => simp [storeRead, ih]

theorem storeRead_getElem (m : Store) (c : Nat → Byte) (a n i : Nat) (h : i < (storeRead m c a n).length) :
    (storeRead m c a n)[i] = (storeGet m (a + i)).getD (c (a + i)) := by
  induction n generalizing a i with
  | zero => simp at h
  | succ n ih =>
    cases i with
    | zero => simp [storeRead]
    | succ i =>
      have h' : i < (storeRead m c (a + 1) n).length := by simpa using h
      simp only [storeRead, List.getElem_cons_succ]
      rw [ih (a + 1) i h', show a + 1 + i = a + (i + 1) by omega]

theorem storeRead_add (m : Store) (c : Nat → Byte) (a n k : Nat) :
    storeRead m c a (n + k) = storeRead m c a n ++ storeRead m c (a + n) k := by
  induction n generalizing a with
  | zero => simp [storeRead]
  | succ n ih => rw [Nat.succ_add, storeRead, ih, storeRead, List.cons_append, show a + 1 + n = a + (n + 1) by omega]

theorem storeWritten_iff (m : Store) (a n : Nat) :
    storeWritten m a n = true ↔ ∀ i, i < n → (storeGet m (a + i)).isSome = true := by
  induction n generalizing a with
  | zero => simp [storeWritten]
  | succ n ih =>
    simp only [storeWritten, Bool.and_eq_true, ih]
    constructor
    · rintro ⟨h0, h⟩ i hi
      cases i with
      | zero => exact h0
      | succ i => have := h i (by omega); rwa [show a + 1 + i = a + (i + 1) by omega] at this
    · intro h
      refine ⟨h 0 (by omega), fun i hi => ?_⟩
      have := h (i + 1) (by omega)
      rwa [show a + (i + 1) = a + 1 + i by omega] at this

theorem storeWritten_sub (m : Store) (a n b k : Nat) (h : storeWritten m a n = true) (h1 : a ≤ b) (h2 : b + k ≤ a + n) :
    storeWritten m b k = true := by
  rw [storeWritten_iff] at *
  intro i hi
  have := h (b - a + i) (by omega)
  rwa [show a + (b - a + i) = b + i by omega] at this

/-- A range that was written reads the same whatever the unwritten bytes hold. -/
theorem storeRead_of_written (m : Store) (c d : Nat → Byte) (a n : Nat) (h : storeWritten m a n = true) :
    storeRead m c a n = storeRead m d a n := by
  induction n generalizing a with
  | zero => rfl
  | succ n ih =>
    simp only [storeWritten, Bool.and_eq_true] at h
    obtain ⟨b, hb⟩ := Option.isSome_iff_exists.mp h.1
    simp [storeRead, hb, ih _ h.2]

/-- Two stores that agree on a range read the same there. -/
theorem storeRead_congr (m m' : Store) (c : Nat → Byte) (a n : Nat) (h : ∀ i, i < n → storeGet m (a + i) = storeGet m' (a + i)) :
    storeRead m c a n = storeRead m' c a n := by
  induction n generalizing a with
  | zero => rfl
  | succ n ih =>
    have h0 := h 0 (by omega)
    simp only [Nat.add_zero] at h0
    rw [storeRead, storeRead, h0, ih (a + 1) fun i hi => ?_]
    have := h (i + 1) (by omega)
    rwa [show a + (i + 1) = a + 1 + i by omega] at this

theorem storeRead_storeWrite_outside (m : Store) (c : Nat → Byte) (a b n : Nat) (bs : List Byte)
    (h : b + n ≤ a ∨ a + bs.length ≤ b) : storeRead (storeWrite m a bs) c b n = storeRead m c b n :=
  storeRead_congr _ _ _ _ _ fun i hi => storeGet_storeWrite_outside _ _ _ _ (by omega)

/-- Read after write: the bytes written. -/
theorem storeRead_storeWrite_self (m : Store) (c : Nat → Byte) (a : Nat) (bs : List Byte) :
    storeRead (storeWrite m a bs) c a bs.length = bs := by
  apply List.ext_getElem (by simp)
  intro i h1 h2
  rw [storeRead_getElem, storeGet_storeWrite_inside m a i bs h2]
  rfl

theorem storeWritten_storeWrite_self (m : Store) (a : Nat) (bs : List Byte) :
    storeWritten (storeWrite m a bs) a bs.length = true := by
  rw [storeWritten_iff]
  intro i hi
  simp [storeGet_storeWrite_inside m a i bs hi]

/-- Writing never makes a written byte unwritten. -/
theorem storeWritten_storeWrite (m : Store) (a b n : Nat) (bs : List Byte) (h : storeWritten m b n = true) :
    storeWritten (storeWrite m a bs) b n = true := by
  rw [storeWritten_iff] at *
  intro i hi
  rw [storeGet_storeWrite]
  split
  next hc => rw [List.getElem?_eq_getElem (by omega)]; rfl
  next => exact h i hi

/-! ### The canonical form -/

theorem wf_cons_iff (k : Nat) (c : Byte) (rest : Store) :
    Memory.wf ((k, c) :: rest) = true ↔ Memory.wf rest = true ∧ ∀ p ∈ rest, k < p.1 := by
  induction rest generalizing k c with
  | nil => simp [Memory.wf]
  | cons p rest ih =>
    obtain ⟨j, d⟩ := p
    simp only [Memory.wf, Bool.and_eq_true, decide_eq_true_eq]
    constructor
    · rintro ⟨hkj, hw⟩
      refine ⟨hw, ?_⟩
      intro q hq
      rcases List.mem_cons.mp hq with rfl | hq
      · exact hkj
      · exact Nat.lt_trans hkj (((ih j d).mp hw).2 q hq)
    · rintro ⟨hw, hlt⟩
      exact ⟨hlt _ (List.mem_cons_self ..), hw⟩

theorem mem_storePut (m : Store) (a : Nat) (b : Byte) (p : Host.Cell) (h : p ∈ storePut m a b) : p = (a, b) ∨ p ∈ m := by
  induction m with
  | nil => simpa [storePut] using h
  | cons q rest ih =>
    obtain ⟨k, c⟩ := q
    unfold storePut at h
    split at h
    · simpa using h
    · split at h
      · rcases List.mem_cons.mp h with h | h
        · exact .inl h
        · exact .inr (List.mem_cons_of_mem _ h)
      · rcases List.mem_cons.mp h with h | h
        · exact .inr (h ▸ List.mem_cons_self ..)
        · exact (ih h).imp_right (List.mem_cons_of_mem _)

theorem wf_storePut (m : Store) (a : Nat) (b : Byte) (h : Memory.wf m = true) : Memory.wf (storePut m a b) = true := by
  induction m with
  | nil => rfl
  | cons q rest ih =>
    obtain ⟨k, c⟩ := q
    obtain ⟨hr, hlt⟩ := (wf_cons_iff k c rest).mp h
    unfold storePut
    split
    next hak =>
      refine (wf_cons_iff a b _).mpr ⟨h, fun p hp => ?_⟩
      rcases List.mem_cons.mp hp with rfl | hp
      · exact hak
      · exact Nat.lt_trans hak (hlt p hp)
    next hak =>
      split
      next hk => subst hk; exact (wf_cons_iff a b rest).mpr ⟨hr, hlt⟩
      next hk =>
        refine (wf_cons_iff k c _).mpr ⟨ih hr, fun p hp => ?_⟩
        rcases mem_storePut rest a b p hp with rfl | hp
        · simp only; omega
        · exact hlt p hp

theorem wf_storeWrite (m : Store) (a : Nat) (bs : List Byte) (h : Memory.wf m = true) :
    Memory.wf (storeWrite m a bs) = true := by
  induction bs generalizing m a with
  | nil => exact h
  | cons b rest ih => exact ih _ _ (wf_storePut m a b h)

theorem storeBelow_storePut (m : Store) (a c : Nat) (b : Byte) (h : storeBelow m c = true) (ha : a < c) :
    storeBelow (storePut m a b) c = true := by
  simp only [storeBelow, List.all_eq_true, decide_eq_true_eq] at *
  intro p hp
  rcases mem_storePut m a b p hp with rfl | hp
  · exact ha
  · exact h p hp

theorem storeBelow_storeWrite (m : Store) (a c : Nat) (bs : List Byte) (h : storeBelow m c = true)
    (ha : a + bs.length ≤ c) : storeBelow (storeWrite m a bs) c = true := by
  induction bs generalizing m a with
  | nil => exact h
  | cons b rest ih =>
    simp only [List.length_cons] at ha
    exact ih _ _ (storeBelow_storePut m a c b h (by omega)) (by omega)

theorem storeGet_none_of_lt (m : Store) (x : Nat) (h : ∀ p ∈ m, x < p.1) : storeGet m x = none := by
  induction m with
  | nil => rfl
  | cons p rest ih =>
    obtain ⟨k, c⟩ := p
    have hk : k ≠ x := Nat.ne_of_gt (h (k, c) (List.mem_cons_self ..))
    simp [storeGet, hk, ih fun q hq => h q (List.mem_cons_of_mem _ hq)]

/-- Stores in canonical form with the same contents are the same list. -/
theorem store_ext (m m' : Store) (h : Memory.wf m = true) (h' : Memory.wf m' = true)
    (hg : ∀ x, storeGet m x = storeGet m' x) : m = m' := by
  induction m generalizing m' with
  | nil =>
    cases m' with
    | nil => rfl
    | cons p rest => obtain ⟨k, c⟩ := p; simpa [storeGet] using hg k
  | cons p rest ih =>
    obtain ⟨k, c⟩ := p
    obtain ⟨hr, hlt⟩ := (wf_cons_iff k c rest).mp h
    cases m' with
    | nil => simpa [storeGet] using hg k
    | cons p' rest' =>
      obtain ⟨k', c'⟩ := p'
      obtain ⟨hr', hlt'⟩ := (wf_cons_iff k' c' rest').mp h'
      have hkk : k = k' := by
        rcases Nat.lt_trichotomy k k' with hlt1 | heq | hlt1
        · have hn := storeGet_none_of_lt ((k', c') :: rest') k fun q hq => by
            rcases List.mem_cons.mp hq with rfl | hq
            · exact hlt1
            · exact Nat.lt_trans hlt1 (hlt' q hq)
          have := hg k
          rw [hn] at this
          simp [storeGet] at this
        · exact heq
        · have hn := storeGet_none_of_lt ((k, c) :: rest) k' fun q hq => by
            rcases List.mem_cons.mp hq with rfl | hq
            · exact hlt1
            · exact Nat.lt_trans hlt1 (hlt q hq)
          have := hg k'
          rw [hn] at this
          simp [storeGet] at this
      subst hkk
      have hc : c = c' := by simpa [storeGet] using hg k
      subst hc
      congr 1
      apply ih rest' hr hr'
      intro x
      by_cases hx : k = x
      · subst hx
        rw [storeGet_none_of_lt rest k hlt, storeGet_none_of_lt rest' k hlt']
      · simpa [storeGet, hx] using hg x

/-! ### The machine's stores -/

/-- What `memoryWf` says, store by store. -/
theorem memoryWf_iff (s : State) :
    s.memoryWf = true ↔ ∀ k : StoreId, Memory.wf (s.store k) = true ∧ storeBelow (s.store k) (s.capacity k) = true := by
  simp only [State.memoryWf, Bool.and_eq_true]
  constructor
  · rintro ⟨h1, h2, h3⟩ k
    cases k
    · exact h1
    · exact h2
    · exact h3
  · intro h
    exact ⟨h .buf, h .txb, h .txo⟩

@[simp] theorem memWrite_capacity (s : State) (k j : StoreId) (a : Nat) (bs : List Byte) :
    (s.memWrite k a bs).capacity j = s.capacity j := by cases j <;> simp [State.capacity]

/-- MemWrite within the store keeps the canonical form. -/
theorem memWrite_memoryWf (s : State) (k : StoreId) (a : Nat) (bs : List Byte) (h : s.memoryWf = true)
    (ha : a + bs.length ≤ s.capacity k) : (s.memWrite k a bs).memoryWf = true := by
  rw [memoryWf_iff] at *
  intro j
  rw [memWrite_capacity]
  by_cases hj : j = k
  · subst hj
    rw [memWrite_store_self]
    exact ⟨wf_storeWrite _ _ _ (h j).1, storeBelow_storeWrite _ _ _ _ (h j).2 ha⟩
  · rw [memWrite_store_of_ne _ _ _ _ _ hj]
    exact h j

/-- `memoryWf` depends on the stores and the parameters alone. -/
theorem memoryWf_congr (s t : State) (hb : t.buf = s.buf) (hx : t.txb = s.txb) (ho : t.txo = s.txo)
    (hp : t.params = s.params) : t.memoryWf = s.memoryWf := by
  simp [State.memoryWf, hb, hx, ho, hp]

theorem memRead_length (s : State) (k : StoreId) (a n : Nat) : (s.memRead k a n).length = n := storeRead_length ..

/-- A write to one store does not change what another reads. -/
theorem memRead_memWrite_of_ne (s : State) (k j : StoreId) (a b n : Nat) (bs : List Byte) (h : j ≠ k) :
    (s.memWrite k a bs).memRead j b n = s.memRead j b n := by
  rw [State.memRead, memWrite_store_of_ne _ _ _ _ _ h]
  simp [State.memRead, State.held]

end Sys2Proof.Machine
end

