-- ==== Sys2Proof/Laws/Codec.lean ====
section
/-! SUPPORT. The bytes of an integer field: lengths, round trips, and what the codec does to a store. -/

namespace Sys2Proof.Machine

@[simp] theorem leBytes_length (v : Word) (w : Nat) : (leBytes v w).length = w := by
  induction w generalizing v with
  | zero => rfl
  | succ w ih => simp [leBytes, ih]

@[simp] theorem encBytes_length (o : ByteOrder) (w : Nat) (v : Word) : (encBytes o w v).length = w := by
  cases o <;> simp [encBytes]

theorem leBytes_value (v : Word) (w : Nat) : leValue (leBytes v w) = v.toNat % 2 ^ (8 * w) := by
  induction w generalizing v with
  | zero => simp [leBytes, leValue, Nat.mod_one]
  | succ w ih =>
    rw [leBytes, leValue, ih]
    simp only [BitVec.toNat_setWidth, BitVec.toNat_ushiftRight, Nat.shiftRight_eq_div_pow]
    rw [show 8 * (w + 1) = 8 + 8 * w by omega, Nat.pow_add, Nat.mod_mul]

theorem leValue_lt (bs : List Byte) : leValue bs < 2 ^ (8 * bs.length) := by
  induction bs with
  | nil => simp [leValue]
  | cons b rest ih =>
    have hb := b.isLt
    rw [leValue, List.length_cons, show 8 * (rest.length + 1) = 8 + 8 * rest.length by omega, Nat.pow_add]
    omega

theorem leValue_inj (as bs : List Byte) (hl : as.length = bs.length) (h : leValue as = leValue bs) : as = bs := by
  induction as generalizing bs with
  | nil => exact (List.length_eq_zero_iff.mp hl.symm).symm
  | cons a as ih =>
    cases bs with
    | nil => simp at hl
    | cons b bs =>
      have ha := a.isLt
      have hb := b.isLt
      simp only [leValue] at h
      have hab : a = b := BitVec.eq_of_toNat_eq (by omega)
      rw [hab, ih bs (by simpa using hl) (by omega)]

/-- R103 (a), on bytes: unpacking what was packed gives the value modulo `2^(8w)`. -/
theorem decBytes_encBytes (o : ByteOrder) (w : Nat) (v : Word) :
    decBytes o (encBytes o w v) = BitVec.ofNat 32 (v.toNat % 2 ^ (8 * w)) := by
  cases o <;> simp [decBytes, encBytes, leBytes_value]

theorem leValue_lt_word (bs : List Byte) (h : bs.length ≤ 4) : leValue bs < 2 ^ 32 :=
  Nat.lt_of_lt_of_le (leValue_lt bs) (Nat.pow_le_pow_right (by omega) (by omega))

/-- The result of an unpack is below `2^(8w)` (R101). -/
theorem decBytes_lt (o : ByteOrder) (bs : List Byte) (h : bs.length ≤ 4) :
    (decBytes o bs).toNat < 2 ^ (8 * bs.length) := by
  cases o with
  | le =>
    rw [decBytes, BitVec.toNat_ofNat, Nat.mod_eq_of_lt (leValue_lt_word bs h)]
    exact leValue_lt bs
  | be =>
    have hr : bs.reverse.length ≤ 4 := by simpa using h
    rw [decBytes, BitVec.toNat_ofNat, Nat.mod_eq_of_lt (leValue_lt_word _ hr)]
    simpa using leValue_lt bs.reverse

/-- R103 (c): unpacking is injective on sequences of one length. -/
theorem decBytes_inj (o : ByteOrder) (as bs : List Byte) (hl : as.length = bs.length) (h4 : as.length ≤ 4)
    (h : decBytes o as = decBytes o bs) : as = bs := by
  cases o with
  | le =>
    have := congrArg BitVec.toNat h
    rw [decBytes, decBytes, BitVec.toNat_ofNat, BitVec.toNat_ofNat, Nat.mod_eq_of_lt (leValue_lt_word as h4),
      Nat.mod_eq_of_lt (leValue_lt_word bs (hl ▸ h4))] at this
    exact leValue_inj as bs hl this
  | be =>
    have := congrArg BitVec.toNat h
    rw [decBytes, decBytes, BitVec.toNat_ofNat, BitVec.toNat_ofNat,
      Nat.mod_eq_of_lt (leValue_lt_word _ (by simpa using h4)),
      Nat.mod_eq_of_lt (leValue_lt_word _ (by simpa using hl ▸ h4))] at this
    exact List.reverse_injective (leValue_inj _ _ (by simpa using hl) this)

/-- R103 (b), on bytes: packing what was unpacked gives the bytes back. -/
theorem encBytes_decBytes (o : ByteOrder) (bs : List Byte) (h : bs.length ≤ 4) :
    encBytes o bs.length (decBytes o bs) = bs := by
  apply decBytes_inj o _ _ (by simp) (by simpa using h)
  rw [decBytes_encBytes, Nat.mod_eq_of_lt (decBytes_lt o bs h), BitVec.ofNat_toNat, BitVec.setWidth_eq]

theorem codecWidth_iff (w : Nat) : codecWidth w = true ↔ w = 1 ∨ w = 2 ∨ w = 4 := by
  simp [codecWidth]

theorem codecWidth_le (w : Nat) (h : codecWidth w = true) : 1 ≤ w ∧ w ≤ 4 := by
  rw [codecWidth_iff] at h; omega

theorem putfBytes_length (o : ByteOrder) (v : Word) (w : Nat) : (putfBytes o v w).length ≤ w := by
  unfold putfBytes; split <;> simp

theorem putf_of_width (s : State) (k : StoreId) (a : Nat) (v : Word) (w : Nat) (h : codecWidth w = true) :
    s.putf k a v w = s.memWrite k a (encBytes s.params.byteOrder w v) := by simp [State.putf, putfBytes, h]

/-- R102: a reserved width writes nothing. -/
theorem putf_of_reserved (s : State) (k : StoreId) (a : Nat) (v : Word) (w : Nat) (h : codecWidth w = false) :
    s.putf k a v w = s := by cases k <;> simp [State.putf, putfBytes, h, State.memWrite, State.withStore, State.store]

/-- R102: a reserved width leaves the destination as it was. -/
theorem getfValue_of_reserved (o : ByteOrder) (old : Word) (bs : List Byte) (w : Nat) (h : codecWidth w = false) :
    getfValue o old bs w = old := by simp [getfValue, h]

theorem getfValue_of_width (o : ByteOrder) (old : Word) (bs : List Byte) (w : Nat) (h : codecWidth w = true) :
    getfValue o old bs w = decBytes o bs := by simp [getfValue, h]

theorem getf_of_width (s : State) (old : Word) (k : StoreId) (a w : Nat) (h : codecWidth w = true) :
    s.getf old k a w = decBytes s.params.byteOrder (s.memRead k a w) := getfValue_of_width _ _ _ _ h

/-! ### A sequence of bytes -/

@[simp] theorem slice_length (l : List Byte) (a n : Nat) (h : a + n ≤ l.length) : (slice l a n).length = n := by
  simp [slice]; omega

@[simp] theorem overwrite_length (l : List Byte) (a : Nat) (bs : List Byte) (h : a + bs.length ≤ l.length) :
    (overwrite l a bs).length = l.length := by
  simp [overwrite]; omega

/-- What `overwrite` does, byte by byte. -/
theorem overwrite_get (l : List Byte) (a : Nat) (bs : List Byte) (h : a + bs.length ≤ l.length) (x : Nat) :
    (overwrite l a bs)[x]? = if a ≤ x ∧ x < a + bs.length then bs[x - a]? else l[x]? := by
  have ha : (l.take a).length = a := by simp; omega
  unfold overwrite
  by_cases h1 : x < a
  · rw [List.append_assoc, List.getElem?_append_left (by omega), if_neg (by omega), List.getElem?_take_of_lt h1]
  · by_cases h2 : x < a + bs.length
    · rw [if_pos (by omega), List.getElem?_append_left (by simp; omega), List.getElem?_append_right (by omega), ha]
    · rw [if_neg (by omega), List.getElem?_append_right (by simp; omega), List.getElem?_drop, List.length_append, ha]
      congr 1; omega

/-- Reading what was written. -/
theorem slice_overwrite (l : List Byte) (a : Nat) (bs : List Byte) (h : a + bs.length ≤ l.length) :
    slice (overwrite l a bs) a bs.length = bs := by
  have ha : (l.take a).length = a := by simp; omega
  unfold slice overwrite
  rw [List.append_assoc, List.drop_left' ha, List.take_left]

/-- Writing what was read. -/
theorem overwrite_slice (l : List Byte) (a n : Nat) (h : a + n ≤ l.length) : overwrite l a (slice l a n) = l := by
  unfold overwrite
  rw [slice_length l a n h, slice, ← List.drop_drop, List.append_assoc, List.take_append_drop, List.take_append_drop]

/-! ### The codec on a store -/

theorem putf_memoryWf (s : State) (k : StoreId) (a : Nat) (v : Word) (w : Nat) (h : s.memoryWf = true)
    (ha : a + w ≤ s.capacity k) : (s.putf k a v w).memoryWf = true :=
  memWrite_memoryWf s k a _ h (Nat.le_trans (Nat.add_le_add_left (putfBytes_length ..) a) ha)

theorem leBytes_eq_map (w : Nat) (v : Word) : leBytes v w = (List.range w).map fun i => v.extractLsb' (8 * i) 8 := by
  induction w generalizing v with
  | zero => rfl
  | succ w ih =>
    rw [leBytes, ih, List.range_succ_eq_map, List.map_cons, List.map_map]
    have h0 : v.setWidth 8 = v.extractLsb' (8 * 0) 8 := by
      apply BitVec.eq_of_getLsbD_eq
      intro i hi
      simp [hi]
    have hs : ∀ i, (v >>> 8).extractLsb' (8 * i) 8 = v.extractLsb' (8 * (i + 1)) 8 := by
      intro i
      apply BitVec.eq_of_getLsbD_eq
      intro j hj
      simp only [BitVec.getLsbD_extractLsb', BitVec.getLsbD_ushiftRight, hj, decide_true, Bool.true_and]
      congr 1; omega
    rw [h0]
    congr 1
    exact List.map_congr_left fun i _ => hs i

/-- The bytes a pack writes are the field bytes of 20_memory.md R52. -/
theorem fieldBytes_eq_encBytes (o : ByteOrder) (w : Nat) (v : Word) : fieldBytes o w v = encBytes o w v := by
  cases o with
  | le => rw [encBytes, leBytes_eq_map]; rfl
  | be =>
    rw [encBytes, leBytes_eq_map]
    apply List.ext_getElem
    · simp [fieldBytes]
    · intro i h1 h2
      simp [fieldBytes] at *

end Sys2Proof.Machine
end

