-- ==== Sys2Proof/Laws/Commands.lean ====
section
/-! SUPPORT. Everything CFGWR, CFGRD, TXWR, TXRD and the codec taken alone can do, one lemma each, and what a register write
leaves alone. -/

namespace Sys2Proof.Machine

/-- Everything CFGWR can do. -/
theorem execCfgwr_cases (r : BitVec 8) (v : Word) (s : State) :
    (regOf s.params r = none ∧ execCfgwr r v s = .next s.refuseCommand) ∨
    ∃ g, regOf s.params r = some g ∧
      ((g.access = .ro ∧ execCfgwr r v s = .next (s.respond 0)) ∨
       (g.access = .rw ∧ execCfgwr r v s = .next ((s.regWrite g v).respond 0)) ∨
       (g.access = .rwf ∧ s.en = true ∧ execCfgwr r v s = .next s.refuseCommand) ∨
       (g.access = .rwf ∧ s.en = false ∧ execCfgwr r v s = .next ((s.regWrite g v).respond 0)) ∨
       (g = .status ∧ execCfgwr r v s = .next ((s.clearFlags v).respond 0)) ∨
       (g = .ctrl ∧ execCfgwr r v s = .next ((s.writeCtrl v).respond 0))) := by
  unfold execCfgwr
  cases hr : regOf s.params r with
  | none => exact .inl ⟨rfl, rfl⟩
  | some g =>
    refine .inr ⟨g, rfl, ?_⟩
    cases hg : g.access with
    | ro => exact .inl ⟨rfl, by simp [hg]⟩
    | rw => exact .inr (.inl ⟨rfl, by simp [hg]⟩)
    | rwf =>
      cases he : s.en with
      | true => exact .inr (.inr (.inl ⟨rfl, rfl, by simp [hg]⟩))
      | false => exact .inr (.inr (.inr (.inl ⟨rfl, rfl, by simp [hg]⟩)))
    | w1c =>
      refine .inr (.inr (.inr (.inr (.inl ⟨?_, by simp [hg]⟩))))
      cases g <;> first | rfl | exact Access.noConfusion hg
    | control =>
      refine .inr (.inr (.inr (.inr (.inr ⟨?_, by simp [hg]⟩))))
      cases g <;> first | rfl | exact Access.noConfusion hg

/-- Everything CFGRD can do. -/
theorem execCfgrd_cases (r : BitVec 8) (s : State) :
    (regOf s.params r = none ∧ execCfgrd r s = .next s.refuseCommand) ∨
    ∃ g, regOf s.params r = some g ∧ execCfgrd r s = .next (s.respond (s.regValue g)) := by
  unfold execCfgrd
  cases hr : regOf s.params r with
  | none => exact .inl ⟨rfl, rfl⟩
  | some g => exact .inr ⟨g, rfl, rfl⟩

/-- A register write touches no store, no progress register, no flag and no field of the model's own. -/
theorem regWrite_frame (s : State) (g : Reg) (v : Word) :
    s.regWrite g v = { s with
      width0 := (s.regWrite g v).width0, width1 := (s.regWrite g v).width1, feat := (s.regWrite g v).feat
      rstseq := (s.regWrite g v).rstseq, lenExact := (s.regWrite g v).lenExact, lenMax := (s.regWrite g v).lenMax
      user := (s.regWrite g v).user, fs := (s.regWrite g v).fs, ct := (s.regWrite g v).ct
      txCmd := (s.regWrite g v).txCmd, txCtl := (s.regWrite g v).txCtl, txBodyLen := (s.regWrite g v).txBodyLen
      txArgs := (s.regWrite g v).txArgs } := by
  cases g <;> rfl

/-- The registers that are writable while enabled are the table and the encoder's operands. -/
theorem regWrite_rw_frame (s : State) (g : Reg) (v : Word) (h : g.access = .rw) :
    s.regWrite g v = { s with
      ct := (s.regWrite g v).ct, txCmd := (s.regWrite g v).txCmd, txCtl := (s.regWrite g v).txCtl
      txBodyLen := (s.regWrite g v).txBodyLen, txArgs := (s.regWrite g v).txArgs } := by
  cases g <;> first | rfl | exact Access.noConfusion h

/-- Everything a write of CTRL can do. -/
theorem writeCtrl_cases (s : State) (v : Word) :
    (s.en = v.getLsbD 0 ∧ s.writeCtrl v = s) ∨
    (s.en = true ∧ v.getLsbD 0 = false ∧ s.writeCtrl v = { s with en := false }) ∨
    (s.en = false ∧ v.getLsbD 0 = true ∧ s.cfgLegal = true ∧ s.capOk = true ∧
      s.writeCtrl v = { s with en := true, n := 0, bodyLen := 0, rstRun := 0 }) ∨
    (s.en = false ∧ v.getLsbD 0 = true ∧ (s.cfgLegal = false ∨ s.capOk = false) ∧
      s.writeCtrl v = s.raise .cfgErr) := by
  unfold State.writeCtrl
  cases hv : v.getLsbD 0 <;> cases he : s.en
  · exact .inl ⟨rfl, by simp⟩
  · exact .inr (.inl ⟨rfl, rfl, by simp⟩)
  · refine .inr (.inr ?_)
    rw [if_pos (rfl : true = true), if_neg (by simp : ¬ false = true)]
    unfold State.enable State.zeroProgress
    cases hl : s.cfgLegal with
    | false => exact .inr ⟨rfl, rfl, .inl rfl, by simp⟩
    | true =>
      cases hc : s.capOk with
      | false => exact .inr ⟨rfl, rfl, .inr rfl, by simp⟩
      | true => exact .inl ⟨rfl, rfl, rfl, rfl, by simp⟩
  · exact .inl ⟨rfl, by simp⟩

/-- Everything PUTF taken alone can do. -/
theorem putfAlone_cases (s : State) (w : Nat) :
    (s.codec.off.toNat + w ≤ s.codec.bytes.length ∧
      s.putfAlone w = .next { s with codec := { s.codec with
        bytes := overwrite s.codec.bytes s.codec.off.toNat (putfBytes s.params.byteOrder s.codec.val w) } }) ∨
    (s.codec.bytes.length < s.codec.off.toNat + w ∧ s.putfAlone w = .fault .codecOutOfRange) := by
  unfold State.putfAlone State.codecInRange
  by_cases h : s.codec.off.toNat + w ≤ s.codec.bytes.length
  · exact .inl ⟨h, by simp [h]⟩
  · exact .inr ⟨Nat.lt_of_not_le h, by simp [h]⟩

/-- Everything GETF taken alone can do. -/
theorem getfAlone_cases (s : State) (w : Nat) :
    (s.codec.off.toNat + w ≤ s.codec.bytes.length ∧
      s.getfAlone w = .next { s with codec := { s.codec with
        dst := getfValue s.params.byteOrder s.codec.dst (slice s.codec.bytes s.codec.off.toNat w) w } }) ∨
    (s.codec.bytes.length < s.codec.off.toNat + w ∧ s.getfAlone w = .fault .codecOutOfRange) := by
  unfold State.getfAlone State.codecInRange
  by_cases h : s.codec.off.toNat + w ≤ s.codec.bytes.length
  · exact .inl ⟨h, by simp [h]⟩
  · exact .inr ⟨Nat.lt_of_not_le h, by simp [h]⟩

/-- Everything TXWR can do. -/
theorem execTxwr_cases (i : BitVec 16) (b : Byte) (s : State) :
    (i.toNat < s.params.txcap.toNat ∧ execTxwr i b s = .next ((s.memWrite .txb i.toNat [b]).respond 0)) ∨
    (s.params.txcap.toNat ≤ i.toNat ∧ execTxwr i b s = .next s.refuseCommand) := by
  unfold execTxwr
  by_cases h : i.toNat < s.params.txcap.toNat
  · exact .inl ⟨h, if_pos h⟩
  · exact .inr ⟨Nat.le_of_not_lt h, if_neg h⟩

/-- Everything TXRD can do. -/
theorem execTxrd_cases (i : BitVec 16) (s : State) :
    (i.toNat < s.params.txcap.toNat ∧ execTxrd i s = .next (s.respond
      (((storeGet s.txo i.toNat).getD (s.held .txo i.toNat)).setWidth 32))) ∨
    (s.params.txcap.toNat ≤ i.toNat ∧ execTxrd i s = .next s.refuseCommand) := by
  unfold execTxrd
  by_cases h : i.toNat < s.params.txcap.toNat
  · exact .inl ⟨h, if_pos h⟩
  · exact .inr ⟨Nat.le_of_not_lt h, if_neg h⟩

end Sys2Proof.Machine
end

