-- ==== Sys2Proof/Laws/Decode.lean ====
section
/-! SUPPORT. The fields of the words the encoder writes. -/

namespace Sys2Proof

theorem wordOp_hostWord (op arg : BitVec 8) (d : Word) : wordOp (hostWord op arg d) = op := by
  apply BitVec.eq_of_getLsbD_eq
  intro i hi
  simp only [wordOp, hostWord, BitVec.getLsbD_extractLsb', BitVec.getLsbD_append, hi, decide_true, Bool.true_and]
  rw [if_neg (by omega)]
  congr 1; omega

theorem wordArg_hostWord (op arg : BitVec 8) (d : Word) : wordArg (hostWord op arg d) = arg := by
  apply BitVec.eq_of_getLsbD_eq
  intro i hi
  simp only [wordArg, hostWord, BitVec.getLsbD_extractLsb', BitVec.getLsbD_append, hi, decide_true, Bool.true_and]
  rw [if_pos (by omega), if_neg (by omega)]
  congr 1; omega

theorem wordData_hostWord (op arg : BitVec 8) (d : Word) : wordData (hostWord op arg d) = d := by
  apply BitVec.eq_of_getLsbD_eq
  intro i hi
  simp only [wordData, hostWord, BitVec.getLsbD_extractLsb', BitVec.getLsbD_append, hi, decide_true, Bool.true_and]
  rw [if_pos (by omega), if_pos (by omega)]
  congr 1; omega

theorem wordIndex_hostWord (op arg : BitVec 8) (i : BitVec 16) : wordIndex (hostWord op arg (0#16 ++ i)) = i := by
  apply BitVec.eq_of_getLsbD_eq
  intro j hj
  simp only [wordIndex, hostWord, BitVec.getLsbD_extractLsb', BitVec.getLsbD_append, hj, decide_true, Bool.true_and]
  rw [if_pos (by omega), if_pos (by omega), if_pos (by omega)]
  congr 1; omega

end Sys2Proof
end

