-- ==== Sys2Proof/Laws/Feed.lean ====
section
/-! SUPPORT. FEED, stage by stage: what each stage can do, in terms of the accumulated bytes. -/

namespace Sys2Proof.Machine

/-! ### Stage 1 and the guard -/

theorem countRun_eq (s : State) (b : Byte) : s.countRun b = { s with rstRun := s.runAfter b } := by
  unfold State.countRun State.runAfter
  split <;> rfl

/-- The state in which FEED goes on once the byte did not complete a reset run. -/
def State.passed (s : State) (b : Byte) : State := { s with rstRun := s.runAfter b, resp := ⟨0, none⟩ }

theorem respond_countRun (s : State) (b : Byte) : (s.respond 0).countRun b = s.passed b := by
  rw [countRun_eq]; rfl

theorem runComplete_passed (s : State) (b : Byte) : (s.passed b).runComplete = true ↔ s.fires b := by
  simp only [State.runComplete, State.fires, Bool.and_eq_true, decide_eq_true_eq]
  exact Iff.rfl

theorem execFeed_disabled (s : State) (b : Byte) (h : s.en = false) : execFeed b s = .next s.refuseCommand := by
  simp [execFeed, h]

theorem execFeed_fires (s : State) (b : Byte) (h : s.en = true) (hf : s.fires b) :
    execFeed b s = .next (s.passed b).fireReset := by
  rw [execFeed, if_neg (by simp [h]), respond_countRun, if_pos ((runComplete_passed s b).mpr hf)]

theorem execFeed_passes (s : State) (b : Byte) (h : s.en = true) (hf : ¬ s.fires b) :
    execFeed b s = (s.passed b).takeByte b := by
  rw [execFeed, if_neg (by simp [h]), respond_countRun, if_neg (mt (runComplete_passed s b).mp hf)]

/-- Everything FEED can do. -/
theorem execFeed_cases (s : State) (b : Byte) :
    (s.en = false ∧ execFeed b s = .next s.refuseCommand) ∨
    (s.en = true ∧ s.fires b ∧ execFeed b s = .next (s.passed b).fireReset) ∨
    (s.en = true ∧ ¬ s.fires b ∧ s.n = s.params.cap ∧ execFeed b s = .next (s.passed b).overflowDrop) ∨
    (s.en = true ∧ ¬ s.fires b ∧ s.params.cap.toNat < s.n.toNat ∧ execFeed b s = .fault .countBeyondCapacity) ∨
    (s.en = true ∧ ¬ s.fires b ∧ s.n.toNat < s.params.cap.toNat ∧
      execFeed b s = .next ((s.passed b).append b).stage2.stage3.stage4) := by
  cases he : s.en with
  | false => exact .inl ⟨rfl, execFeed_disabled s b he⟩
  | true =>
    by_cases hf : s.fires b
    · exact .inr (.inl ⟨rfl, hf, execFeed_fires s b he hf⟩)
    · refine .inr (.inr ?_)
      rw [execFeed_passes s b he hf]
      by_cases hc : s.n = s.params.cap
      · exact .inl ⟨rfl, hf, hc, by rw [State.takeByte, if_pos (by exact hc)]⟩
      · by_cases hlt : s.params.cap.toNat < s.n.toNat
        · exact .inr (.inl ⟨rfl, hf, hlt, by rw [State.takeByte, if_neg (by exact hc), if_pos (by exact hlt)]⟩)
        · have hne : s.n.toNat ≠ s.params.cap.toNat := fun h => hc (BitVec.eq_of_toNat_eq h)
          exact .inr (.inr ⟨rfl, hf, by omega, by rw [State.takeByte, if_neg (by exact hc), if_neg (by exact hlt)]⟩)

/-! ### The append -/

theorem append_eq (s : State) (b : Byte) :
    s.append b = { s with buf := storePut s.buf s.n.toNat b, n := s.n + 1 } := rfl

theorem append_n_toNat (s : State) (b : Byte) (h : s.n.toNat < s.params.cap.toNat) :
    (s.append b).n.toNat = s.n.toNat + 1 := by
  have := s.params.cap.isLt
  simp only [append_eq, BitVec.toNat_add]
  exact Nat.mod_eq_of_lt (by simp; omega)

theorem append_written (s : State) (b : Byte) (h : storeWritten s.buf 0 s.n.toNat = true) :
    storeWritten (storePut s.buf s.n.toNat b) 0 (s.n.toNat + 1) = true := by
  rw [storeWritten_iff] at *
  intro i hi
  rw [storeGet_storePut]
  split
  next => rfl
  next hne => exact h i (by omega)

/-- The append sets the byte at index N, and no other. -/
theorem append_set (s : State) (b : Byte) : storeSet s.buf s.n.toNat b (storePut s.buf s.n.toNat b) :=
  ⟨storeGet_storePut_self .., fun _ h => storeGet_storePut_of_ne _ _ _ _ h⟩

/-- BUF[0..N] after the append. -/
theorem append_read (s : State) (b : Byte) :
    storeRead (storePut s.buf s.n.toNat b) (s.held .buf) 0 (s.n.toNat + 1) = s.accumulated b := by
  rw [storeRead_add, State.accumulated, State.bufBytes]
  congr 1
  · exact storeRead_congr _ _ _ _ _ fun i hi => storeGet_storePut_of_ne _ _ _ _ (by omega)
  · simp [storeRead, storeGet_storePut_self]

/-- A part of a range that was read is a slice of it. -/
theorem storeRead_slice (m : Store) (c : Nat → Byte) (a k n : Nat) (h : a + k ≤ n) :
    storeRead m c a k = slice (storeRead m c 0 n) a k := by
  apply List.ext_getElem
  · simp [slice]; omega
  · intro i h1 h2
    simp only [storeRead_length] at h1
    simp only [slice, List.getElem_take, List.getElem_drop, storeRead_getElem, Nat.zero_add]

/-! ### Stages 2 to 4 -/

/-- Stage 2 as one choice. -/
theorem stage2_eq (s : State) :
    s.stage2 = if s.n.toNat = s.wFs ∧ s.bufBytes 0 s.wFs ≠ s.marker then s.resync (s.bufBytes 0 s.wFs) else s := by
  unfold State.stage2
  have hr : s.window = s.bufBytes 0 s.wFs := rfl
  rw [hr]
  by_cases hn : s.n.toNat = s.wFs
  · by_cases hm : s.bufBytes 0 s.wFs = s.marker <;> simp [hn, hm]
  · simp [hn]

/-- What the length policy lets pass (43_reassembly.md R161). -/
theorem lenFails_eq_false_iff (s : State) (len : Word) :
    s.lenFails len = false ↔
      (s.exactEn = true → len = s.lenExact) ∧ (s.maxEn = true → len.toNat ≤ s.lenMax.toNat) := by
  simp only [State.lenFails, Bool.or_eq_false_iff]
  cases s.exactEn <;> cases s.maxEn <;> simp

/-- The body length stage 3 decodes (43_reassembly.md R160). -/
def State.decodedLen (s : State) : Word := decBytes s.params.byteOrder (s.bufBytes s.offLen s.wLen)

/-- Stage 3 when the length field has a legal width. -/
theorem stage3_of_width (s : State) (hw : codecWidth s.wLen = true) :
    s.stage3 =
      if s.n.toNat = s.hdr then
        (if s.lenFails s.decodedLen then
          { ({ s with bodyLen := s.decodedLen }.emit (.lenDrop s.decodedLen)) with n := 0 }
        else { s with bodyLen := s.decodedLen })
      else s := by
  have hv : s.newLen = s.decodedLen := getf_of_width s s.bodyLen .buf s.offLen s.wLen hw
  unfold State.stage3 State.takeLen
  rw [hv]

/-- DISPATCH with legal field widths, in terms of the frame's bytes. -/
theorem dispatch_of_width (s : State) (hc : codecWidth s.wCmd = true) (hk : s.wCtl = 0 ∨ codecWidth s.wCtl = true) :
    s.dispatch = { s.emit (s.frameEvent (s.bufBytes 0 (s.total s.bodyLen.toNat))) with n := 0 } := by
  have hr : ∀ a k, a + k ≤ s.total s.bodyLen.toNat →
      s.memRead .buf a k = slice (s.bufBytes 0 (s.total s.bodyLen.toNat)) a k :=
    fun a k hak => storeRead_slice _ _ _ _ _ hak
  have hcode : s.codeValue = decBytes s.params.byteOrder
      (slice (s.bufBytes 0 (s.total s.bodyLen.toNat)) s.offCmd s.wCmd) := by
    rw [State.codeValue, getf_of_width _ _ _ _ _ hc, hr]
    simp only [State.offCmd, State.total, State.hdr]; omega
  have hctl : s.ctlValue = if 0 < s.wCtl then decBytes s.params.byteOrder
      (slice (s.bufBytes 0 (s.total s.bodyLen.toNat)) (s.offCtl s.bodyLen.toNat) s.wCtl) else 0 := by
    unfold State.ctlValue
    split
    next hpos =>
      rw [getf_of_width _ _ _ _ _ (hk.resolve_left (by omega)), hr]
      simp only [State.offCtl, State.total]; omega
    next => rfl
  have hts : s.memRead .buf s.offTs s.wTs = slice (s.bufBytes 0 (s.total s.bodyLen.toNat)) s.offTs s.wTs :=
    hr _ _ (by simp only [State.offTs, State.total, State.hdr]; omega)
  have hbody : s.memRead .buf s.hdr s.bodyLen.toNat =
      slice (s.bufBytes 0 (s.total s.bodyLen.toNat)) s.hdr s.bodyLen.toNat :=
    hr _ _ (by simp only [State.total]; omega)
  have hev : s.dispatchEvent = s.frameEvent (s.bufBytes 0 (s.total s.bodyLen.toNat)) := by
    rw [State.dispatchEvent, hcode, hctl, hts, hbody]
    rfl
  rw [State.dispatch, hev]

/-- Stage 4 with legal field widths, in terms of the frame's bytes. -/
theorem stage4_of_width (s : State) (hc : codecWidth s.wCmd = true) (hk : s.wCtl = 0 ∨ codecWidth s.wCtl = true) :
    s.stage4 =
      if s.n.toNat = s.total s.bodyLen.toNat ∧ s.wedge = false then
        (if s.intEn = true ∧ s.frameCorrupt (s.bufBytes 0 (s.total s.bodyLen.toNat)) = true then
          { s.emit .intDrop with n := 0 }
        else { s.emit (s.frameEvent (s.bufBytes 0 (s.total s.bodyLen.toNat))) with n := 0 })
      else s := by
  unfold State.stage4
  by_cases hn : s.n.toNat = s.total s.bodyLen.toNat
  · have hr : ∀ a k, a + k ≤ s.total s.bodyLen.toNat →
        s.memRead .buf a k = slice (s.bufBytes 0 (s.total s.bodyLen.toNat)) a k :=
      fun a k hak => storeRead_slice _ _ _ _ _ hak
    have hi : s.integrityOk = !s.frameCorrupt (s.bufBytes 0 (s.total s.bodyLen.toNat)) := by
      rw [State.integrityOk, State.frameCorrupt, hr, hr]
      · by_cases hx : s.hash (slice (s.bufBytes 0 (s.total s.bodyLen.toNat)) s.offCmd (s.hashLen s.bodyLen.toNat))
            = slice (s.bufBytes 0 (s.total s.bodyLen.toNat)) (s.offInt s.bodyLen.toNat) s.wInt <;> simp [hx]
      · simp only [State.offInt, State.total]; omega
      · simp only [State.offCmd, State.hashLen, State.total, State.hdr]; omega
    rw [if_pos hn, dispatch_of_width s hc hk, hi, State.integrityDrop]
    cases hI : s.intEn <;> cases hN : s.params.noIntDispatch <;>
      cases hX : s.frameCorrupt (s.bufBytes 0 (s.total s.bodyLen.toNat)) <;> simp [State.wedge, hI, hN, hn]
  · simp [hn]

/-! ### What no stage touches -/

/-- Everything a stage of FEED after the append leaves alone, in one equation. -/
def State.StageFrame (s t : State) : Prop :=
  t = { s with n := t.n, bodyLen := t.bodyLen, buf := t.buf, resp := t.resp }

theorem StageFrame.refl (s : State) : s.StageFrame s := rfl

theorem StageFrame.trans {s t u : State} (h1 : s.StageFrame t) (h2 : t.StageFrame u) : s.StageFrame u := by
  unfold State.StageFrame at *
  rw [h2, h1]

theorem stage2_frame (s : State) : s.StageFrame s.stage2 := by
  unfold State.stage2; repeat' split
  all_goals rfl

theorem stage3_frame (s : State) : s.StageFrame s.stage3 := by
  unfold State.stage3; repeat' split
  all_goals rfl

theorem stage4_frame (s : State) : s.StageFrame s.stage4 := by
  unfold State.stage4; repeat' split
  all_goals rfl

end Sys2Proof.Machine
end

