-- ==== Sys2Proof/Laws/FeedStages.lean ====
section
/-! SUPPORT. FEED with a legal configuration (spec 43_reassembly.md R156 to R166), as one equation over the accumulated bytes:
the stages read nothing but those bytes. -/

namespace Sys2Proof.Machine

theorem cfgLegal_iff (s : State) :
    s.cfgLegal = true ↔ s.wFs ≤ s.params.fsMax.val ∧ codecWidth s.wCmd = true ∧ codecWidth s.wLen = true ∧
      (s.wCtl = 0 ∨ codecWidth s.wCtl = true) ∧ ¬ (s.exactEn = true ∧ s.maxEn = true) ∧
      (s.rstEn = true → 1 ≤ s.rstCount.toNat) := by
  simp only [State.cfgLegal, Bool.and_eq_true, decide_eq_true_eq, Bool.or_eq_true, beq_iff_eq, Bool.not_eq_true',
    Bool.and_eq_false_iff]
  cases s.exactEn <;> cases s.maxEn <;> cases s.rstEn <;> simp

/-- The state FEED's stages start from: the byte appended, the run counted, the response cleared. -/
def State.fed (s : State) (b : Byte) : State :=
  { s with rstRun := s.runAfter b, resp := ⟨0, none⟩, buf := storePut s.buf s.n.toNat b, n := s.n + 1 }

/-- Stage 4 in terms of the accumulated bytes `f`. -/
def State.complete (s : State) (f : List Byte) : State :=
  if s.n.toNat = s.total s.bodyLen.toNat ∧ s.wedge = false then
    (if s.intEn = true ∧ s.frameCorrupt f = true then { s.emit .intDrop with n := 0 }
    else { s.emit (s.frameEvent f) with n := 0 })
  else s

/-- The stages of FEED in terms of the accumulated bytes `f`: `k` is the count after the append. -/
def State.stages (s : State) (f : List Byte) : State :=
  if f.length = s.wFs then
    (if f = s.marker then s
    else { s with buf := storeWrite s.buf 0 f.tail, n := s.n - 1, resp := ⟨s.resp.rdata, some (.resync (f.headD 0))⟩ })
  else if f.length < s.hdr then s
  else if f.length = s.hdr then
    (if s.lenFails (decBytes s.params.byteOrder (slice f s.offLen s.wLen)) then
      { s with bodyLen := decBytes s.params.byteOrder (slice f s.offLen s.wLen), n := 0,
               resp := ⟨s.resp.rdata, some (.lenDrop (decBytes s.params.byteOrder (slice f s.offLen s.wLen)))⟩ }
    else { s with bodyLen := decBytes s.params.byteOrder (slice f s.offLen s.wLen) }.complete f)
  else s.complete f

theorem accumulated_length (s : State) (b : Byte) : (s.accumulated b).length = s.n.toNat + 1 := by
  simp [State.accumulated, State.bufBytes, memRead_length]

/-- FEED with a legal configuration: the stages act on the accumulated bytes. -/
theorem execFeed_stages (s : State) (b : Byte) (he : s.en = true) (hf : ¬ s.fires b)
    (hn : s.n.toNat < s.params.cap.toNat) (hl : s.cfgLegal = true) :
    execFeed b s = .next ((s.fed b).stages (s.accumulated b)) := by
  obtain ⟨_, hcmd, hlen, hctl, _, _⟩ := (cfgLegal_iff s).mp hl
  have hcw := codecWidth_le _ hcmd
  have hlw := codecWidth_le _ hlen
  rcases execFeed_cases s b with ⟨h, _⟩ | ⟨_, h, _⟩ | ⟨_, _, h, _⟩ | ⟨_, _, h, _⟩ | ⟨_, _, _, h⟩
  · rw [he] at h; cases h
  · exact absurd h hf
  · rw [h] at hn; exact absurd hn (Nat.lt_irrefl _)
  · omega
  rw [h]; clear h
  have hfed : (s.passed b).append b = s.fed b := rfl
  have hcount : (s.fed b).n.toNat = s.n.toNat + 1 := append_n_toNat (s.passed b) b hn
  have hread : (s.fed b).bufBytes 0 (s.n.toNat + 1) = s.accumulated b := append_read s b
  have hlenf := accumulated_length s b
  have hhdr : s.hdr = s.wFs + s.wCmd + s.wTs + s.wLen := rfl
  have hF : (s.fed b).wFs = s.wFs := rfl
  have hH : (s.fed b).hdr = s.hdr := rfl
  have hW : (s.fed b).marker = s.marker := rfl
  rw [hfed]
  have h4 : ∀ t : State, t.width0 = s.width0 → t.width1 = s.width1 → t.resets = s.resets → t.buf = (s.fed b).buf →
      t.n = (s.fed b).n → t.stage4 = t.complete (s.accumulated b) := by
    intro t h0 h1 hr hb hn'
    have hc' : t.wCmd = s.wCmd := by simp only [State.wCmd, h0]
    have hk' : t.wCtl = s.wCtl := by simp only [State.wCtl, h1]
    rw [stage4_of_width t (by rw [hc']; exact hcmd) (by rw [hk']; exact hctl)]
    unfold State.complete
    by_cases hT : t.n.toNat = t.total t.bodyLen.toNat
    · have : t.bufBytes 0 (t.total t.bodyLen.toNat) = s.accumulated b := by
        rw [← hT, hn', hcount, ← hread]
        simp only [State.bufBytes, State.memRead, State.held, store_buf, hb, hr]
        rfl
      simp only [this]
    · simp [hT]
  have h4' : ∀ t : State, t.n.toNat < t.hdr → t.stage4 = t := by
    intro t ht
    unfold State.stage4
    rw [if_neg]
    simp only [State.total]; omega
  rw [stage2_eq, hcount, hF]
  unfold State.stages
  rw [hlenf]
  by_cases h2 : s.n.toNat + 1 = s.wFs
  · rw [hF, if_pos h2]
    have hb2 : (s.fed b).bufBytes 0 s.wFs = s.accumulated b := by rw [← h2]; exact hread
    rw [hb2]
    by_cases hm : s.accumulated b = s.marker
    · rw [if_neg (by rw [hW]; exact fun h => h.2 hm), if_pos (by rw [hW]; exact hm)]
      have h3 : (s.fed b).stage3 = s.fed b := by
        unfold State.stage3; rw [if_neg]; rw [hcount, hH, hhdr]; omega
      rw [h3, h4' _ (by rw [hcount, hH, hhdr]; omega)]
    · rw [if_pos (by rw [hW]; exact ⟨h2, hm⟩), if_neg (by rw [hW]; exact hm)]
      have hx : ((s.fed b).resync (s.accumulated b)).n.toNat = s.n.toNat := by
        show ((s.fed b).n - 1).toNat = _
        have : (s.fed b).n - 1 = s.n := by
          show s.n + 1 - 1 = s.n
          exact BitVec.add_sub_cancel ..
        rw [this]
      have hxh : ((s.fed b).resync (s.accumulated b)).hdr = s.hdr := rfl
      have h3 : ((s.fed b).resync (s.accumulated b)).stage3 = (s.fed b).resync (s.accumulated b) := by
        unfold State.stage3; rw [if_neg]; rw [hx, hxh, hhdr]; omega
      rw [h3, h4' _ (by rw [hx, hxh, hhdr]; omega)]
      rfl
  · rw [hF, if_neg h2, if_neg (fun h => h2 h.1), hH]
    rw [stage3_of_width (s.fed b) hlen, hcount, hH]
    by_cases hlt : s.n.toNat + 1 < s.hdr
    · rw [if_neg (by omega), if_pos hlt, h4' _ (by rw [hcount, hH]; exact hlt)]
    · rw [if_neg hlt]
      by_cases h3 : s.n.toNat + 1 = s.hdr
      · rw [if_pos h3, if_pos h3]
        have hdl : (s.fed b).decodedLen =
            decBytes (s.fed b).params.byteOrder (slice (s.accumulated b) (s.fed b).offLen (s.fed b).wLen) := by
          unfold State.decodedLen
          rw [← hread, State.bufBytes, State.memRead, storeRead_slice _ _ _ _ (s.n.toNat + 1)]; rfl
          rw [h3, hhdr]
          exact Nat.le_refl _
        rw [hdl]
        split
        · rw [h4' _ (by show 0 < s.hdr; omega)]; rfl
        · rw [h4] <;> rfl
      · rw [if_neg h3, if_neg h3, h4] <;> rfl

end Sys2Proof.Machine
end

