-- ==== Sys2Proof/Laws/Encoder.lean ====
section
/-! SUPPORT. ENCODE: everything it can do, what it leaves alone, and the contents of TXO it leaves, as one chain of writes. -/

namespace Sys2Proof.Machine

/-- Everything ENCODE can do. -/
theorem execEncode_cases (s : State) :
    (s.en = false ∧ execEncode s = .next s.refuseCommand) ∨
    (s.en = true ∧ s.outCap < s.total s.txBodyLen.toNat ∧ execEncode s = .next s.encodeFail) ∨
    (s.en = true ∧ s.total s.txBodyLen.toNat ≤ s.outCap ∧ 0 < s.txBodyLen.toNat ∧ s.txBodyPresent = false ∧
      execEncode s = .next s.encodeFail) ∨
    (s.encodes ∧ execEncode s = .next s.encodeFrame) := by
  unfold execEncode
  cases he : s.en with
  | false => exact .inl ⟨rfl, rfl⟩
  | true =>
    refine .inr ?_
    rw [if_neg (by simp)]
    by_cases hc : s.outCap < s.total s.txBodyLen.toNat
    · exact .inl ⟨rfl, hc, if_pos hc⟩
    · rw [if_neg hc]
      by_cases hb : 0 < s.txBodyLen.toNat ∧ s.txBodyPresent = false
      · exact .inr (.inl ⟨rfl, Nat.le_of_not_lt hc, hb.1, hb.2, if_pos hb⟩)
      · refine .inr (.inr ⟨⟨he, Nat.le_of_not_lt hc, ?_⟩, if_neg hb⟩)
        cases hp : s.txBodyPresent with
        | true => exact .inr rfl
        | false => exact .inl (by simp only [hp, and_true] at hb; omega)

theorem execEncode_of_encodes (s : State) (h : s.encodes) : execEncode s = .next s.encodeFrame := by
  obtain ⟨he, hc, hb⟩ := h
  have hc' : ¬ s.outCap < s.total s.txBodyLen.toNat := Nat.not_lt.mpr hc
  rw [execEncode, if_neg (by simp [he]), if_neg hc', if_neg]
  rintro ⟨h0, hp⟩
  rcases hb with hb | hb
  · omega
  · simp [hp] at hb

/-! ### What the writes of ENCODE leave alone -/

/-- Everything a write of ENCODE leaves alone, in one equation. -/
def State.EncodeFrame (s t : State) : Prop :=
  t = { s with txo := t.txo, tsIn := t.tsIn, draws := t.draws }

theorem EncodeFrame.refl (s : State) : s.EncodeFrame s := rfl

theorem EncodeFrame.trans {s t u : State} (h1 : s.EncodeFrame t) (h2 : t.EncodeFrame u) : s.EncodeFrame u := by
  unfold State.EncodeFrame at *
  rw [h2, h1]

theorem memWrite_encodeFrame (s : State) (a : Nat) (bs : List Byte) : s.EncodeFrame (s.memWrite .txo a bs) := rfl

theorem putf_encodeFrame (s : State) (a : Nat) (v : Word) (w : Nat) : s.EncodeFrame (s.putf .txo a v w) := rfl

theorem afterTs_encodeFrame (s : State) (n : Nat) : s.EncodeFrame (s.afterTs n) := rfl

theorem encodeHead_frame (s : State) : s.EncodeFrame s.encodeHead := rfl

theorem encodeTimestamp_frame (s : State) : s.EncodeFrame s.encodeTimestamp := by
  unfold State.encodeTimestamp; split <;> rfl

theorem encodeLength_frame (s : State) : s.EncodeFrame s.encodeLength := rfl

theorem encodeBody_frame (s : State) : s.EncodeFrame s.encodeBody := rfl

theorem encodeZeroFill_frame (s : State) : s.EncodeFrame s.encodeZeroFill := rfl

theorem encodeControl_frame (s : State) : s.EncodeFrame s.encodeControl := by
  unfold State.encodeControl; split <;> rfl

theorem encodeIntegrity_frame (s : State) : s.EncodeFrame s.encodeIntegrity := by
  unfold State.encodeIntegrity; split <;> rfl

/-- The state before the result is answered. -/
def State.encodeWrites (s : State) : State :=
  s.encodeHead.encodeTimestamp.encodeLength.encodeBody.encodeZeroFill.encodeControl.encodeIntegrity

theorem encodeWrites_frame (s : State) : s.EncodeFrame s.encodeWrites :=
  EncodeFrame.trans (EncodeFrame.trans (EncodeFrame.trans (EncodeFrame.trans (EncodeFrame.trans (EncodeFrame.trans
    (encodeHead_frame s) (encodeTimestamp_frame _)) (encodeLength_frame _)) (encodeBody_frame _))
    (encodeZeroFill_frame _)) (encodeControl_frame _)) (encodeIntegrity_frame _)

/-- ENCODE that is carried out: TXO, TX_LEN, the answer, and what its reads and draws used up. -/
theorem encodeFrame_eq (s : State) :
    s.encodeFrame = { s with
      txo := s.encodeWrites.txo, tsIn := s.encodeWrites.tsIn, draws := s.encodeWrites.draws
      txLen := BitVec.ofNat 16 (s.total s.txBodyLen.toNat)
      resp := ⟨BitVec.ofNat 32 (s.total s.txBodyLen.toNat), none⟩ } := by
  have h := encodeWrites_frame s
  unfold State.EncodeFrame at h
  have hr : s.encodeFrame = s.encodeWrites.encodeResult := rfl
  rw [hr, State.encodeResult, h]
  rfl

/-! ### The contents of TXO -/

/-- TXO after marker and command. -/
def State.txoHead (s : State) : Store :=
  storeWrite (storeWrite s.txo 0 s.marker) s.offCmd (putfBytes s.params.byteOrder s.txCmd s.wCmd)

/-- TXO after the timestamp. -/
def State.txoTimestamp (s : State) : Store :=
  if s.tsEn then storeWrite s.txoHead s.offTs (tsBytes s.tsIn s.draws s.wTs) else s.txoHead

/-- TXO after length, body (`body`), zero fill and control field. -/
def State.txoTrailer (s : State) (body : List Byte) : Store :=
  let m := storeWrite (storeWrite (storeWrite s.txoTimestamp s.offLen (putfBytes s.params.byteOrder s.txBodyLen s.wLen))
    s.hdr body) (s.offInt s.txBodyLen.toNat) (List.replicate s.wInt 0#8)
  if 0 < s.wCtl then storeWrite m (s.offCtl s.txBodyLen.toNat) (putfBytes s.params.byteOrder s.txCtl s.wCtl) else m

/-- TXO after ENCODE, given the body; the integrity unit reads the finished fields, and what TXO held where none was
written. -/
def State.txoFinal (s : State) (body : List Byte) : Store :=
  if s.intEn then
    storeWrite (s.txoTrailer body) (s.offInt s.txBodyLen.toNat)
      (s.hash (storeRead (s.txoTrailer body) (s.held .txo) s.offCmd (s.hashLen s.txBodyLen.toNat)))
  else s.txoTrailer body

/-- The chain of writes. -/
theorem encodeWrites_txo (s : State) : s.encodeWrites.txo = s.txoFinal (s.memRead .txb 0 s.txBodyLen.toNat) := by
  let at' := fun (m : Store) (ts : List Byte) (d : Nat) => { s with txo := m, tsIn := ts, draws := d }
  have h2 : ∃ ts d, s.encodeHead.encodeTimestamp = at' s.txoTimestamp ts d := by
    unfold State.encodeTimestamp State.txoTimestamp
    cases ht : s.tsEn with
    | true =>
      rw [if_pos (by exact ht), if_pos (by rfl)]
      exact ⟨_, _, rfl⟩
    | false =>
      rw [if_neg (by exact fun h => Bool.noConfusion (ht.symm.trans h)), if_neg (by simp)]
      exact ⟨_, _, rfl⟩
  obtain ⟨ts, d, h2⟩ := h2
  have h6 : s.encodeHead.encodeTimestamp.encodeLength.encodeBody.encodeZeroFill.encodeControl
      = at' (s.txoTrailer (s.memRead .txb 0 s.txBodyLen.toNat)) ts d := by
    rw [h2]
    unfold State.encodeControl State.txoTrailer
    by_cases hc : 0 < s.wCtl
    · rw [if_pos (by exact hc), if_pos hc]; rfl
    · rw [if_neg (by exact hc), if_neg hc]; rfl
  rw [State.encodeWrites, h6]
  unfold State.encodeIntegrity State.txoFinal
  cases hi : s.intEn with
  | true => rw [if_pos (by exact hi), if_pos (by rfl)]; rfl
  | false => rw [if_neg (by exact fun h => Bool.noConfusion (hi.symm.trans h)), if_neg (by simp)]

@[simp] theorem tsBytes_length (given : List Byte) (c n : Nat) : (tsBytes given c n).length = n := by
  induction n generalizing given c with
  | zero => rfl
  | succ n ih => cases given <;> simp [tsBytes, ih]

theorem tsBytes_of_given (given : List Byte) (c n : Nat) (h : n ≤ given.length) : tsBytes given c n = given.take n := by
  induction n generalizing given c with
  | zero => rfl
  | succ n ih =>
    cases given with
    | nil => simp at h
    | cons b rest => simp [tsBytes, ih rest c (by simpa using h)]

@[simp] theorem hashAttached_length (w : Nat) (data : List Byte) : (hashAttached w data).length = w := by
  simp [hashAttached]

@[simp] theorem marker_length (s : State) : s.marker.length = s.wFs := by simp [State.marker]

/-- HASH answers exactly as many bytes as the integrity field has (41_integrity_unit.md R120). -/
theorem hashBytes_length (u : HashUnit) (w : Nat) (data : List Byte) : (hashBytes u w data).length = w := by
  unfold hashBytes
  split
  · simp
  · split
    next hw => rw [hw]; rfl
    next => simp
  · split
    next hw => rw [hw]; rfl
    next => simp
  · split
    next hw => rw [hw]; rfl
    next => simp

@[simp] theorem hash_length (s : State) (data : List Byte) : (s.hash data).length = s.wInt := hashBytes_length ..

/-! ### Bytes that hold after a write -/

theorem storeHolds_storeWrite_self (m : Store) (a : Nat) (bs : List Byte) : storeHolds (storeWrite m a bs) a bs := by
  intro i hi
  rw [storeGet_storeWrite_inside _ _ _ _ hi]
  simp [hi]

theorem storeHolds_storeWrite_other (m : Store) (a b : Nat) (bs cs : List Byte) (h : storeHolds m a bs)
    (hd : a + bs.length ≤ b ∨ b + cs.length ≤ a) : storeHolds (storeWrite m b cs) a bs := by
  intro i hi
  rw [storeGet_storeWrite_outside _ _ _ _ (by omega)]
  exact h i hi

theorem storeRead_of_holds (m : Store) (c : Nat → Byte) (a : Nat) (bs : List Byte) (h : storeHolds m a bs) :
    storeRead m c a bs.length = bs := by
  apply List.ext_getElem (by simp)
  intro i h1 h2
  rw [storeRead_getElem, h i h2]
  simp [h2]

theorem storeWritten_of_holds (m : Store) (a : Nat) (bs : List Byte) (h : storeHolds m a bs) :
    storeWritten m a bs.length = true := by
  rw [storeWritten_iff]
  intro i hi
  rw [h i hi]
  simp [hi]

/-! ### TXO byte by byte -/

/-- TXO before the trailer, byte by byte: the last of the fields that covers an index gives its byte. -/
theorem txoTimestamp_get (s : State) (hc : codecWidth s.wCmd = true) (x : Nat) :
    storeGet s.txoTimestamp x =
      if s.tsEn = true ∧ s.offTs ≤ x ∧ x < s.offTs + s.wTs then (tsBytes s.tsIn s.draws s.wTs)[x - s.offTs]?
      else if s.offCmd ≤ x ∧ x < s.offCmd + s.wCmd then (encBytes s.params.byteOrder s.wCmd s.txCmd)[x - s.offCmd]?
      else if x < s.wFs then s.marker[x]?
      else storeGet s.txo x := by
  have pc : putfBytes s.params.byteOrder s.txCmd s.wCmd = encBytes s.params.byteOrder s.wCmd s.txCmd := by
    simp [putfBytes, hc]
  unfold State.txoTimestamp State.txoHead
  rw [pc]
  cases ht : s.tsEn with
  | true =>
    rw [if_pos rfl, storeGet_storeWrite, storeGet_storeWrite, storeGet_storeWrite]
    simp only [tsBytes_length, encBytes_length, marker_length, Nat.zero_add, Nat.zero_le, true_and, Nat.sub_zero]
  | false =>
    rw [if_neg (by simp), storeGet_storeWrite, storeGet_storeWrite]
    simp only [encBytes_length, marker_length, Nat.zero_add, Nat.zero_le, true_and, Nat.sub_zero]
    simp

/-- TXO with the trailer, before the integrity value. -/
theorem txoTrailer_get (s : State) (hl : s.cfgLegal = true) (body : List Byte)
    (hb : body.length = s.txBodyLen.toNat) (x : Nat) :
    storeGet (s.txoTrailer body) x =
      if s.offCtl s.txBodyLen.toNat ≤ x ∧ x < s.offCtl s.txBodyLen.toNat + s.wCtl then
        (encBytes s.params.byteOrder s.wCtl s.txCtl)[x - s.offCtl s.txBodyLen.toNat]?
      else if s.offInt s.txBodyLen.toNat ≤ x ∧ x < s.offInt s.txBodyLen.toNat + s.wInt then some 0
      else if s.hdr ≤ x ∧ x < s.hdr + s.txBodyLen.toNat then body[x - s.hdr]?
      else if s.offLen ≤ x ∧ x < s.offLen + s.wLen then
        (encBytes s.params.byteOrder s.wLen s.txBodyLen)[x - s.offLen]?
      else storeGet s.txoTimestamp x := by
  obtain ⟨_, _, hn, hk, _, _⟩ := (cfgLegal_iff s).mp hl
  have pl : putfBytes s.params.byteOrder s.txBodyLen s.wLen = encBytes s.params.byteOrder s.wLen s.txBodyLen := by
    simp [putfBytes, hn]
  have base : storeGet (storeWrite (storeWrite (storeWrite s.txoTimestamp s.offLen
        (putfBytes s.params.byteOrder s.txBodyLen s.wLen)) s.hdr body) (s.offInt s.txBodyLen.toNat)
        (List.replicate s.wInt 0#8)) x =
      if s.offInt s.txBodyLen.toNat ≤ x ∧ x < s.offInt s.txBodyLen.toNat + s.wInt then some 0
      else if s.hdr ≤ x ∧ x < s.hdr + s.txBodyLen.toNat then body[x - s.hdr]?
      else if s.offLen ≤ x ∧ x < s.offLen + s.wLen then
        (encBytes s.params.byteOrder s.wLen s.txBodyLen)[x - s.offLen]?
      else storeGet s.txoTimestamp x := by
    rw [storeGet_storeWrite, storeGet_storeWrite, storeGet_storeWrite, pl, hb]
    simp only [List.length_replicate, encBytes_length]
    by_cases h1 : s.offInt s.txBodyLen.toNat ≤ x ∧ x < s.offInt s.txBodyLen.toNat + s.wInt
    · rw [if_pos h1, if_pos h1, List.getElem?_replicate, if_pos (by omega)]; rfl
    · rw [if_neg h1, if_neg h1]
  unfold State.txoTrailer
  simp only
  by_cases h0 : 0 < s.wCtl
  · have pk : putfBytes s.params.byteOrder s.txCtl s.wCtl = encBytes s.params.byteOrder s.wCtl s.txCtl := by
      simp [putfBytes, hk.resolve_left (by omega)]
    rw [if_pos h0, storeGet_storeWrite, pk, encBytes_length, base]
  · rw [if_neg h0]
    conv_rhs => rw [if_neg (by omega)]
    exact base

/-- TXO after ENCODE: the integrity value stands over the zero fill. -/
theorem txoFinal_get (s : State) (body : List Byte) (x : Nat) :
    storeGet (s.txoFinal body) x =
      if s.intEn = true ∧ s.offInt s.txBodyLen.toNat ≤ x ∧ x < s.offInt s.txBodyLen.toNat + s.wInt then
        (s.hash (storeRead (s.txoTrailer body) (s.held .txo) s.offCmd (s.hashLen s.txBodyLen.toNat)))[x - s.offInt s.txBodyLen.toNat]?
      else storeGet (s.txoTrailer body) x := by
  unfold State.txoFinal
  cases hi : s.intEn with
  | true => rw [if_pos rfl, storeGet_storeWrite, hash_length]; simp
  | false => simp

/-- The bytes the integrity value covers are those ENCODE leaves in TXO. -/
theorem txoFinal_hashed (s : State) (body : List Byte) (held : Nat → Byte) :
    storeRead (s.txoFinal body) held s.offCmd (s.hashLen s.txBodyLen.toNat) =
      storeRead (s.txoTrailer body) held s.offCmd (s.hashLen s.txBodyLen.toNat) := by
  apply storeRead_congr
  intro i hi
  rw [txoFinal_get, if_neg]
  simp only [State.offCmd, State.offInt, State.hdr, State.hashLen] at *
  omega

/-- TXO after an ENCODE that is carried out. -/
theorem encodeFrame_txo (s : State) : s.encodeFrame.txo = s.txoFinal (s.memRead .txb 0 s.txBodyLen.toNat) := by
  rw [encodeFrame_eq]; exact encodeWrites_txo s

/-- ENCODE that is carried out keeps the canonical form: every write lies below TOTAL(L). -/
theorem txoFinal_wf (s : State) (body : List Byte) (c : Nat) (hb : body.length = s.txBodyLen.toNat)
    (hc : s.total s.txBodyLen.toNat ≤ c) (h : Memory.wf s.txo = true ∧ storeBelow s.txo c = true) :
    Memory.wf (s.txoFinal body) = true ∧ storeBelow (s.txoFinal body) c = true := by
  have step : ∀ (m : Store) (a : Nat) (bs : List Byte), (Memory.wf m = true ∧ storeBelow m c = true) → a + bs.length ≤ c →
      (Memory.wf (storeWrite m a bs) = true ∧ storeBelow (storeWrite m a bs) c = true) :=
    fun m a bs hm ha => ⟨wf_storeWrite _ _ _ hm.1, storeBelow_storeWrite _ _ _ _ hm.2 ha⟩
  have pl := fun v w => putfBytes_length s.params.byteOrder v w
  simp only [State.total, State.hdr] at hc
  have h1 : Memory.wf s.txoHead = true ∧ storeBelow s.txoHead c = true := by
    refine step _ _ _ (step _ _ _ h ?_) ?_
    · rw [marker_length]; omega
    · have := pl s.txCmd s.wCmd
      simp only [State.offCmd]; omega
  have h2 : Memory.wf s.txoTimestamp = true ∧ storeBelow s.txoTimestamp c = true := by
    unfold State.txoTimestamp
    split
    · refine step _ _ _ h1 ?_
      rw [tsBytes_length]; simp only [State.offTs]; omega
    · exact h1
  have h3 : Memory.wf (s.txoTrailer body) = true ∧ storeBelow (s.txoTrailer body) c = true := by
    have h4 := step _ _ _ (step _ _ _ (step s.txoTimestamp s.offLen (putfBytes s.params.byteOrder s.txBodyLen s.wLen) h2
        (by have := pl s.txBodyLen s.wLen; simp only [State.offLen]; omega)) (show s.hdr + body.length ≤ c by
          rw [hb]; simp only [State.hdr]; omega))
      (show s.offInt s.txBodyLen.toNat + (List.replicate s.wInt 0#8).length ≤ c by
        rw [List.length_replicate]; simp only [State.offInt, State.hdr]; omega)
    unfold State.txoTrailer
    simp only
    split
    · refine step _ _ _ h4 ?_
      have := pl s.txCtl s.wCtl
      simp only [State.offCtl, State.hdr]; omega
    · exact h4
  unfold State.txoFinal
  split
  · refine step _ _ _ h3 ?_
    rw [hash_length]; simp only [State.offInt, State.hdr]; omega
  · exact h3

end Sys2Proof.Machine
end

