-- ==== Sys2Proof/Laws/Isolation.lean ====
section
/-! SUPPORT. Which stores an instruction does not read (spec 10_state.md R23, R37): other contents of such a store go through
it unchanged. -/

namespace Sys2Proof.Machine

/-- The outcome with `f` applied to its next state. -/
def mapNext (f : State → State) : Host.Outcome State Fault Refusal → Host.Outcome State Fault Refusal
  | .next s => .next (f s)
  | .fault r => .fault r
  | .refused r => .refused r

@[simp] theorem mapNext_next (f : State → State) (s : State) : mapNext f (.next s) = .next (f s) := rfl
@[simp] theorem mapNext_fault (f : State → State) (r : Fault) : mapNext f (.fault r) = .fault r := rfl

/-! ### FEED reads neither TXB nor TXO -/

theorem countRun_withStore (s : State) (k : StoreId) (m : Store) (b : Byte) (hk : k ≠ .buf) :
    (s.withStore k m).countRun b = (s.countRun b).withStore k m := by
  unfold State.countRun
  rw [apply_ite (fun u : State => u.withStore k m)]
  cases k <;> first | exact absurd rfl hk | rfl

theorem fireReset_withStore (s : State) (k : StoreId) (m : Store) (hk : k ≠ .buf) :
    (s.withStore k m).fireReset = s.fireReset.withStore k m := by
  unfold State.fireReset
  rw [apply_ite (fun u : State => u.withStore k m)]
  cases k <;> first | exact absurd rfl hk | rfl

theorem stage2_withStore (s : State) (k : StoreId) (m : Store) (hk : k ≠ .buf) :
    (s.withStore k m).stage2 = s.stage2.withStore k m := by
  unfold State.stage2
  rw [apply_ite (fun u : State => u.withStore k m), apply_ite (fun u : State => u.withStore k m)]
  cases k <;> first | exact absurd rfl hk | rfl

theorem stage3_withStore (s : State) (k : StoreId) (m : Store) (hk : k ≠ .buf) :
    (s.withStore k m).stage3 = s.stage3.withStore k m := by
  unfold State.stage3
  rw [apply_ite (fun u : State => u.withStore k m), apply_ite (fun u : State => u.withStore k m)]
  cases k <;> first | exact absurd rfl hk | rfl

theorem stage4_withStore (s : State) (k : StoreId) (m : Store) (hk : k ≠ .buf) :
    (s.withStore k m).stage4 = s.stage4.withStore k m := by
  unfold State.stage4
  rw [apply_ite (fun u : State => u.withStore k m), apply_ite (fun u : State => u.withStore k m),
    apply_ite (fun u : State => u.withStore k m), apply_ite (fun u : State => u.withStore k m)]
  cases k <;> first | exact absurd rfl hk | rfl

theorem append_withStore (s : State) (k : StoreId) (m : Store) (b : Byte) (hk : k ≠ .buf) :
    (s.withStore k m).append b = (s.append b).withStore k m := by
  cases k <;> first | exact absurd rfl hk | rfl

theorem takeByte_withStore (s : State) (k : StoreId) (m : Store) (b : Byte) (hk : k ≠ .buf) :
    (s.withStore k m).takeByte b = mapNext (·.withStore k m) (s.takeByte b) := by
  unfold State.takeByte
  rw [append_withStore _ _ _ _ hk, stage2_withStore _ _ _ hk, stage3_withStore _ _ _ hk, stage4_withStore _ _ _ hk,
    apply_ite (mapNext _), apply_ite (mapNext _)]
  cases k <;> first | exact absurd rfl hk | rfl

/-- FEED reads neither TXB nor TXO. -/
theorem execFeed_withStore (s : State) (k : StoreId) (m : Store) (b : Byte) (hk : k ≠ .buf) :
    execFeed b (s.withStore k m) = mapNext (·.withStore k m) (execFeed b s) := by
  have hc : ((s.withStore k m).respond 0).countRun b = ((s.respond 0).countRun b).withStore k m := by
    rw [← countRun_withStore _ _ _ _ hk]
    cases k <;> rfl
  unfold execFeed
  rw [hc, fireReset_withStore _ _ _ hk, takeByte_withStore _ _ _ _ hk, apply_ite (mapNext _), apply_ite (mapNext _)]
  cases k <;> first | exact absurd rfl hk | rfl

/-! ### ENCODE does not read BUF -/

theorem encodeTimestamp_withBuf (s : State) (m : Store) :
    (s.withStore .buf m).encodeTimestamp = s.encodeTimestamp.withStore .buf m := by
  unfold State.encodeTimestamp
  rw [apply_ite (fun u : State => u.withStore .buf m)]
  rfl

theorem encodeControl_withBuf (s : State) (m : Store) :
    (s.withStore .buf m).encodeControl = s.encodeControl.withStore .buf m := by
  unfold State.encodeControl
  rw [apply_ite (fun u : State => u.withStore .buf m)]
  rfl

theorem encodeIntegrity_withBuf (s : State) (m : Store) :
    (s.withStore .buf m).encodeIntegrity = s.encodeIntegrity.withStore .buf m := by
  unfold State.encodeIntegrity
  rw [apply_ite (fun u : State => u.withStore .buf m)]
  rfl

theorem encodeFrame_withBuf (s : State) (m : Store) :
    (s.withStore .buf m).encodeFrame = s.encodeFrame.withStore .buf m := by
  have h1 : (s.withStore .buf m).encodeHead = s.encodeHead.withStore .buf m := rfl
  have h2 : ∀ u : State, (u.withStore .buf m).encodeLength = u.encodeLength.withStore .buf m := fun _ => rfl
  have h3 : ∀ u : State, (u.withStore .buf m).encodeBody = u.encodeBody.withStore .buf m := fun _ => rfl
  have h4 : ∀ u : State, (u.withStore .buf m).encodeZeroFill = u.encodeZeroFill.withStore .buf m := fun _ => rfl
  have h5 : ∀ u : State, (u.withStore .buf m).encodeResult = u.encodeResult.withStore .buf m := fun _ => rfl
  unfold State.encodeFrame
  rw [h1, encodeTimestamp_withBuf, h2, h3, h4, encodeControl_withBuf, encodeIntegrity_withBuf, h5]

/-- ENCODE does not read BUF. -/
theorem execEncode_withBuf (s : State) (m : Store) :
    execEncode (s.withStore .buf m) = mapNext (·.withStore .buf m) (execEncode s) := by
  unfold execEncode
  rw [encodeFrame_withBuf, apply_ite (mapNext _), apply_ite (mapNext _), apply_ite (mapNext _)]
  rfl

/-! ### The other commands and the codec taken alone -/

/-- CFGWR reads no store. -/
theorem execCfgwr_withStore (r : BitVec 8) (v : Word) (s : State) (k : StoreId) (m : Store) :
    execCfgwr r v (s.withStore k m) = mapNext (·.withStore k m) (execCfgwr r v s) := by
  have hp : (s.withStore k m).params = s.params := by cases k <;> rfl
  have hw : ∀ g, ((s.withStore k m).regWrite g v).respond 0 = ((s.regWrite g v).respond 0).withStore k m := by
    intro g; cases g <;> cases k <;> rfl
  have he : (s.withStore k m).enable = s.enable.withStore k m := by
    unfold State.enable
    rw [apply_ite (fun u : State => u.withStore k m)]
    cases k <;> rfl
  have hc : ((s.withStore k m).writeCtrl v).respond 0 = ((s.writeCtrl v).respond 0).withStore k m := by
    have hr : ∀ u : State, (u.respond 0).withStore k m = (u.withStore k m).respond 0 := by intro u; cases k <;> rfl
    rw [hr]
    congr 1
    unfold State.writeCtrl
    rw [he, apply_ite (fun u : State => u.withStore k m), apply_ite (fun u : State => u.withStore k m),
      apply_ite (fun u : State => u.withStore k m)]
    cases k <;> rfl
  unfold execCfgwr
  rw [hp]
  cases regOf s.params r with
  | none => cases k <;> rfl
  | some g =>
    simp only
    cases g.access with
    | ro => cases k <;> rfl
    | rw => simp only [hw]; rfl
    | rwf =>
      simp only [hw]
      rw [apply_ite (mapNext _)]
      cases k <;> rfl
    | w1c => cases k <;> rfl
    | control => simp only [hc]; rfl

/-- CFGRD reads no store. -/
theorem execCfgrd_withStore (r : BitVec 8) (s : State) (k : StoreId) (m : Store) :
    execCfgrd r (s.withStore k m) = mapNext (·.withStore k m) (execCfgrd r s) := by
  have hp : (s.withStore k m).params = s.params := by cases k <;> rfl
  unfold execCfgrd
  rw [hp]
  cases regOf s.params r with
  | none => cases k <;> rfl
  | some g => cases g <;> cases k <;> rfl

/-- The codec taken alone reads no store of the block. -/
theorem putfAlone_withStore (s : State) (w : Nat) (k : StoreId) (m : Store) :
    (s.withStore k m).putfAlone w = mapNext (·.withStore k m) (s.putfAlone w) := by
  unfold State.putfAlone
  rw [apply_ite (mapNext _)]
  cases k <;> rfl

theorem getfAlone_withStore (s : State) (w : Nat) (k : StoreId) (m : Store) :
    (s.withStore k m).getfAlone w = mapNext (·.withStore k m) (s.getfAlone w) := by
  unfold State.getfAlone
  rw [apply_ite (mapNext _)]
  cases k <;> rfl

/-- TXRD reads neither BUF nor TXB. -/
theorem execTxrd_withStore (i : BitVec 16) (s : State) (k : StoreId) (m : Store) (hk : k ≠ .txo) :
    execTxrd i (s.withStore k m) = mapNext (·.withStore k m) (execTxrd i s) := by
  unfold execTxrd
  rw [apply_ite (mapNext _)]
  cases k <;> first | exact absurd rfl hk | rfl

/-- TXWR reads no store but the one it writes. -/
theorem execTxwr_withStore (i : BitVec 16) (b : Byte) (s : State) (k : StoreId) (m : Store) (hk : k ≠ .txb) :
    execTxwr i b (s.withStore k m) = mapNext (·.withStore k m) (execTxwr i b s) := by
  unfold execTxwr
  rw [apply_ite (mapNext _)]
  cases k <;> first | exact absurd rfl hk | rfl

end Sys2Proof.Machine
end

