-- ==== Sys2Proof/Laws/PerInstr.lean ====
section
/-! SUPPORT. One lemma per instruction: the word the encoder writes lies in the instruction's row of spec/opcode_table.json
(30_encoding.md R78, R81, R88). -/

namespace Sys2Proof.Laws.OpcodeRow

/-- The rows of the table: `match` under the mask 0xFF0000000000 for a command, the 9-bit `encoding` for a selector. -/
def row : Instr → InWord
  | .feed _ => .host 0x010000000000#48
  | .cfgwr _ _ => .host 0x020000000000#48
  | .cfgrd _ => .host 0x030000000000#48
  | .clear => .host 0x040000000000#48
  | .encode => .host 0x050000000000#48
  | .txwr _ _ => .host 0x060000000000#48
  | .txrd _ => .host 0x070000000000#48
  | .putf1 => .codec 0b100000001#9
  | .putf2 => .codec 0b100000010#9
  | .putf4 => .codec 0b100000100#9
  | .getf1 => .codec 0b000000001#9
  | .getf2 => .codec 0b000000010#9
  | .getf4 => .codec 0b000000100#9

/-- A word cut down to the bits the table's mask keeps. -/
def masked : InWord → InWord
  | .host w => .host (w &&& 0xFF0000000000#48)
  | .codec u => .codec u

/-- The encoded word is a word of the instruction's row. -/
def Statement (i : Instr) : Prop := masked (Sys2Proof.encode i) = row i

/-- The mask keeps the operation code and nothing else. -/
theorem masked_hostWord (op a : BitVec 8) (d : Word) :
    hostWord op a d &&& 0xFF0000000000#48 = hostWord op 0#8 0#32 := by
  have hm : ∀ i, (0xFF0000000000#48).getLsbD i = (decide (40 ≤ i) && decide (i < 48)) := by
    intro i
    by_cases hi : i < 48
    · revert i; decide
    · simp [BitVec.getLsbD_of_ge _ i (by omega : 48 ≤ i), hi]
  apply BitVec.eq_of_getLsbD_eq
  intro i hi
  simp only [hostWord, BitVec.getLsbD_and, hm, BitVec.getLsbD_append, hi, decide_true, Bool.and_true]
  by_cases h : 40 ≤ i
  · rw [if_neg (by omega), if_neg (by omega)]
    simp [h]
  · have h0 : decide (40 ≤ i) = false := decide_eq_false h
    rw [h0, Bool.and_false]
    rw [if_pos (by omega)]
    split <;> simp

theorem feed (b : Byte) : Statement (.feed b) := congrArg InWord.host (masked_hostWord _ _ _)
theorem cfgwr (r : BitVec 8) (v : Word) : Statement (.cfgwr r v) := congrArg InWord.host (masked_hostWord _ _ _)
theorem cfgrd (r : BitVec 8) : Statement (.cfgrd r) := congrArg InWord.host (masked_hostWord _ _ _)
theorem clear : Statement .clear := congrArg InWord.host (masked_hostWord _ _ _)
theorem encode : Statement .encode := congrArg InWord.host (masked_hostWord _ _ _)
theorem txwr (i : BitVec 16) (b : Byte) : Statement (.txwr i b) := congrArg InWord.host (masked_hostWord _ _ _)
theorem txrd (i : BitVec 16) : Statement (.txrd i) := congrArg InWord.host (masked_hostWord _ _ _)
theorem putf1 : Statement .putf1 := rfl
theorem putf2 : Statement .putf2 := rfl
theorem putf4 : Statement .putf4 := rfl
theorem getf1 : Statement .getf1 := rfl
theorem getf2 : Statement .getf2 := rfl
theorem getf4 : Statement .getf4 := rfl

end Sys2Proof.Laws.OpcodeRow
end

