-- ==== Sys2Proof/Laws/Progress.lean ====
section
/-! SUPPORT. What a step can do, said once, and the parts of the invariant: which fields they depend on, and what sets them
up again. -/

namespace Sys2Proof.Machine

/-! ### One step -/

/-- A command word decodes to a command or to an illegal op. -/
theorem decodeHost_ne_reserved (w : BitVec 48) (d : Bool) (x : BitVec 8) : decodeHost w ≠ .reservedWidth d x := by
  intro h
  unfold decodeHost at h
  repeat' split at h
  all_goals cases h

/-- A selector decodes to a micro-operation or to a reserved width. -/
theorem decodeCodec_ne_illegal (u : BitVec 9) (op : BitVec 8) : decodeCodec u ≠ .illegalOp op := by
  intro h
  unfold decodeCodec at h
  repeat' split at h
  all_goals cases h

/-- A command word never decodes to a PUTF. -/
theorem decodeHost_ne_putf (w : BitVec 48) (i : Instr) (h : decodeHost w = .instr i) :
    ¬ (i = .putf1 ∨ i = .putf2 ∨ i = .putf4) := by
  unfold decodeHost at h
  repeat' split at h
  all_goals first | cases h; simp | cases h

/-- Everything a step can do. -/
theorem step_cases (s t : State) (h : step s = .next t) :
    (s.inputs = [] ∧ t = s) ∨
    (∃ w rest i, s.inputs = .command w :: rest ∧ decodeHost w = .instr i ∧ exec i { s with inputs := rest } = .next t) ∨
    (∃ w rest, s.inputs = .command w :: rest ∧ t = State.refuseCommand { s with inputs := rest }) ∨
    (∃ u ops rest i, s.inputs = .micro u ops :: rest ∧ decodeCodec u = .instr i ∧
      exec i { s with inputs := rest, codec := ops } = .next t) ∨
    (∃ u ops rest, s.inputs = .micro u ops :: rest ∧ t = { s with inputs := rest, codec := ops }) ∨
    (∃ rest, s.inputs = .hardReset :: rest ∧ t = State.hardwareReset { s with inputs := rest }) := by
  unfold step at h
  split at h
  next h1 => cases h; exact .inl ⟨h1, rfl⟩
  next w rest h1 =>
    simp only [runWord, decode] at h
    cases hd : decodeHost w with
    | instr i => rw [hd] at h; exact .inr (.inl ⟨w, rest, i, h1, hd, h⟩)
    | illegalOp o => rw [hd] at h; cases h; exact .inr (.inr (.inl ⟨w, rest, h1, rfl⟩))
    | reservedWidth d x => exact absurd hd (decodeHost_ne_reserved w d x)
  next u ops rest h1 =>
    simp only [runWord, decode] at h
    cases hd : decodeCodec u with
    | instr i => rw [hd] at h; exact .inr (.inr (.inr (.inl ⟨u, ops, rest, i, h1, hd, h⟩)))
    | illegalOp o => exact absurd hd (decodeCodec_ne_illegal u o)
    | reservedWidth d x => rw [hd] at h; cases h; exact .inr (.inr (.inr (.inr (.inl ⟨u, ops, rest, h1, rfl⟩))))
  next rest h1 => cases h; exact .inr (.inr (.inr (.inr (.inr ⟨rest, h1, rfl⟩))))

/-! ### The stores through FEED's stages -/

/-- States with the same stores are in canonical form together. -/
theorem wf_of_stores (s t : State) (h : s.memoryWf = true) (hb : t.buf = s.buf) (hx : t.txb = s.txb) (ho : t.txo = s.txo)
    (hp : t.params = s.params) : t.memoryWf = true := by rw [memoryWf_congr s t hb hx ho hp]; exact h

/-- Resynchronisation keeps the stores in canonical form. -/
theorem stage2_wf (s : State) (h : s.memoryWf = true) (hn : s.n.toNat ≤ s.params.cap.toNat) : s.stage2.memoryWf = true := by
  unfold State.stage2
  split
  next hw =>
    split
    · exact h
    · have h1 : (s.memWrite .buf 0 s.window.tail).memoryWf = true := by
        apply memWrite_memoryWf _ _ _ _ h
        simp [State.window, memRead_length, State.capacity]; omega
      exact wf_of_stores _ _ h1 rfl rfl rfl rfl
  next => exact h

/-- The length check keeps the stores in canonical form. -/
theorem stage3_wf (s : State) (h : s.memoryWf = true) : s.stage3.memoryWf = true := by
  unfold State.stage3 State.takeLen
  split
  · split
    · exact wf_of_stores s _ h (by simp) (by simp) (by simp) (by simp)
    · exact wf_of_stores s _ h (by simp) (by simp) (by simp) (by simp)
  · exact h

/-- The completion check keeps the stores in canonical form. -/
theorem stage4_wf (s : State) (h : s.memoryWf = true) : s.stage4.memoryWf = true := by
  have hd : s.dispatch.memoryWf = true := wf_of_stores s _ h (by simp [State.dispatch]) (by simp [State.dispatch]) (by simp [State.dispatch]) (by simp [State.dispatch])
  have hi : s.integrityDrop.memoryWf = true := wf_of_stores s _ h (by simp [State.integrityDrop]) (by simp [State.integrityDrop]) (by simp [State.integrityDrop]) (by simp [State.integrityDrop])
  unfold State.stage4
  repeat' split
  all_goals assumption

/-- Resynchronisation moves only bytes below the marker width. -/
theorem stage2_buf (s : State) (x : Nat) (h : s.n.toNat ≠ s.wFs ∨ s.wFs ≤ x + 1) : storeGet s.stage2.buf x = storeGet s.buf x := by
  unfold State.stage2
  split
  next hn =>
    split
    · simp
    · simp only [State.resync, emit_buf, memWrite_buf_buf]
      apply storeGet_storeWrite_outside
      simp [State.window, memRead_length]; omega
  next => rfl

/-- The length check leaves the buffer alone. -/
theorem stage3_buf (s : State) : s.stage3.buf = s.buf := by
  unfold State.stage3 State.takeLen; repeat' split
  all_goals simp

/-- The completion check leaves the buffer alone. -/
theorem stage4_buf (s : State) : s.stage4.buf = s.buf := by
  unfold State.stage4 State.dispatch State.integrityDrop; repeat' split
  all_goals simp

/-- Resynchronisation answers nothing. -/
theorem stage2_rdata (s : State) : s.stage2.resp.rdata = s.resp.rdata := by
  unfold State.stage2 State.resync; repeat' split
  all_goals simp [State.emit]

/-- The length check answers nothing. -/
theorem stage3_rdata (s : State) : s.stage3.resp.rdata = s.resp.rdata := by
  unfold State.stage3 State.takeLen; repeat' split
  all_goals simp [State.emit]

/-- The completion check answers nothing. -/
theorem stage4_rdata (s : State) : s.stage4.resp.rdata = s.resp.rdata := by
  unfold State.stage4 State.dispatch State.integrityDrop; repeat' split
  all_goals simp [State.emit]

/-! ### The events of FEED's stages -/

/-- Resynchronisation either reports nothing and keeps the count, or reports a resync. -/
theorem stage2_ev (s : State) : (s.stage2.resp.event = s.resp.event ∧ s.stage2.n = s.n) ∨ ∃ d, s.stage2.resp.event = some (.resync d) := by
  unfold State.stage2 State.resync; repeat' split
  · exact .inl (by simp)
  · exact .inr ⟨_, rfl⟩
  · exact .inl ⟨rfl, rfl⟩

/-- The length check either reports nothing new or restarts the frame. -/
theorem stage3_ev (s : State) : (s.stage3.resp.event = s.resp.event) ∨ s.stage3.n = 0 := by
  unfold State.stage3 State.takeLen; repeat' split
  · exact .inr rfl
  · exact .inl (by simp)
  · exact .inl rfl

/-- The completion check either reports nothing new or restarts the frame. -/
theorem stage4_ev (s : State) : (s.stage4.resp.event = s.resp.event ∧ s.stage4.n = s.n) ∨ s.stage4.n = 0 := by
  unfold State.stage4 State.dispatch State.integrityDrop; repeat' split
  all_goals first | exact .inr rfl | exact .inl ⟨rfl, rfl⟩

/-! ### The progress part of the invariant -/

/-- The fields the progress invariant depends on. -/
theorem progress_congr (s t : State) (h : s.ProgressOk) (hp : t.params = s.params) (hrs : t.resets = s.resets) (h0 : t.width0 = s.width0) (h1 : t.width1 = s.width1)
   (hft : t.feat = s.feat) (hr : t.rstseq = s.rstseq) (hle : t.lenExact = s.lenExact) (hlm : t.lenMax = s.lenMax) (hfs : t.fs = s.fs)
   (hn : t.n = s.n) (hb : t.bodyLen = s.bodyLen) (hrr : t.rstRun = s.rstRun) (hbuf : t.buf = s.buf) : t.ProgressOk := by
  cases s; cases t
  dsimp only at hp hrs h0 h1 hft hr hle hlm hfs hn hb hrr hbuf
  subst hp hrs h0 h1 hft hr hle hlm hfs hn hb hrr hbuf
  obtain ⟨a,b,c,d,e,f,g⟩ := h
  exact ⟨a,b,c,d,e,f,g⟩

/-- A legal configuration has a command and a length field, of at most four bytes each. -/
theorem legal_pos (s : State) (h : s.cfgLegal = true) : 1 ≤ s.wCmd ∧ 1 ≤ s.wLen ∧ s.wLen ≤ 4 ∧ s.wCmd ≤ 4 := by
  obtain ⟨_, a, b, _, _, _⟩ := (cfgLegal_iff s).mp h
  have := codecWidth_le _ a; have := codecWidth_le _ b; omega

/-- Enabling a legal configuration sets the progress invariant up. -/
theorem enable_progress (s : State) (hl : s.cfgLegal = true) (hc : s.capOk = true) :
   State.ProgressOk { s with en := true, n := 0, bodyLen := 0, rstRun := 0 } := by
  have hp := legal_pos s hl
  constructor
  · exact hl
  · exact hc
  · rfl
  · intro _; show 0 < s.hdr + s.maxBody + s.wInt + s.wCtl; simp only [State.hdr]; omega
  · intro hr; show 0 < s.rstCount.toNat; exact ((cfgLegal_iff s).mp hl).2.2.2.2.2 hr
  · intro h
    have h : s.wFs = 0 := Nat.le_zero.mp h
    have e : ∀ t : State, t.wFs = 0 → t.bufBytes 0 t.wFs = t.marker := by
      intro t h; simp [State.bufBytes, State.memRead, State.marker, h, storeRead]
    exact e _ h
  · intro h
    have h : s.hdr ≤ 0 := h
    simp only [State.hdr] at h; omega

/-- A byte that does not fire the reset sequence leaves its run below the count. -/
theorem runAfter_lt (s : State) (b : Byte) (hp : s.ProgressOk) (hf : ¬ s.fires b) : s.rstEn = true → (s.runAfter b).toNat < s.rstCount.toNat := by
  intro hr
  have h1 := hp.runBound hr
  have h2 : s.runAfter b ≠ s.rstCount := fun h => hf ⟨hr, h⟩
  have h2 : (s.runAfter b).toNat ≠ s.rstCount.toNat := fun h => h2 (BitVec.eq_of_toNat_eq h)
  have h3 : (s.runAfter b).toNat ≤ s.rstCount.toNat := by
    unfold State.runAfter; rw [if_pos hr]
    split
    · have := s.rstCount.isLt
      rw [BitVec.toNat_add]
      have : (s.rstRun.toNat + (1 : BitVec 8).toNat) % 2^8 = s.rstRun.toNat + 1 := Nat.mod_eq_of_lt (by simp; omega)
      omega
    · simp
  omega

/-- A restart at byte 0 keeps the progress invariant. -/
theorem zeroN_progress (s t : State) (h : s.ProgressOk) (hp : t.params = s.params) (hrs : t.resets = s.resets) (h0 : t.width0 = s.width0) (h1 : t.width1 = s.width1)
   (hft : t.feat = s.feat) (hr : t.rstseq = s.rstseq) (hle : t.lenExact = s.lenExact) (hlm : t.lenMax = s.lenMax) (hfs : t.fs = s.fs)
   (hn : t.n = 0) (hrr : s.rstEn = true → t.rstRun.toNat < s.rstCount.toNat) : t.ProgressOk := by
  have e := enable_progress s h.legal h.capOk
  have e2 : State.ProgressOk { s with n := 0, bodyLen := t.bodyLen, rstRun := t.rstRun, buf := t.buf } := by
    have hl := legal_pos s h.legal
    obtain ⟨a,b,c,d,_,f,_⟩ := e
    refine ⟨a, b, rfl, d, hrr, ?_, ?_⟩
    · intro hw
      have hw : s.wFs = 0 := Nat.le_zero.mp hw
      have e : ∀ t : State, t.wFs = 0 → t.bufBytes 0 t.wFs = t.marker := by
        intro t h; simp [State.bufBytes, State.memRead, State.marker, h, storeRead]
      exact e _ hw
    · intro hw
      have hw : s.hdr ≤ 0 := hw
      simp only [State.hdr] at hw; omega
  exact progress_congr _ t e2 hp hrs h0 h1 hft hr hle hlm hfs hn rfl rfl rfl

/-- A length that passes the length check is at most the largest body. -/
theorem len_le_max (s : State) (len : Word) (hlt : len.toNat < 2 ^ (8 * s.wLen)) (hf : s.lenFails len = false) : len.toNat ≤ s.maxBody := by
  rw [lenFails_eq_false_iff] at hf
  unfold State.maxBody State.lim
  split
  next he =>
    rw [← hf.1 he]; omega
  next =>
    split
    next hm =>
      have := hf.2 hm
      omega
    next => omega

/-- Appending a byte leaves the bytes before it as they were. -/
theorem bufBytes_append (s : State) (b : Byte) (a k : Nat) (h : a + k ≤ s.n.toNat) : (s.fed b).bufBytes a k = s.bufBytes a k := by
  unfold State.bufBytes State.memRead State.fed
  exact storeRead_congr _ _ _ _ _ fun i hi => storeGet_storePut_of_ne _ _ _ _ (by omega)

end Sys2Proof.Machine
end

