-- ==== Sys2Proof/Tests/Slice0.lean ====
section
/-! SUPPORT. The model's own tests. Expected values are the spec's: the vectors of 95_test_vectors.md (V, S), the programs of
96_test_programs.md (P), the words of 30_encoding.md. Part 4 shows, for each obligation with hypotheses, a state and operands
that meet them all. -/

namespace Sys2Proof.Tests

open Sys2Proof Sys2Proof.Machine

/-! ### 1. Well-formedness -/

/-- Every check of `Params.wf` refuses an ill-formed value (R5: CAP, N_CMD and TXCAP are at least 1). No term of `Instr` is
ill-formed. -/
theorem test_params_wf : Config.params.wf = true := by decide
theorem test_params_cap_zero_refused : Params.wf { Config.params with cap := 0 } = false := by decide
theorem test_params_ncmd_zero_refused : Params.wf { Config.params with nCmd := 0 } = false := by decide
theorem test_params_txcap_zero_refused : Params.wf { Config.params with txcap := 0 } = false := by decide

/-! ### 2. Words, written bit by bit from 30_encoding.md R77, R78, R81 -/

theorem test_decode_feed :
    decode (.host 0b00000001_10101010_00000000000000000000000000000000#48) = .instr (.feed 0xAA#8) := by decide
theorem test_decode_cfgwr :
    decode (.host 0b00000010_00000010_00000001000000000000000100000010#48) = .instr (.cfgwr 2#8 0x01000102#32) := by decide
theorem test_decode_cfgrd :
    decode (.host 0b00000011_00100000_00000000000000000000000000000000#48) = .instr (.cfgrd 0x20#8) := by decide
theorem test_decode_clear :
    decode (.host 0b00000100_00000000_00000000000000000000000000000000#48) = .instr .clear := by decide
theorem test_decode_encode :
    decode (.host 0b00000101_00000000_00000000000000000000000000000000#48) = .instr .encode := by decide
theorem test_decode_txwr :
    decode (.host 0b00000110_10000001_00000000000000001000000000000011#48) = .instr (.txwr 0x8003#16 0x81#8) := by decide
theorem test_decode_txrd :
    decode (.host 0b00000111_00000000_00000000000000001000000000000101#48) = .instr (.txrd 0x8005#16) := by decide
theorem test_decode_putf1 : decode (.codec 0b1_00000001#9) = .instr .putf1 := by decide
theorem test_decode_putf2 : decode (.codec 0b1_00000010#9) = .instr .putf2 := by decide
theorem test_decode_putf4 : decode (.codec 0b1_00000100#9) = .instr .putf4 := by decide
theorem test_decode_getf1 : decode (.codec 0b0_00000001#9) = .instr .getf1 := by decide
theorem test_decode_getf2 : decode (.codec 0b0_00000010#9) = .instr .getf2 := by decide
theorem test_decode_getf4 : decode (.codec 0b0_00000100#9) = .instr .getf4 := by decide
/-- R80, R81: what is no row is refused by name. -/
theorem test_decode_illegal_op : decode (.host 0x080000000000#48) = .illegalOp 8#8 := by decide
theorem test_decode_reserved_width : decode (.codec 0b1_00000011#9) = .reservedWidth true 3#8 := by decide
/-- The table's numbering (log 20). -/
theorem test_table_word_command : decodeTableWord 48 0x01AA00000000 = some (.feed 0xAA#8) := by decide
theorem test_table_word_selector : decodeTableWord 16 0x104 = some .putf4 := by decide
theorem test_table_word_no_row : decodeTableWord 16 0x304 = none := by decide
/-- R86: `FEED 0xAA` is `01AA00000000`; R87: `NOP` is `CFGRD PARAM0`. -/
theorem test_word_text : wordText 0x01AA00000000#48 = "01AA00000000" := by decide
theorem test_command_text : commandText Config.params (.cfgrd 0x41#8) = some "CFGRD CT_HID[0]" := by decide
theorem test_pseudo_entry :
    present (Pseudo.expand (.entry 0 5#32 1#16)) = [.command 0x024000000005#48, .command 0x024100000001#48] := by decide
/-- R83: the codes of the events. -/
theorem test_event_codes :
    [Event.resetSeq, .resync 0, .lenDrop 0, .intDrop, .unknownCmd 0, .overflow].map Event.code = [1, 2, 3, 4, 6, 7] := by decide

/-! ### 3. One step each -/

/-- The next state, if there is one. -/
def nextOf : Host.Outcome State Fault Refusal → Option State
  | .next t => some t
  | .fault _ => none
  | .refused _ => none

/-- The source's example configuration (95_test_vectors.md S1), enabled: W_FS 2, W_CMD 1, W_LEN 1, FS = AA BB, table entry 0 =
(5, hid 1), USER = 0x1000. -/
def ready : State :=
  { State.reset with
    en := true, width0 := 0x01000102#32, user := 0x1000#32
    fs := ((Vector.replicate 16 0#8).set 0 0xAA#8).set 1 0xBB#8
    ct := (Vector.replicate 32 { code := 0#32, hid := 0#16 }).set 0 { code := 5#32, hid := 1#16 }
    txCmd := 5#32, txBodyLen := 2#32, txArgs := 0x1012C#17, txb := [(0, 0x01#8), (1, 0x02#8)] }

/-- `ready` with the bytes `bs` accumulated. -/
def received (bs : List Byte) (len : Word) : State :=
  { ready with buf := storeWrite [] 0 bs, n := BitVec.ofNat 16 bs.length, bodyLen := len }

/-- P1: the last byte of the example frame dispatches. -/
theorem test_feed_dispatches :
    (nextOf (exec (.feed 0x02#8) (received [0xAA, 0xBB, 0x05, 0x02, 0x01] 2))).map (fun t => (t.resp.event, t.n)) =
      some (some (.dispatch
        { hid := 1, index := 0, codeVal := 5, tsOff := 3, ts := [], bodyLen := 2, bodyOff := 4, body := [1, 2], ctl := 0
          user := 0x1000 }), 0) := by decide
/-- R158 on the example's marker: AA then AA is no marker; one AA is dropped and one is kept. -/
theorem test_feed_resyncs :
    (nextOf (exec (.feed 0xAA#8) (received [0xAA] 0))).map (fun t => (t.resp.event, t.n, t.buf)) =
      some (some (.resync 0xAA), 1, [(0, 0xAA), (1, 0xAA)]) := by decide
/-- R195: reserved bits are dropped. -/
theorem test_cfgwr_drops_reserved_bits :
    (nextOf (exec (.cfgwr 0x04#8 0xFFFFFFFF#32) State.reset)).map (fun t => (t.feat, t.resp)) =
      some (0x3F, ⟨0, none⟩) := by decide
/-- V110: the reset configuration is refused. -/
theorem test_cfgwr_enable_refused :
    (nextOf (exec (.cfgwr 0#8 1#32) State.reset)).map (fun t => (t.en, t.status)) = some (false, 1) := by decide
/-- P1: PARAM0 reads 285475116. -/
theorem test_cfgrd_param0 :
    (nextOf (exec (.cfgrd 0x09#8) State.reset)).map (fun t => t.resp.rdata) = some 285475116 := by decide
/-- R193: CT entries at and above N_CMD = 8 are unmapped. -/
theorem test_cfgrd_unmapped :
    (nextOf (exec (.cfgrd 0x50#8) State.reset)).map (fun t => (t.resp.rdata, t.status)) = some (0, 4) := by decide
/-- R200: the table and the enable stay. -/
theorem test_clear :
    (nextOf (exec .clear (received [0xAA, 0xBB] 7))).map (fun t => (t.n, t.bodyLen, t.en)) = some (0, 0, true) := by decide
/-- V200 (S1): the source's example. -/
theorem test_encode_example :
    (nextOf (exec .encode ready)).map (fun t => (t.resp.rdata, t.txLen, t.txo.map Prod.snd)) =
      some (6, 6, [0xAA, 0xBB, 0x05, 0x02, 0x01, 0x02]) := by decide
/-- V202: one byte too little room. -/
theorem test_encode_no_room :
    (nextOf (exec .encode { ready with txArgs := 0x10005#17 })).map (fun t => (t.resp.rdata, t.txo)) = some (0, []) := by
  decide
/-- R141 at the last index and one beyond (TXCAP = 300). -/
theorem test_txwr_last_index :
    (nextOf (exec (.txwr 299#16 0x7F#8) State.reset)).map (fun t => (t.txb, t.status)) = some ([(299, 0x7F)], 0) := by decide
theorem test_txwr_out_of_range :
    (nextOf (exec (.txwr 300#16 0x7F#8) State.reset)).map (fun t => (t.txb, t.status)) = some ([], 4) := by decide
/-- R142: the byte, zero-extended. -/
theorem test_txrd :
    (nextOf (exec (.txrd 1#16) { ready with txo := [(1, 0xBB#8)] })).map (fun t => t.resp.rdata) = some 0xBB := by decide

/-- The codec port on the store `l` at offset 1 with value `v`. -/
def codecState (o : ByteOrder) (l : List Byte) (v : Word) : State :=
  { State.resetWith { Config.params with byteOrder := o } with codec := { bytes := l, off := 1, val := v, dst := 7 } }

/-- EE EE EE EE EE EE (95_test_vectors.md 2.1). -/
def sixEE : List Byte := List.replicate 6 0xEE

/-- V19. -/
theorem test_putf1 :
    (nextOf (exec .putf1 (codecState .le sixEE 0x100#32))).map (fun t => t.codec.bytes) =
      some [0xEE, 0x00, 0xEE, 0xEE, 0xEE, 0xEE] := by decide
/-- V18. -/
theorem test_putf2 :
    (nextOf (exec .putf2 (codecState .le sixEE 0x10000#32))).map (fun t => t.codec.bytes) =
      some [0xEE, 0x00, 0x00, 0xEE, 0xEE, 0xEE] := by decide
/-- V20, V21. -/
theorem test_putf4_le :
    (nextOf (exec .putf4 (codecState .le sixEE 0x12345678#32))).map (fun t => t.codec.bytes) =
      some [0xEE, 0x78, 0x56, 0x34, 0x12, 0xEE] := by decide
theorem test_putf4_be :
    (nextOf (exec .putf4 (codecState .be sixEE 0x12345678#32))).map (fun t => t.codec.bytes) =
      some [0xEE, 0x12, 0x34, 0x56, 0x78, 0xEE] := by decide
/-- V27: not sign-extended. -/
theorem test_getf1 :
    (nextOf (exec .getf1 (codecState .le [0, 0x80] 0))).map (fun t => t.codec.dst) = some 0x80 := by decide
/-- V28, V29. -/
theorem test_getf2_le :
    (nextOf (exec .getf2 (codecState .le [0xEE, 0x00, 0x03] 0))).map (fun t => t.codec.dst) = some 0x300 := by decide
theorem test_getf2_be :
    (nextOf (exec .getf2 (codecState .be [0xEE, 0x00, 0x03] 0))).map (fun t => t.codec.dst) = some 3 := by decide
/-- V25. -/
theorem test_getf4 :
    (nextOf (exec .getf4 (codecState .le [0, 0xFF, 0xFF, 0xFF, 0xFF] 0))).map (fun t => t.codec.dst) =
      some 0xFFFFFFFF := by decide
/-- V230, V234: the fixtures of R124. -/
theorem test_hash_fixtures :
    (hashSum8 [0x20, 0x02, 0xAA, 0xBB], hashXor8 [0x20, 0x02, 0xAA, 0xBB], hashSum16 [0x20, 0x02, 0xAA, 0xBB], hashSum16 []) =
      ([0x87], [0x33], [0x87, 0x01], [0x00, 0x00]) := by decide
/-- A step on the word the host places (log 7). -/
theorem test_step_fetches :
    (nextOf (step (State.reset.withFetchWord 48 0x030900000000))).map (fun t => (t.resp.rdata, t.inputs)) =
      some (285475116, []) := by decide

/-! ### 4. Witnesses: the hypotheses of each obligation can be met together

A theorem `witness_X` (and `witness_X_<clause>`) gives a state and operands for the hypotheses of `Obligations.X`, at a boundary
value where a clause has a range. The states are the spec's example configuration with what the clause needs. -/

theorem ready_inv : ready.Inv :=
  ⟨by decide, by decide, fun _ => ⟨by decide, by decide, by decide, by decide, by decide, by decide, by decide⟩⟩

/-- One byte short of the marker. -/
def beforeMarker : State := received [0xAA] 0
theorem beforeMarker_inv : beforeMarker.Inv :=
  ⟨by decide, by decide, fun _ => ⟨by decide, by decide, by decide, by decide, by decide, by decide, by decide⟩⟩

/-- One byte short of the header, with a length policy LEN_MAX = 1. -/
def beforeLength : State := { received [0xAA, 0xBB, 0x05] 9 with feat := 0x20, lenMax := 1 }
theorem beforeLength_inv : beforeLength.Inv :=
  ⟨by decide, by decide, fun _ => ⟨by decide, by decide, by decide, by decide, by decide, by decide, by decide⟩⟩

/-- The same with the policy LEN_EXACT = 3. -/
def exactLength : State := { received [0xAA, 0xBB, 0x05] 9 with feat := 0x10, lenExact := 3 }
theorem exactLength_inv : exactLength.Inv :=
  ⟨by decide, by decide, fun _ => ⟨by decide, by decide, by decide, by decide, by decide, by decide, by decide⟩⟩

/-- The same with no length policy. -/
def anyLength : State := received [0xAA, 0xBB, 0x05] 9
theorem anyLength_inv : anyLength.Inv :=
  ⟨by decide, by decide, fun _ => ⟨by decide, by decide, by decide, by decide, by decide, by decide, by decide⟩⟩

/-- The same in wedge mode. -/
def wedgedLength : State := { anyLength with params := { Config.params with noIntDispatch := false } }
theorem wedgedLength_inv : wedgedLength.Inv :=
  ⟨by decide, by decide, fun _ => ⟨by decide, by decide, by decide, by decide, by decide, by decide, by decide⟩⟩

/-- One byte short of the end of the example frame. -/
def beforeEnd : State := received [0xAA, 0xBB, 0x05, 0x02, 0x01] 2
theorem beforeEnd_inv : beforeEnd.Inv :=
  ⟨by decide, by decide, fun _ => ⟨by decide, by decide, by decide, by decide, by decide, by decide, by decide⟩⟩

/-- One byte short of the end of an empty frame with a one-byte integrity field, SUM8 attached (R124): 05 is right. -/
def beforeIntegrity : State :=
  { received [0xAA, 0xBB, 0x05, 0x00] 0 with
    params := { Config.params with hash := .sum8 }, width1 := 0x0001, feat := 0x01 }
theorem beforeIntegrity_inv : beforeIntegrity.Inv :=
  ⟨by decide, by decide, fun _ => ⟨by decide, by decide, by decide, by decide, by decide, by decide, by decide⟩⟩

/-- Wedge mode (R166, NOINT_DISPATCH = false), one byte short of the end of the example frame. -/
def wedged : State := { beforeEnd with params := { Config.params with noIntDispatch := false } }
theorem wedged_inv : wedged.Inv :=
  ⟨by decide, by decide, fun _ => ⟨by decide, by decide, by decide, by decide, by decide, by decide, by decide⟩⟩

/-- Reset detection on FF, `run` of `count` bytes seen. -/
def resetting (count run : BitVec 8) : State := { ready with feat := 0x04, rstseq := count ++ 0xFF#8, rstRun := run }

theorem witness_DecodeOfEncode : Instr.wf (.txwr 0xFFFF#16 0xFF#8) = true := rfl
theorem witness_IgnoredBitsDoNotAffectTheCommand :
    decode (.host 0x060100000000#48) = .instr (.txwr 0 1) ∧
      (0x0601FFFF0000#48 &&& usedBits (.txwr 0 1) = 0x060100000000#48 &&& usedBits (.txwr 0 1)) ∧
      decode (.codec 0x104#9) = .instr .putf4 := by decide
theorem witness_EveryCommandWordHasOneMeaning :
    255 < 0x100 ∧ 255 < 0x100 ∧ 0xFFFFFFFF < 0x100000000 ∧ 0 < 0x100 ∧ 0 < 0x100000000 := by decide
theorem witness_StepRunsTheDecodedInstruction_command :
    ({ ready with inputs := [.command 0x01AA00000000#48] }).inputs = .command 0x01AA00000000#48 :: [] ∧
      Instr.wf (.feed 0xAA) = true ∧ decode (.host 0x01AA00000000#48) = .instr (.feed 0xAA) := by decide
theorem witness_StepRunsTheDecodedInstruction_micro :
    ({ ready with inputs := [.micro 0x101#9 ready.codec] }).inputs = .micro 0x101#9 ready.codec :: [] ∧
      Instr.wf .putf1 = true ∧ decode (.codec 0x101#9) = .instr .putf1 := by decide
theorem witness_StepRunsTheDecodedInstruction_idle : ready.inputs = [] := rfl
theorem witness_IllegalCommandOnlyRaisesCmdErr_low :
    ({ ready with inputs := [.command 0#48] }).inputs = .command 0#48 :: [] ∧
      ((0#48).toNat / 0x10000000000 = 0 ∨ 8 ≤ (0#48).toNat / 0x10000000000) := by decide
theorem witness_IllegalCommandOnlyRaisesCmdErr_eight :
    (0x080000000000#48).toNat / 0x10000000000 = 0 ∨ 8 ≤ (0x080000000000#48).toNat / 0x10000000000 := by decide
theorem witness_ReservedCodecWidthDoesNothing :
    ({ ready with inputs := [.micro 0x103#9 ready.codec] }).inputs = .micro 0x103#9 ready.codec :: [] ∧
      (0x103#9).toNat % 256 ≠ 1 ∧ (0x103#9).toNat % 256 ≠ 2 ∧ (0x103#9).toNat % 256 ≠ 4 := by decide
theorem witness_HardwareResetGivesResetValues :
    ({ ready with inputs := [.hardReset] }).inputs = .hardReset :: [] := rfl
theorem witness_InvariantKeptByEveryStep :
    ready.Inv ∧ (∃ t, step ready = .next t) := ⟨ready_inv, _, rfl⟩
theorem witness_InvariantKeptByEveryStep_command :
    State.Inv { ready with inputs := [.command 0x01AA00000000#48] } ∧
      ∃ t, step { ready with inputs := [.command 0x01AA00000000#48] } = .next t :=
  ⟨⟨by decide, by decide, fun _ => ⟨by decide, by decide, by decide, by decide, by decide, by decide, by decide⟩⟩,
    _, rfl⟩
theorem witness_MemoryFormKeptByEveryStep : ready.memoryWf = true ∧ ∃ t, step ready = .next t := ⟨by decide, _, rfl⟩
theorem witness_ParametersNeverChange : ∃ t, step ready = .next t := ⟨_, rfl⟩
theorem witness_OverflowNeedsWedgeMode :
    beforeEnd.Inv ∧ beforeEnd.en = true ∧ beforeEnd.wedge = false ∧ ∃ t, exec (.feed 0x02#8) beforeEnd = .next t :=
  ⟨beforeEnd_inv, by decide, by decide, _, rfl⟩
theorem witness_FeedCompletesAndChangesOnly_atCap :
    ({ ready with n := 300 }).n.toNat ≤ ({ ready with n := 300 }).params.cap.toNat := by decide
theorem witness_FeedCompletesAndChangesOnly_frame :
    (∃ t, exec (.feed 0xAA#8) beforeMarker = .next t) ∧
      (2 ≠ beforeMarker.n.toNat ∧ (beforeMarker.n.toNat + 1 ≠ beforeMarker.wFs ∨ beforeMarker.wFs ≤ 2 + 1)) :=
  ⟨⟨_, rfl⟩, by decide⟩
theorem witness_FeedCompletesAndChangesOnly_aboveCap :
    ready.en = true ∧ ¬ ({ ready with n := 301 }).fires 0xAA#8 ∧
      ({ ready with n := 301 }).params.cap.toNat < ({ ready with n := 301 }).n.toNat := by unfold State.fires; decide
theorem witness_FeedDisabledOnlyRaisesCmdErr : State.reset.en = false := rfl
theorem witness_FeedCompletingTheResetRunFires_one :
    (resetting 1 0).en = true ∧ (resetting 1 0).rstEn = true ∧
      (if 0xFF#8 = (resetting 1 0).rstByte then (resetting 1 0).rstRun + 1 else 0) = (resetting 1 0).rstCount := by decide
theorem witness_FeedCompletingTheResetRunFires_longest :
    (if 0xFF#8 = (resetting 255 254).rstByte then (resetting 255 254).rstRun + 1 else 0) =
      (resetting 255 254).rstCount := by decide
theorem witness_FeedAtCapacityOverflows :
    ({ ready with n := 300 }).en = true ∧ ¬ ({ ready with n := 300 }).fires 0xAA#8 ∧
      ({ ready with n := 300 }).n = ({ ready with n := 300 }).params.cap := by unfold State.fires; decide
theorem witness_FeedBetweenThresholdsOnlyAppends :
    (received [0xAA, 0xBB] 0).en = true ∧ ¬ (received [0xAA, 0xBB] 0).fires 0x05#8 ∧
      (received [0xAA, 0xBB] 0).n.toNat < (received [0xAA, 0xBB] 0).params.cap.toNat ∧
      (received [0xAA, 0xBB] 0).n.toNat + 1 ≠ (received [0xAA, 0xBB] 0).wFs ∧
      (received [0xAA, 0xBB] 0).n.toNat + 1 ≠ (received [0xAA, 0xBB] 0).hdr ∧
      (received [0xAA, 0xBB] 0).n.toNat + 1 ≠
        (received [0xAA, 0xBB] 0).total (received [0xAA, 0xBB] 0).bodyLen.toNat := by unfold State.fires; decide
theorem witness_FeedMarkerMismatchResyncs :
    beforeMarker.Inv ∧ beforeMarker.en = true ∧ ¬ beforeMarker.fires 0xAA#8 ∧ beforeMarker.n ≠ beforeMarker.params.cap ∧
      beforeMarker.n.toNat + 1 = beforeMarker.wFs ∧ beforeMarker.accumulated 0xAA#8 ≠ beforeMarker.marker :=
  ⟨beforeMarker_inv, by unfold State.fires; decide⟩
theorem witness_FeedMarkerMatchContinues :
    beforeMarker.Inv ∧ beforeMarker.en = true ∧ ¬ beforeMarker.fires 0xBB#8 ∧ beforeMarker.n ≠ beforeMarker.params.cap ∧
      beforeMarker.n.toNat + 1 = beforeMarker.wFs ∧ beforeMarker.accumulated 0xBB#8 = beforeMarker.marker :=
  ⟨beforeMarker_inv, by unfold State.fires; decide⟩
theorem witness_EngineIsASlidingWindowMatcher :
    ready.Inv ∧ ready.en = true ∧ ready.rstEn = false ∧ ready.n = 0 ∧ 1 ≤ ready.wFs ∧
      (∀ k, k ≤ [0xAA#8, 0x05#8, 0xAA#8].length → ¬ ready.marker <:+ [0xAA#8, 0x05#8, 0xAA#8].take k) ∧
      ready.marker <:+ [0xAA#8, 0x05#8, 0xAA#8] ++ [0xBB#8] :=
  ⟨ready_inv, by decide⟩
theorem witness_FeedAcceptedLengthContinues_max :
    beforeLength.Inv ∧ beforeLength.en = true ∧ ¬ beforeLength.fires 1#8 ∧ beforeLength.n ≠ beforeLength.params.cap ∧
      beforeLength.n.toNat + 1 = beforeLength.hdr ∧
      1#32 = decBytes beforeLength.params.byteOrder
        (slice (beforeLength.accumulated 1#8) beforeLength.offLen beforeLength.wLen) ∧
      beforeLength.exactEn = false ∧ (beforeLength.maxEn = true ∧ (1#32).toNat ≤ beforeLength.lenMax.toNat) ∧
      beforeLength.hdr < beforeLength.total (1#32).toNat :=
  ⟨beforeLength_inv, by unfold State.fires; decide⟩
theorem witness_FeedAcceptedLengthContinues_exact :
    exactLength.Inv ∧ exactLength.en = true ∧ ¬ exactLength.fires 3#8 ∧ exactLength.n ≠ exactLength.params.cap ∧
      exactLength.n.toNat + 1 = exactLength.hdr ∧
      3#32 = decBytes exactLength.params.byteOrder
        (slice (exactLength.accumulated 3#8) exactLength.offLen exactLength.wLen) ∧
      (exactLength.exactEn = true ∧ 3#32 = exactLength.lenExact) ∧ exactLength.maxEn = false ∧
      exactLength.hdr < exactLength.total (3#32).toNat :=
  ⟨exactLength_inv, by unfold State.fires; decide⟩
theorem witness_FeedAcceptedLengthContinues_noPolicy :
    anyLength.Inv ∧ anyLength.en = true ∧ ¬ anyLength.fires 255#8 ∧ anyLength.n ≠ anyLength.params.cap ∧
      anyLength.n.toNat + 1 = anyLength.hdr ∧
      255#32 = decBytes anyLength.params.byteOrder
        (slice (anyLength.accumulated 255#8) anyLength.offLen anyLength.wLen) ∧
      anyLength.exactEn = false ∧ anyLength.maxEn = false ∧ anyLength.hdr < anyLength.total (255#32).toNat :=
  ⟨anyLength_inv, by unfold State.fires; decide⟩
theorem witness_FeedAcceptedLengthContinues_wedge :
    wedgedLength.Inv ∧ wedgedLength.en = true ∧ ¬ wedgedLength.fires 0#8 ∧ wedgedLength.n ≠ wedgedLength.params.cap ∧
      wedgedLength.n.toNat + 1 = wedgedLength.hdr ∧
      0#32 = decBytes wedgedLength.params.byteOrder
        (slice (wedgedLength.accumulated 0#8) wedgedLength.offLen wedgedLength.wLen) ∧
      wedgedLength.exactEn = false ∧ wedgedLength.maxEn = false ∧
      wedgedLength.hdr = wedgedLength.total (0#32).toNat ∧ wedgedLength.wedge = true :=
  ⟨wedgedLength_inv, by unfold State.fires; decide⟩
theorem witness_FeedRejectedLengthDrops_max :
    beforeLength.Inv ∧ beforeLength.en = true ∧ ¬ beforeLength.fires 2#8 ∧ beforeLength.n ≠ beforeLength.params.cap ∧
      beforeLength.n.toNat + 1 = beforeLength.hdr ∧
      2#32 = decBytes beforeLength.params.byteOrder
        (slice (beforeLength.accumulated 2#8) beforeLength.offLen beforeLength.wLen) ∧
      (beforeLength.maxEn = true ∧ beforeLength.lenMax.toNat < (2#32).toNat) :=
  ⟨beforeLength_inv, by unfold State.fires; decide⟩
theorem witness_FeedRejectedLengthDrops_exact :
    exactLength.Inv ∧ exactLength.en = true ∧ ¬ exactLength.fires 2#8 ∧ exactLength.n ≠ exactLength.params.cap ∧
      exactLength.n.toNat + 1 = exactLength.hdr ∧
      2#32 = decBytes exactLength.params.byteOrder
        (slice (exactLength.accumulated 2#8) exactLength.offLen exactLength.wLen) ∧
      (exactLength.exactEn = true ∧ 2#32 ≠ exactLength.lenExact) :=
  ⟨exactLength_inv, by unfold State.fires; decide⟩
theorem witness_EmptyFrameCompletesAtTheLengthByte :
    beforeLength.Inv ∧ beforeLength.en = true ∧ beforeLength.wedge = false ∧ ¬ beforeLength.fires 0#8 ∧
      beforeLength.n.toNat + 1 = beforeLength.hdr ∧
      decBytes beforeLength.params.byteOrder
        (slice (beforeLength.accumulated 0#8) beforeLength.offLen beforeLength.wLen) = 0 ∧
      (beforeLength.exactEn = true → beforeLength.lenExact = 0) ∧ beforeLength.wInt = 0 ∧ beforeLength.wCtl = 0 :=
  ⟨beforeLength_inv, by unfold State.fires; decide⟩
theorem witness_FeedIntegrityMismatchDrops :
    beforeIntegrity.Inv ∧ beforeIntegrity.en = true ∧ ¬ beforeIntegrity.fires 6#8 ∧
      beforeIntegrity.hdr < beforeIntegrity.n.toNat + 1 ∧
      beforeIntegrity.n.toNat + 1 = beforeIntegrity.total beforeIntegrity.bodyLen.toNat ∧ beforeIntegrity.intEn = true ∧
      beforeIntegrity.hash (slice (beforeIntegrity.accumulated 6#8) beforeIntegrity.wFs
          (beforeIntegrity.wCmd + beforeIntegrity.wTs + beforeIntegrity.wLen + beforeIntegrity.bodyLen.toNat)) ≠
        slice (beforeIntegrity.accumulated 6#8) (beforeIntegrity.hdr + beforeIntegrity.bodyLen.toNat) beforeIntegrity.wInt :=
  ⟨beforeIntegrity_inv, by unfold State.fires; decide⟩
theorem witness_FeedCompleteFrameIsLookedUp_noIntegrity :
    beforeEnd.Inv ∧ beforeEnd.en = true ∧ ¬ beforeEnd.fires 2#8 ∧ beforeEnd.hdr < beforeEnd.n.toNat + 1 ∧
      beforeEnd.n.toNat + 1 = beforeEnd.total beforeEnd.bodyLen.toNat ∧ beforeEnd.wedge = false ∧ beforeEnd.intEn = false ∧
      5#32 = decBytes beforeEnd.params.byteOrder (slice (beforeEnd.accumulated 2#8) beforeEnd.wFs beforeEnd.wCmd) ∧
      beforeEnd.lookup 5#32 = some (0, 1) :=
  ⟨beforeEnd_inv, by unfold State.fires; decide⟩
theorem witness_FeedCompleteFrameIsLookedUp_integrity :
    beforeIntegrity.Inv ∧ beforeIntegrity.en = true ∧ ¬ beforeIntegrity.fires 5#8 ∧
      beforeIntegrity.hdr < beforeIntegrity.n.toNat + 1 ∧
      beforeIntegrity.n.toNat + 1 = beforeIntegrity.total beforeIntegrity.bodyLen.toNat ∧ beforeIntegrity.wedge = false ∧
      beforeIntegrity.hash (slice (beforeIntegrity.accumulated 5#8) beforeIntegrity.wFs
          (beforeIntegrity.wCmd + beforeIntegrity.wTs + beforeIntegrity.wLen + beforeIntegrity.bodyLen.toNat)) =
        slice (beforeIntegrity.accumulated 5#8) (beforeIntegrity.hdr + beforeIntegrity.bodyLen.toNat) beforeIntegrity.wInt ∧
      beforeIntegrity.lookup 6#32 = none :=
  ⟨beforeIntegrity_inv, by unfold State.fires; decide⟩
theorem witness_WedgeModeIgnoresTheCompletionThreshold :
    wedged.Inv ∧ wedged.en = true ∧ wedged.wedge = true ∧ ¬ wedged.fires 2#8 ∧ wedged.n ≠ wedged.params.cap ∧
      wedged.hdr < wedged.n.toNat + 1 :=
  ⟨wedged_inv, by unfold State.fires; decide⟩
theorem witness_WedgeModeIgnoresTheCompletionThreshold_header :
    wedgedLength.wedge = true ∧ ∃ t, exec (.feed 0#8) wedgedLength = .next t ∧ t.n = 4 ∧ t.bodyLen = 0 := ⟨by decide, _, rfl, by decide⟩
theorem witness_CountIsZeroAfterEveryTerminalOutcome :
    ∃ t, exec (.feed 2#8) beforeLength = .next t ∧ t.resp.event = some (.lenDrop 2) ∧
      ∀ d, Event.lenDrop 2 ≠ .resync d := ⟨_, rfl, by decide, fun _ h => Event.noConfusion h⟩
theorem witness_CfgrdAnswersTheRegisterValue : 3 < Config.params.fsMax.val ∧ 7 < Config.params.nCmd.val := by decide
theorem witness_UnmappedRegisterOnlyRaisesCmdErr :
    ∀ r ∈ [0x0B#8, 0x0F#8, 0x14#8, 0x23#8, 0x2F#8, 0x35#8, 0x3F#8, 0x50#8, 0xFF#8],
      ¬ (r.toNat ≤ 0x0A ∨ (0x10 ≤ r.toNat ∧ r.toNat < 0x10 + ready.params.fsMax.val) ∨
        (0x20 ≤ r.toNat ∧ r.toNat ≤ 0x22) ∨ (0x30 ≤ r.toNat ∧ r.toNat ≤ 0x34) ∨
        (0x40 ≤ r.toNat ∧ r.toNat < 0x40 + 2 * ready.params.nCmd.val)) := by decide
theorem witness_CfgwrWritesTableAndEncoderOperands : (7 : Fin 32).val < ready.params.nCmd.val := by decide
theorem witness_CfgwrWritesConfigurationWhileDisabled :
    State.reset.en = false ∧ (3 : Fin 16).val < State.reset.params.fsMax.val := by decide
theorem witness_FrozenRegisterWriteIsRefused :
    ready.en = true ∧ ∀ r ∈ [0x02#8, 0x08#8, 0x10#8, 0x13#8],
      ((0x02 ≤ r.toNat ∧ r.toNat ≤ 0x08) ∨ (0x10 ≤ r.toNat ∧ r.toNat < 0x10 + ready.params.fsMax.val)) := by decide
theorem witness_ReadOnlyRegisterWriteIsIgnored :
    ∀ r ∈ [0x09#8, 0x0A#8, 0x20#8, 0x21#8, 0x22#8, 0x34#8],
      (r = 0x09#8 ∨ r = 0x0A#8 ∨ r = 0x20#8 ∨ r = 0x21#8 ∨ r = 0x22#8 ∨ r = 0x34#8) := by decide
theorem witness_EnableChecksTheConfiguration_legal :
    ({ ready with en := false }).en = false ∧ (1#32).getLsbD 0 = true ∧
      ({ ready with en := false }).cfgLegal = true ∧ ({ ready with en := false }).capOk = true := by decide
theorem witness_EnableChecksTheConfiguration_illegal :
    State.reset.en = false ∧ (1#32).getLsbD 0 = true ∧ State.reset.cfgLegal = false := by decide
/-- V113: CAP is one byte too small. -/
theorem witness_EnableChecksTheConfiguration_tooSmall :
    ({ ready with en := false, params := { Config.params with cap := 258 } }).cfgLegal = true ∧
      ({ ready with en := false, params := { Config.params with cap := 258 } }).capOk = false := by decide
theorem witness_OtherCtrlWrites_disable : ready.en = true ∧ (0#32).getLsbD 0 = false := by decide
theorem witness_OtherCtrlWrites_again :
    ready.en = (1#32).getLsbD 0 ∧ State.reset.en = (0#32).getLsbD 0 := by decide
theorem witness_LegalConfigurations : ¬ (ready.exactEn = true ∧ ready.maxEn = true) := by decide
theorem witness_OnlyTheHostClearsAFlag :
    ∃ t, exec (.cfgwr 1#8 2#32) { ready with status := 6 } = .next t ∧
      ({ ready with status := 6 }).status.getLsbD 1 = true ∧ t.status.getLsbD 1 = false := ⟨_, rfl, by decide, by decide⟩
theorem witness_OnlyALegalEnableEnables :
    ∃ t, exec (.cfgwr 0#8 1#32) { ready with en := false } = .next t ∧ ({ ready with en := false }).en = false ∧ t.en = true :=
  ⟨_, rfl, by decide, by decide⟩
theorem witness_ConfigurationIsFrozenWhileEnabled :
    ∃ t, exec (.cfgwr 0x02#8 0#32) ready = .next t ∧ ready.en = true := ⟨_, rfl, by decide⟩
theorem witness_OnlyFeedEmitsEvents :
    ∃ t, exec (.feed 2#8) beforeEnd = .next t ∧ t.resp.event ≠ none := ⟨_, rfl, by decide⟩
/-- The second alternative: a micro-operation keeps the response of the command before it. -/
theorem witness_OnlyFeedEmitsEvents_micro :
    ∃ t, exec .putf1 { codecState .le sixEE 0 with resp := ⟨0, some .intDrop⟩ } = .next t ∧ t.resp.event ≠ none :=
  ⟨_, rfl, by decide⟩
/-- The last place a four-byte field fits. -/
theorem witness_PutfWritesTheLowBytes :
    (Instr.putf4, 4) = (.putf4, 4) ∧ (codecState .le [1, 2, 3, 4, 5] 0).codec.off.toNat + 4 ≤
      (codecState .le [1, 2, 3, 4, 5] 0).codec.bytes.length := by decide
theorem witness_GetfReadsTheFieldZeroExtended :
    (Instr.getf2, 2) = (.getf2, 2) ∧ (codecState .le [1, 2, 3] 0).codec.off.toNat + 2 ≤
      (codecState .le [1, 2, 3] 0).codec.bytes.length := by decide
theorem witness_CodecRoundTrips_putThenGet : ∃ t, exec .putf2 (codecState .le sixEE 0x10000#32) = .next t := ⟨_, rfl⟩
theorem witness_CodecRoundTrips_getThenPut : ∃ t, exec .getf4 (codecState .le sixEE 0) = .next t := ⟨_, rfl⟩
/-- One byte too few. -/
theorem witness_CodecOutsideItsStoreFaults :
    (codecState .le [1, 2, 3, 4] 0).codec.bytes.length < (codecState .le [1, 2, 3, 4] 0).codec.off.toNat + 4 := by decide
theorem witness_TxwrWritesOneBodyByte :
    (299#16).toNat < ready.params.txcap.toNat ∧ ready.params.txcap.toNat ≤ (300#16).toNat := by decide
theorem witness_TxrdReadsOneOutputByte :
    (299#16).toNat < ready.params.txcap.toNat ∧ storeGet ({ ready with txo := [(299, 0xFF#8)] }).txo (299#16).toNat = some 0xFF ∧
      ready.params.txcap.toNat ≤ (300#16).toNat := by decide
theorem witness_EncodeDisabledIsRefused : State.reset.en = false := rfl
theorem witness_EncodeErrorsWriteNothing_capacity :
    ready.en = true ∧ min ({ ready with txArgs := 0x10005 }).txCap ready.params.txcap.toNat <
      ready.wFs + ready.wCmd + ready.wTs + ready.wLen + ready.txBodyLen.toNat + ready.wInt + ready.wCtl := by decide
theorem witness_EncodeErrorsWriteNothing_noBody :
    0 < ready.txBodyLen.toNat ∧ ({ ready with txArgs := 0x0012C }).txBodyPresent = false := by decide
theorem ready_encodes : ready.encodes := by unfold State.encodes; decide
theorem witness_EncodeCompletesAndChangesOnly : ready.total ready.txBodyLen.toNat ≤ 6 ∧ ¬ State.reset.encodes := by
  unfold State.encodes; decide
theorem witness_EncodeBuildsTheFrame :
    ready.encodes ∧ ready.cfgLegal = true ∧ ready.tsEn = false ∧ ready.intEn = false := ⟨ready_encodes, by decide⟩
/-- `ready` with a two-byte timestamp field and a one-byte integrity field, SUM8 attached (95_test_vectors.md V214). -/
def stamped : State :=
  { ready with params := { Config.params with hash := .sum8 }, width0 := 0x01020102, width1 := 1, feat := 3
               tsIn := [0xC0, 0xDE] }
theorem witness_EncodeBuildsTheFrame_timestampAndIntegrity :
    stamped.encodes ∧ stamped.cfgLegal = true ∧ stamped.tsEn = true ∧ stamped.intEn = true ∧
      stamped.wTs ≤ stamped.tsIn.length := by unfold State.encodes; decide
/-- V214. -/
theorem test_encode_timestamp_and_integrity :
    (nextOf (exec .encode stamped)).map (fun t => storeGet t.txo 8) = some (some 0xA8) := by decide
theorem witness_EncodedFrameIsDispatchedOnce :
    ready.Inv ∧ ready.encodes ∧ ready.n = 0 ∧ ready.rstEn = false ∧ ready.wedge = false ∧
      ready.txBodyLen.toNat < 2 ^ (8 * ready.wLen) ∧ (ready.exactEn = true → ready.txBodyLen = ready.lenExact) ∧
      (ready.maxEn = true → ready.txBodyLen.toNat ≤ ready.lenMax.toNat) ∧ ready.txCmd.toNat < 2 ^ (8 * ready.wCmd) ∧ (ready.wCtl = 0 ∨ ready.txCtl.toNat < 2 ^ (8 * ready.wCtl)) ∧
      ready.lookup ready.txCmd = some (0, 1) :=
  ⟨ready_inv, ready_encodes, by decide⟩
/-- Byte 6 is the body's first: no timestamp and no integrity byte. -/
theorem witness_SecondEncodeGivesTheSameFrame :
    stamped.encodes ∧ stamped.cfgLegal = true ∧ ¬ (stamped.tsEn = true ∧ stamped.offTs ≤ 6 ∧ 6 < stamped.offLen) ∧
      ¬ (stamped.tsEn = true ∧ stamped.intEn = true ∧ stamped.offInt stamped.txBodyLen.toNat ≤ 6 ∧
        6 < stamped.offCtl stamped.txBodyLen.toNat) := by unfold State.encodes; decide
theorem witness_OnlyTheirOwnersChangeTheStores :
    ∃ t, exec .clear ready = .next t ∧ (∀ b, Instr.clear ≠ .feed b) ∧ (∀ j b, Instr.clear ≠ .txwr j b) ∧
      Instr.clear ≠ .encode :=
  ⟨_, rfl, fun _ => Instr.noConfusion, fun _ _ => Instr.noConfusion, by decide⟩
theorem witness_OnlyTheirOwnersReadTheStores :
    ∃ t, exec .clear ready = .next t ∧ (∀ b, Instr.clear ≠ .feed b) ∧ Instr.clear ≠ .encode ∧
      (∀ j b, Instr.clear ≠ .txwr j b) ∧ (∀ j, Instr.clear ≠ .txrd j) :=
  ⟨_, rfl, fun _ => Instr.noConfusion, by decide, fun _ _ => Instr.noConfusion, fun _ => Instr.noConfusion⟩

end Sys2Proof.Tests
end

section
/-! PROOFS. The scope statements (00_scope.md R5, R6, R9, R14): what no step and no instruction changes, the micro-operations
outside their store, and FEED in wedge mode. -/

namespace Sys2Proof.Machine

/-! ### What the operations leave of the setup -/

/-- What is fixed around a running engine: the parameters (00_scope.md R5), the inputs that wait, and the configuration
registers, which are frozen while enabled (00_scope.md R6). -/
def State.setup (s : State) : Params × List Input × Word × BitVec 16 × BitVec 6 × BitVec 16 × Word × Word × Word ×
    Vector Byte 16 :=
  (s.params, s.inputs, s.width0, s.width1, s.feat, s.rstseq, s.lenExact, s.lenMax, s.user, s.fs)

/-- Two states of one setup agree field by field. -/
theorem setup_eq_iff (s t : State) :
    t.setup = s.setup ↔ t.params = s.params ∧ t.inputs = s.inputs ∧ t.width0 = s.width0 ∧ t.width1 = s.width1 ∧
      t.feat = s.feat ∧ t.rstseq = s.rstseq ∧ t.lenExact = s.lenExact ∧ t.lenMax = s.lenMax ∧ t.user = s.user ∧
      t.fs = s.fs := by
  simp only [State.setup, Prod.mk.injEq]

@[simp] theorem respond_setup (s : State) (v : Word) : (s.respond v).setup = s.setup := rfl
@[simp] theorem clearFlags_setup (s : State) (v : Word) : (s.clearFlags v).setup = s.setup := rfl
@[simp] theorem zeroProgress_setup (s : State) : s.zeroProgress.setup = s.setup := rfl
@[simp] theorem refuseCommand_setup (s : State) : s.refuseCommand.setup = s.setup := rfl
@[simp] theorem passed_setup (s : State) (b : Byte) : (s.passed b).setup = s.setup := rfl
@[simp] theorem append_setup (s : State) (b : Byte) : (s.append b).setup = s.setup := rfl
@[simp] theorem overflowDrop_setup (s : State) : s.overflowDrop.setup = s.setup := rfl
@[simp] theorem encodeFail_setup (s : State) : s.encodeFail.setup = s.setup := rfl

@[simp] theorem memWrite_setup (s : State) (k : StoreId) (a : Nat) (bs : List Byte) :
    (s.memWrite k a bs).setup = s.setup := by cases k <;> rfl

@[simp] theorem fireReset_setup (s : State) : s.fireReset.setup = s.setup := by
  unfold State.fireReset; split <;> rfl

@[simp] theorem encodeFrame_setup (s : State) : s.encodeFrame.setup = s.setup := by rw [encodeFrame_eq]; rfl

/-- What a stage of FEED leaves alone includes the setup. -/
theorem stageFrame_setup {s t : State} (h : s.StageFrame t) : t.setup = s.setup := by
  rw [State.StageFrame] at h; rw [h]; rfl

/-- A register that is writable while enabled is no configuration register. -/
theorem regWrite_rw_setup (s : State) (g : Reg) (v : Word) (h : g.access = .rw) : (s.regWrite g v).setup = s.setup := by
  rw [regWrite_rw_frame s g v h]; rfl

@[simp] theorem writeCtrl_setup (s : State) (v : Word) : (s.writeCtrl v).setup = s.setup := by
  rcases writeCtrl_cases s v with ⟨_, h⟩ | ⟨_, _, h⟩ | ⟨_, _, _, _, h⟩ | ⟨_, _, _, h⟩ <;> rw [h] <;> rfl

/-! ### What the instructions leave of the setup -/

theorem execFeed_setup (s t : State) (b : Byte) (h : execFeed b s = .next t) : t.setup = s.setup := by
  rcases execFeed_cases s b with ⟨_, e⟩ | ⟨_, _, e⟩ | ⟨_, _, _, e⟩ | ⟨_, _, _, e⟩ | ⟨_, _, _, e⟩ <;>
    rw [e] at h <;> cases h
  · simp
  · simp
  · simp
  · rw [stageFrame_setup (stage4_frame _), stageFrame_setup (stage3_frame _), stageFrame_setup (stage2_frame _)]
    simp

/-- A CFGWR keeps the setup, unless it writes a configuration register of a disabled engine. -/
theorem execCfgwr_setup (s t : State) (r : BitVec 8) (v : Word) (h : execCfgwr r v s = .next t) :
    t.setup = s.setup ∨ s.en = false ∧ ∃ g, g.access = .rwf ∧ t = (s.regWrite g v).respond 0 := by
  rcases execCfgwr_cases r v s with ⟨_, e⟩ | ⟨g, _, ⟨_, e⟩ | ⟨hg, e⟩ | ⟨_, _, e⟩ | ⟨hg, hen, e⟩ | ⟨_, e⟩ | ⟨_, e⟩⟩ <;>
    rw [e] at h <;> cases h
  · exact .inl (by simp)
  · exact .inl (by simp)
  · exact .inl (by simp [regWrite_rw_setup s g v hg])
  · exact .inl (by simp)
  · exact .inr ⟨hen, g, hg, rfl⟩
  · exact .inl (by simp)
  · exact .inl (by simp)

theorem execCfgrd_setup (s t : State) (r : BitVec 8) (h : execCfgrd r s = .next t) : t.setup = s.setup := by
  rcases execCfgrd_cases r s with ⟨_, e⟩ | ⟨_, _, e⟩ <;> rw [e] at h <;> cases h <;> simp

theorem execEncode_setup (s t : State) (h : execEncode s = .next t) : t.setup = s.setup := by
  rcases execEncode_cases s with ⟨_, e⟩ | ⟨_, _, e⟩ | ⟨_, _, _, _, e⟩ | ⟨_, e⟩ <;> rw [e] at h <;> cases h <;> simp

theorem execTxwr_setup (s t : State) (i : BitVec 16) (b : Byte) (h : execTxwr i b s = .next t) : t.setup = s.setup := by
  rcases execTxwr_cases i b s with ⟨_, e⟩ | ⟨_, e⟩ <;> rw [e] at h <;> cases h <;> simp

theorem execTxrd_setup (s t : State) (i : BitVec 16) (h : execTxrd i s = .next t) : t.setup = s.setup := by
  rcases execTxrd_cases i s with ⟨_, e⟩ | ⟨_, e⟩ <;> rw [e] at h <;> cases h <;> simp

theorem putfAlone_setup (s t : State) (w : Nat) (h : s.putfAlone w = .next t) : t.setup = s.setup := by
  rcases putfAlone_cases s w with ⟨_, e⟩ | ⟨_, e⟩ <;> rw [e] at h <;> cases h
  rfl

theorem getfAlone_setup (s t : State) (w : Nat) (h : s.getfAlone w = .next t) : t.setup = s.setup := by
  rcases getfAlone_cases s w with ⟨_, e⟩ | ⟨_, e⟩ <;> rw [e] at h <;> cases h
  rfl

/-- Every instruction keeps the setup, except a CFGWR of a configuration register while disabled. -/
theorem exec_setup (i : Instr) (s t : State) (h : exec i s = .next t) :
    t.setup = s.setup ∨
    s.en = false ∧ ∃ r v g, i = .cfgwr r v ∧ g.access = .rwf ∧ t = (s.regWrite g v).respond 0 := by
  cases i with
  | feed b => exact .inl (execFeed_setup s t b h)
  | cfgwr r v =>
    rcases execCfgwr_setup s t r v h with hs | ⟨hen, g, hg, ht⟩
    · exact .inl hs
    · exact .inr ⟨hen, r, v, g, rfl, hg, ht⟩
  | cfgrd r => exact .inl (execCfgrd_setup s t r h)
  | clear => cases h; exact .inl (by simp)
  | encode => exact .inl (execEncode_setup s t h)
  | txwr a b => exact .inl (execTxwr_setup s t a b h)
  | txrd a => exact .inl (execTxrd_setup s t a h)
  | putf1 => exact .inl (putfAlone_setup s t 1 h)
  | putf2 => exact .inl (putfAlone_setup s t 2 h)
  | putf4 => exact .inl (putfAlone_setup s t 4 h)
  | getf1 => exact .inl (getfAlone_setup s t 1 h)
  | getf2 => exact .inl (getfAlone_setup s t 2 h)
  | getf4 => exact .inl (getfAlone_setup s t 4 h)

/-- No instruction touches the parameters or the inputs that wait. -/
theorem exec_params_inputs (i : Instr) (s t : State) (h : exec i s = .next t) :
    t.params = s.params ∧ t.inputs = s.inputs := by
  rcases exec_setup i s t h with hs | ⟨_, _, v, g, _, _, rfl⟩
  · obtain ⟨hp, hi, _⟩ := (setup_eq_iff s t).mp hs
    exact ⟨hp, hi⟩
  · rw [regWrite_frame]
    exact ⟨rfl, rfl⟩

/-- Settles O13: a step acts on the state with the first input taken, and nothing it does then touches the parameters or the
inputs. -/
theorem parametersNeverChange : Obligations.ParametersNeverChange := by
  intro s t h
  rcases step_cases s t h with ⟨hi, rfl⟩ | ⟨_, _, i, hi, _, he⟩ | ⟨_, _, hi, rfl⟩ | ⟨_, _, _, i, hi, _, he⟩ |
    ⟨_, _, _, hi, rfl⟩ | ⟨_, hi, rfl⟩ <;> rw [hi]
  case inr.inl => exact exec_params_inputs i _ t he
  case inr.inr.inr.inl => exact exec_params_inputs i _ t he
  all_goals exact ⟨rfl, rfl⟩

/-- Settles O45: the only instruction that changes the setup needs EN = 0. -/
theorem configurationIsFrozenWhileEnabled : Obligations.ConfigurationIsFrozenWhileEnabled := by
  intro i s t h hen
  rcases exec_setup i s t h with hs | ⟨hdis, _⟩
  · obtain ⟨_, _, hconfig⟩ := (setup_eq_iff s t).mp hs
    exact hconfig
  · rw [hen] at hdis; cases hdis

/-! ### The codec outside its store -/

theorem putfAlone_outside (s : State) (w : Nat) (h : s.codec.bytes.length < s.codec.off.toNat + w) :
    s.putfAlone w = .fault .codecOutOfRange := by
  rcases putfAlone_cases s w with ⟨hin, _⟩ | ⟨_, e⟩
  · omega
  · exact e

theorem getfAlone_outside (s : State) (w : Nat) (h : s.codec.bytes.length < s.codec.off.toNat + w) :
    s.getfAlone w = .fault .codecOutOfRange := by
  rcases getfAlone_cases s w with ⟨hin, _⟩ | ⟨_, e⟩
  · omega
  · exact e

/-- Settles O50: each micro-operation is PUTF or GETF at its width on the codec port. -/
theorem codecOutsideItsStoreFaults : Obligations.CodecOutsideItsStoreFaults := by
  rintro i w (hi | hi | hi | hi | hi | hi) s h <;> cases hi
  · exact putfAlone_outside s 1 h
  · exact putfAlone_outside s 2 h
  · exact putfAlone_outside s 4 h
  · exact getfAlone_outside s 1 h
  · exact getfAlone_outside s 2 h
  · exact getfAlone_outside s 4 h

/-! ### FEED in wedge mode -/

theorem stageFrame_wedge {s t : State} (h : s.StageFrame t) : t.wedge = s.wedge := by
  rw [State.StageFrame] at h; rw [h]; rfl

/-- In wedge mode the completion stage does nothing (43_reassembly.md R166). -/
theorem stage4_of_wedge (s : State) (h : s.wedge = true) : s.stage4 = s := by
  obtain ⟨hno, hint⟩ : s.params.noIntDispatch = false ∧ s.intEn = false := by simpa [State.wedge] using h
  simp [State.stage4, hno, hint]

/-- In wedge mode the threshold of the accumulated bytes is ignored as well. -/
theorem complete_of_wedge (s : State) (f : List Byte) (h : s.wedge = true) : s.complete f = s := by
  simp [State.complete, h]

/-- Beyond the header only the completion stage acts. -/
theorem stages_beyond_header (s : State) (f : List Byte) (h : s.hdr < f.length) : s.stages f = s.complete f := by
  have hfs : s.wFs ≤ s.hdr := by simp only [State.hdr]; omega
  rw [State.stages, if_neg (by omega), if_neg (by omega), if_neg (by omega)]

/-- The length stage reports nothing, or a rejected length. -/
theorem stage3_event (s : State) :
    s.stage3.resp.event = s.resp.event ∨ ∃ l, s.stage3.resp.event = some (.lenDrop l) := by
  unfold State.stage3
  split
  · split
    · exact .inr ⟨_, rfl⟩
    · exact .inl rfl
  · exact .inl rfl

/-- The reset run reports EV_RESET_SEQ, or nothing. -/
theorem fireReset_event (s : State) :
    s.fireReset.resp.event = some .resetSeq ∨ s.fireReset.resp.event = s.resp.event := by
  unfold State.fireReset
  split
  · exact .inl rfl
  · exact .inr rfl

/-- The events FEED can emit in wedge mode: those of the stages before completion. -/
theorem execFeed_wedge_event (s t : State) (b : Byte) (hw : s.wedge = true) (h : execFeed b s = .next t) :
    t.resp.event = none ∨ t.resp.event = some .resetSeq ∨ t.resp.event = some .overflow ∨
      (∃ d, t.resp.event = some (.resync d)) ∨ ∃ l, t.resp.event = some (.lenDrop l) := by
  rcases execFeed_cases s b with ⟨_, e⟩ | ⟨_, _, e⟩ | ⟨_, _, _, e⟩ | ⟨_, _, _, e⟩ | ⟨_, _, _, e⟩ <;>
    rw [e] at h <;> cases h
  · exact .inl rfl
  · rcases fireReset_event (s.passed b) with hf | hf
    · exact .inr (.inl hf)
    · exact .inl hf
  · exact .inr (.inr (.inl rfl))
  · have hframe : ((s.passed b).append b).StageFrame ((s.passed b).append b).stage2.stage3 :=
      StageFrame.trans (stage2_frame _) (stage3_frame _)
    rw [stage4_of_wedge _ ((stageFrame_wedge hframe).trans hw)]
    rcases stage3_event ((s.passed b).append b).stage2 with h3 | h3
    · rw [h3]
      rcases stage2_ev ((s.passed b).append b) with ⟨h2, _⟩ | h2
      · exact .inl h2
      · exact .inr (.inr (.inr (.inl h2)))
    · exact .inr (.inr (.inr (.inr h3)))

/-- In wedge mode a byte beyond the header is appended, and nothing else happens. -/
theorem execFeed_wedge_beyond_header (s : State) (b : Byte) (hinv : s.Inv) (hen : s.en = true) (hw : s.wedge = true)
    (hf : ¬ s.fires b) (hcap : s.n ≠ s.params.cap) (hhdr : s.hdr < s.n.toNat + 1) :
    execFeed b s = .next (s.fed b) := by
  have hlt : s.n.toNat < s.params.cap.toNat :=
    Nat.lt_of_le_of_ne hinv.countBound fun h => hcap (BitVec.eq_of_toNat_eq h)
  have hlen : (s.fed b).hdr < (s.accumulated b).length := by rw [accumulated_length]; exact hhdr
  rw [execFeed_stages s b hen hf hlt (hinv.progress hen).legal, stages_beyond_header _ _ hlen,
    complete_of_wedge (s.fed b) _ hw]

/-- Settles O28: beyond the header the only stage left is completion, which wedge mode disables. -/
theorem wedgeModeIgnoresTheCompletionThreshold : Obligations.WedgeModeIgnoresTheCompletionThreshold := by
  constructor
  · intro s b hinv hen hw hf hcap hhdr
    exact ⟨s.fed b, execFeed_wedge_beyond_header s b hinv hen hw hf hcap hhdr, rfl, append_set s b⟩
  · intro s t b hw h
    rcases execFeed_wedge_event s t b hw h with e | e | e | ⟨_, e⟩ | ⟨_, e⟩ <;> simp [e]

end Sys2Proof.Machine
end

section
/-! PROOFS. The state statements (10_state.md): the register map and the legal configurations, what an instruction leaves of
the stores, the flags and EN, the invariant of R44, and the values after reset. -/

namespace Sys2Proof.Machine

/-! ### The register map -/

/-- A register with a number of its own is in every block. -/
theorem fixedReg_eq_some (n : Nat) (g : Reg) (h : fixedReg n = some g) :
    (∀ p, g.mapped p = true) ∧ g.number.toNat = n := by
  unfold fixedReg at h
  split at h <;> cases h <;> exact ⟨fun _ => rfl, rfl⟩

theorem fsReg_eq_some (p : Params) (n : Nat) (g : Reg) (h : fsReg p n = some g) :
    g.mapped p = true ∧ g.number.toNat = n := by
  have hmax := p.fsMax.isLt
  unfold fsReg at h
  split at h <;> cases h
  next hn =>
    simp only [Reg.mapped, Reg.number, decide_eq_true_eq, BitVec.toNat_ofNat]
    omega

theorem ctReg_eq_some (p : Params) (n : Nat) (g : Reg) (h : ctReg p n = some g) :
    g.mapped p = true ∧ g.number.toNat = n := by
  have hmax := p.nCmd.isLt
  unfold ctReg at h
  split at h
  next hn =>
    split at h <;> cases h <;> simp only [Reg.mapped, Reg.number, decide_eq_true_eq, BitVec.toNat_ofNat] <;> omega
  next => cases h

theorem fixedReg_eq_none (n : Nat) (h : 0x10 ≤ n ∧ n < 0x20 ∨ 0x40 ≤ n) : fixedReg n = none := by
  unfold fixedReg
  split <;> simp at h ⊢

/-- The marker registers stand at 0x10 + i (10_state.md R32). -/
theorem regOf_fs (p : Params) (i : Fin 16) (h : i.val < p.fsMax.val) :
    regOf p (Reg.number (.fs i)) = some (.fs i) := by
  have hn : (Reg.number (.fs i)).toNat = 0x10 + i.val := by
    simp only [Reg.number, BitVec.toNat_ofNat]; omega
  rw [regOf, hn, fixedReg_eq_none _ (by omega), fsReg, dif_pos (by omega)]
  simp

/-- The codes of the command table stand at 0x40 + 2i (10_state.md R33). -/
theorem regOf_ctCode (p : Params) (i : Fin 32) (h : i.val < p.nCmd.val) :
    regOf p (Reg.number (.ctCode i)) = some (.ctCode i) := by
  have hmax := p.fsMax.isLt
  have hn : (Reg.number (.ctCode i)).toNat = 0x40 + 2 * i.val := by
    simp only [Reg.number, BitVec.toNat_ofNat]; omega
  rw [regOf, hn, fixedReg_eq_none _ (by omega), fsReg, dif_neg (by omega), ctReg, dif_pos (by omega), if_pos (by omega)]
  simp

/-- The handler ids of the command table stand at 0x41 + 2i (10_state.md R33). -/
theorem regOf_ctHid (p : Params) (i : Fin 32) (h : i.val < p.nCmd.val) :
    regOf p (Reg.number (.ctHid i)) = some (.ctHid i) := by
  have hmax := p.fsMax.isLt
  have hn : (Reg.number (.ctHid i)).toNat = 0x41 + 2 * i.val := by
    simp only [Reg.number, BitVec.toNat_ofNat]; omega
  have hi : (0x41 + 2 * i.val - 0x40) / 2 = i.val := by omega
  rw [regOf, hn, fixedReg_eq_none _ (by omega), fsReg, dif_neg (by omega), ctReg, dif_pos (by omega), if_neg (by omega)]
  simp [hi]

/-- A register the block has is the one its number names. -/
theorem regOf_number (p : Params) (g : Reg) (h : g.mapped p = true) : regOf p g.number = some g := by
  cases g with
  | fs i => exact regOf_fs p i (of_decide_eq_true h)
  | ctCode i => exact regOf_ctCode p i (of_decide_eq_true h)
  | ctHid i => exact regOf_ctHid p i (of_decide_eq_true h)
  | _ => rfl

/-- A number names only registers the block has, and by their number. -/
theorem regOf_eq_some (p : Params) (r : BitVec 8) (g : Reg) (h : regOf p r = some g) :
    g.mapped p = true ∧ g.number = r := by
  have hnum : g.mapped p = true ∧ g.number.toNat = r.toNat := by
    rcases Option.or_eq_some_iff.mp h with hf | ⟨_, h'⟩
    · obtain ⟨hm, hn⟩ := fixedReg_eq_some _ _ hf
      exact ⟨hm p, hn⟩
    · rcases Option.or_eq_some_iff.mp h' with hf | ⟨_, hc⟩
      · exact fsReg_eq_some p _ g hf
      · exact ctReg_eq_some p _ g hc
  exact ⟨hnum.1, BitVec.eq_of_toNat_eq hnum.2⟩

/-- Settles O32: the map and the numbers are inverse to each other. -/
theorem registerNumbersNameTheMap : Obligations.RegisterNumbersNameTheMap := by
  intro p r g
  constructor
  · exact regOf_eq_some p r g
  · rintro ⟨hm, rfl⟩
    exact regOf_number p g hm

/-! ### CFGRD and CFGWR by register -/

/-- CFGRD of a register the block has. -/
theorem cfgrd_reads (s : State) (g : Reg) (v : Word) (hm : g.mapped s.params = true) (hv : s.regValue g = v) :
    exec (.cfgrd g.number) s = .next { s with resp := ⟨v, none⟩ } := by
  subst hv
  simp only [exec, execCfgrd, regOf_number _ _ hm, State.respond]

/-- CFGWR of a register that is writable whether the engine is enabled or not. -/
theorem cfgwr_rw (s : State) (g : Reg) (v : Word) (hm : g.mapped s.params = true) (hg : g.access = .rw) :
    exec (.cfgwr g.number v) s = .next ((s.regWrite g v).respond 0) := by
  simp only [exec, execCfgwr, regOf_number _ _ hm, hg]

/-- CFGWR of a configuration register of a disabled engine. -/
theorem cfgwr_rwf (s : State) (g : Reg) (v : Word) (hm : g.mapped s.params = true) (hg : g.access = .rwf)
    (hen : s.en = false) : exec (.cfgwr g.number v) s = .next ((s.regWrite g v).respond 0) := by
  simp [exec, execCfgwr, regOf_number _ _ hm, hg, hen]

/-- CFGWR of STATUS. -/
theorem cfgwr_status (s : State) (v : Word) :
    exec (.cfgwr (Reg.number .status) v) s = .next ((s.clearFlags v).respond 0) := by
  simp only [exec, execCfgwr, regOf_number s.params .status rfl, Reg.access]

theorem toNat_append_eq_add {n m : Nat} (x : BitVec n) (y : BitVec m) :
    (x ++ y).toNat = x.toNat * 2 ^ m + y.toNat := by
  rw [BitVec.toNat_append, ← Nat.shiftLeft_add_eq_or_of_lt y.isLt, Nat.shiftLeft_eq]

/-- The packing of R34 as a sum. -/
theorem word0_eq (p : Params) : Params.word0 p =
    BitVec.ofNat 32 (p.cap.toNat + p.fsMax.val * 2 ^ 16 + p.nCmd.val * 2 ^ 21
      + (if p.byteOrder = .be then 1 else 0) * 2 ^ 27 + (if p.noIntDispatch then 1 else 0) * 2 ^ 28) := by
  have hf := p.fsMax.isLt
  have hn := p.nCmd.isLt
  have hc := p.cap.isLt
  apply BitVec.eq_of_toNat_eq
  unfold Params.word0
  simp only [toNat_append_eq_add, BitVec.toNat_ofNat, BitVec.toNat_ofBool]
  rw [Nat.mod_eq_of_lt (show p.nCmd.val < 2 ^ 6 by omega), Nat.mod_eq_of_lt (show p.fsMax.val < 2 ^ 5 by omega)]
  cases p.noIntDispatch <;> cases p.byteOrder <;> simp <;> omega

/-- Settles O31: the registers of the map by their numbers; a field narrower than a word is zero-extended. -/
theorem cfgrdAnswersTheRegisterValue : Obligations.CfgrdAnswersTheRegisterValue := by
  intro s
  have zext {w : Nat} (x : BitVec w) : x.setWidth 32 = BitVec.ofNat 32 x.toNat := (BitVec.ofNat_toNat 32 x).symm
  have hen : s.regValue .ctrl = if s.en then 1 else 0 := by
    unfold State.regValue
    cases s.en <;> rfl
  exact ⟨cfgrd_reads s .ctrl _ rfl hen, cfgrd_reads s .status _ rfl (zext _), cfgrd_reads s .width0 _ rfl rfl,
    cfgrd_reads s .width1 _ rfl (zext _), cfgrd_reads s .feat _ rfl (zext _), cfgrd_reads s .rstseq _ rfl (zext _),
    cfgrd_reads s .lenExact _ rfl rfl, cfgrd_reads s .lenMax _ rfl rfl, cfgrd_reads s .user _ rfl rfl,
    cfgrd_reads s .param0 _ rfl (word0_eq _), cfgrd_reads s .param1 _ rfl (zext s.params.txcap),
    cfgrd_reads s .rxCount _ rfl (zext _), cfgrd_reads s .rxBodyLen _ rfl rfl, cfgrd_reads s .rxRstRun _ rfl (zext _), cfgrd_reads s .txCmd _ rfl rfl,
    cfgrd_reads s .txCtl _ rfl rfl, cfgrd_reads s .txBodyLen _ rfl rfl, cfgrd_reads s .txArgs _ rfl (zext _),
    cfgrd_reads s .txLen _ rfl (zext _), fun i hi => cfgrd_reads s (.fs i) _ (decide_eq_true hi) (zext _),
    fun i hi => ⟨cfgrd_reads s (.ctCode i) _ (decide_eq_true hi) rfl,
      cfgrd_reads s (.ctHid i) _ (decide_eq_true hi) (zext _)⟩⟩

/-- Settles O34: the table and the encoder's operands are the registers of access class RW. -/
theorem cfgwrWritesTableAndEncoderOperands : Obligations.CfgwrWritesTableAndEncoderOperands := by
  intro s v
  simp only [BitVec.ofNat_toNat]
  exact ⟨cfgwr_rw s .txCmd v rfl rfl, cfgwr_rw s .txCtl v rfl rfl, cfgwr_rw s .txBodyLen v rfl rfl,
    cfgwr_rw s .txArgs v rfl rfl, fun i hi => ⟨cfgwr_rw s (.ctCode i) v (decide_eq_true hi) rfl,
      cfgwr_rw s (.ctHid i) v (decide_eq_true hi) rfl⟩⟩

/-- Settles O35: the configuration registers are those of access class RWF. -/
theorem cfgwrWritesConfigurationWhileDisabled : Obligations.CfgwrWritesConfigurationWhileDisabled := by
  intro s v hen
  simp only [BitVec.ofNat_toNat]
  exact ⟨cfgwr_rwf s .width0 v rfl rfl hen, cfgwr_rwf s .width1 v rfl rfl hen, cfgwr_rwf s .feat v rfl rfl hen,
    cfgwr_rwf s .rstseq v rfl rfl hen, cfgwr_rwf s .lenExact v rfl rfl hen, cfgwr_rwf s .lenMax v rfl rfl hen,
    cfgwr_rwf s .user v rfl rfl hen, fun i hi => cfgwr_rwf s (.fs i) v (decide_eq_true hi) rfl hen⟩

/-- Settles O38: the mask of R197, bit by bit. -/
theorem statusWriteOneToClear : Obligations.StatusWriteOneToClear := by
  intro s v
  refine ⟨_, cfgwr_status s v, rfl, fun k hk => ?_⟩
  simp [hk]

/-! ### Legal configurations -/

/-- An 8-bit field of a register, as a number. -/
theorem byteField_toNat {w : Nat} (x : BitVec w) (k : Nat) : (x.extractLsb' k 8).toNat = x.toNat / 2 ^ k % 256 := by
  rw [BitVec.extractLsb'_toNat, Nat.shiftRight_eq_div_pow]

/-- The lowest 8-bit field of a register, as a number. -/
theorem lowField_toNat {w : Nat} (x : BitVec w) : (x.extractLsb' 0 8).toNat = x.toNat % 256 := by
  rw [byteField_toNat, Nat.pow_zero, Nat.div_one]

/-- The uppermost 8-bit field of a register, as a number. -/
theorem topField_toNat {k : Nat} (x : BitVec (k + 8)) : (x.extractLsb' k 8).toNat = x.toNat / 2 ^ k := by
  rw [byteField_toNat]
  exact Nat.mod_eq_of_lt (Nat.div_lt_of_lt_mul (Nat.pow_add 2 k 8 ▸ x.isLt))

theorem wFs_eq (s : State) : s.wFs = s.width0.toNat % 256 := lowField_toNat ..

theorem wCmd_eq (s : State) : s.wCmd = s.width0.toNat / 2 ^ 8 % 256 := byteField_toNat ..

theorem wTs_eq (s : State) : s.wTs = s.width0.toNat / 2 ^ 16 % 256 := byteField_toNat ..

theorem wLen_eq (s : State) : s.wLen = s.width0.toNat / 2 ^ 24 := topField_toNat (k := 24) s.width0

theorem wInt_eq (s : State) : s.wInt = s.width1.toNat % 256 := lowField_toNat ..

theorem wCtl_eq (s : State) : s.wCtl = s.width1.toNat / 2 ^ 8 := topField_toNat (k := 8) s.width1

theorem rstCount_toNat (s : State) : s.rstCount.toNat = s.rstseq.toNat / 2 ^ 8 := topField_toNat (k := 8) s.rstseq

theorem capOk_iff (s : State) : s.capOk = true ↔ s.hdr + s.maxBody + s.wInt + s.wCtl ≤ s.params.cap.toNat :=
  decide_eq_true_iff

/-- Settles O42: the fields are the numbers at their places, and the two predicates are the clauses over the fields. -/
theorem legalConfigurations : Obligations.LegalConfigurations := by
  intro s
  simp only [← wFs_eq, ← wCmd_eq, ← wTs_eq, ← wLen_eq, ← wInt_eq, ← wCtl_eq, ← rstCount_toNat]
  constructor
  · rw [cfgLegal_iff]
    simp only [codecWidth_iff]
    rfl
  · intro _
    exact capOk_iff s

/-! ### What an instruction leaves of the state -/

/-- No flag fell between two states: STATUS is the same, or one flag was raised. -/
def State.FlagsKept (s t : State) : Prop := t.status = s.status ∨ ∃ f : Flag, t.status = s.status ||| f.mask

theorem flagsKept_raise (s : State) (f : Flag) : s.FlagsKept (s.raise f) := .inr ⟨f, rfl⟩

/-- A flag that was set stays set when none falls. -/
theorem flagsKept_getLsbD {s t : State} (h : s.FlagsKept t) (k : Nat) (hk : s.status.getLsbD k = true) :
    t.status.getLsbD k = true := by
  rcases h with h | ⟨f, h⟩ <;> rw [h]
  · exact hk
  · rw [BitVec.getLsbD_or, hk, Bool.true_or]

/-- What every instruction `i` leaves of the state `s`, except a CFGWR of STATUS or CTRL: each store and the progress
registers but for their owners, the flags but for a raise, EN, and what unwritten bytes hold. -/
structure ExecFrame (i : Instr) (s t : State) : Prop where
  buf : (∀ b, i ≠ .feed b) → t.buf = s.buf
  txb : (∀ j b, i ≠ .txwr j b) → t.txb = s.txb
  txo : i ≠ .encode → t.txo = s.txo
  resets : t.resets = s.resets
  progress : (∀ b, i ≠ .feed b) → i ≠ .clear → t.n = s.n ∧ t.bodyLen = s.bodyLen ∧ t.rstRun = s.rstRun
  en : t.en = s.en
  flags : s.FlagsKept t

/-- A change of the response, the flags upward and the codec port stays within every instruction's frame. -/
theorem execFrame_of_answer (i : Instr) {s t : State}
    (h : t = { s with status := t.status, resp := t.resp, codec := t.codec }) (hf : s.FlagsKept t) : ExecFrame i s t := by
  rw [h] at hf ⊢
  exact ⟨fun _ => rfl, fun _ => rfl, fun _ => rfl, rfl, fun _ _ => ⟨rfl, rfl, rfl⟩, rfl, hf⟩

theorem refuseCommand_execFrame (i : Instr) (s : State) : ExecFrame i s s.refuseCommand :=
  execFrame_of_answer i rfl (flagsKept_raise s .cmdErr)

theorem respond_execFrame (i : Instr) (s : State) (v : Word) : ExecFrame i s (s.respond v) :=
  execFrame_of_answer i rfl (.inl rfl)

theorem regWrite_execFrame (i : Instr) (s : State) (g : Reg) (v : Word) :
    ExecFrame i s ((s.regWrite g v).respond 0) := by
  rw [regWrite_frame]
  exact ⟨fun _ => rfl, fun _ => rfl, fun _ => rfl, rfl, fun _ _ => ⟨rfl, rfl, rfl⟩, rfl, .inl rfl⟩

/-- What FEED changes (45_host_commands.md R204), as one equation. -/
def State.FeedFrame (s t : State) : Prop :=
  t = { s with n := t.n, bodyLen := t.bodyLen, rstRun := t.rstRun, buf := t.buf, status := t.status, resp := t.resp }

/-- FEED's stages after the append keep to FEED's frame and touch no flag. -/
theorem stages_feedFrame {s t : State} {b : Byte} (h : ((s.passed b).append b).StageFrame t) :
    s.FeedFrame t ∧ t.status = s.status := by
  rw [State.StageFrame] at h
  rw [h]
  exact ⟨rfl, rfl⟩

theorem appendedStages_frame (s : State) (b : Byte) :
    ((s.passed b).append b).StageFrame ((s.passed b).append b).stage2.stage3.stage4 :=
  StageFrame.trans (StageFrame.trans (stage2_frame _) (stage3_frame _)) (stage4_frame _)

theorem execFeed_frame (s t : State) (b : Byte) (h : execFeed b s = .next t) : s.FeedFrame t ∧ s.FlagsKept t := by
  rcases execFeed_cases s b with ⟨_, e⟩ | ⟨_, _, e⟩ | ⟨_, _, _, e⟩ | ⟨_, _, _, e⟩ | ⟨_, _, _, e⟩ <;>
    rw [e] at h <;> cases h
  · exact ⟨rfl, flagsKept_raise s .cmdErr⟩
  · unfold State.fireReset
    split <;> exact ⟨rfl, .inl rfl⟩
  · exact ⟨rfl, flagsKept_raise s .ovf⟩
  · obtain ⟨hframe, hstatus⟩ := stages_feedFrame (appendedStages_frame s b)
    exact ⟨hframe, .inl hstatus⟩

theorem execFeed_execFrame (s t : State) (b : Byte) (h : execFeed b s = .next t) : ExecFrame (.feed b) s t := by
  obtain ⟨hframe, hflags⟩ := execFeed_frame s t b h
  rw [State.FeedFrame] at hframe
  rw [hframe] at hflags ⊢
  exact ⟨fun hb => absurd rfl (hb b), fun _ => rfl, fun _ => rfl, rfl, fun hb => absurd rfl (hb b), rfl, hflags⟩

theorem encodeFrame_execFrame (s : State) : ExecFrame .encode s s.encodeFrame := by
  rw [encodeFrame_eq]
  exact ⟨fun _ => rfl, fun _ => rfl, fun he => absurd rfl he, rfl, fun _ _ => ⟨rfl, rfl, rfl⟩, rfl, .inl rfl⟩

theorem execEncode_execFrame (s t : State) (h : execEncode s = .next t) : ExecFrame .encode s t := by
  have hfail : ExecFrame .encode s s.encodeFail :=
    ⟨fun _ => rfl, fun _ => rfl, fun _ => rfl, rfl, fun _ _ => ⟨rfl, rfl, rfl⟩, rfl, .inl rfl⟩
  rcases execEncode_cases s with ⟨_, e⟩ | ⟨_, _, e⟩ | ⟨_, _, _, _, e⟩ | ⟨_, e⟩ <;> rw [e] at h <;> cases h
  · exact refuseCommand_execFrame _ s
  · exact hfail
  · exact hfail
  · exact encodeFrame_execFrame s

theorem execTxwr_execFrame (s t : State) (j : BitVec 16) (b : Byte) (h : execTxwr j b s = .next t) :
    ExecFrame (.txwr j b) s t := by
  rcases execTxwr_cases j b s with ⟨_, e⟩ | ⟨_, e⟩ <;> rw [e] at h <;> cases h
  · exact ⟨fun _ => rfl, fun hw => absurd rfl (hw j b), fun _ => rfl, rfl, fun _ _ => ⟨rfl, rfl, rfl⟩, rfl, .inl rfl⟩
  · exact refuseCommand_execFrame _ s

theorem execTxrd_execFrame (s t : State) (i : Instr) (j : BitVec 16) (h : execTxrd j s = .next t) : ExecFrame i s t := by
  rcases execTxrd_cases j s with ⟨_, e⟩ | ⟨_, e⟩ <;> rw [e] at h <;> cases h
  · exact respond_execFrame i s _
  · exact refuseCommand_execFrame i s

theorem execCfgrd_execFrame (s t : State) (i : Instr) (r : BitVec 8) (h : execCfgrd r s = .next t) :
    ExecFrame i s t := by
  rcases execCfgrd_cases r s with ⟨_, e⟩ | ⟨_, _, e⟩ <;> rw [e] at h <;> cases h
  · exact refuseCommand_execFrame i s
  · exact respond_execFrame i s _

theorem execClear_execFrame (s t : State) (h : execClear s = .next t) : ExecFrame .clear s t := by
  cases h
  exact ⟨fun _ => rfl, fun _ => rfl, fun _ => rfl, rfl, fun _ hc => absurd rfl hc, rfl, .inl rfl⟩

theorem putfAlone_execFrame (s t : State) (i : Instr) (w : Nat) (h : s.putfAlone w = .next t) : ExecFrame i s t := by
  rcases putfAlone_cases s w with ⟨_, e⟩ | ⟨_, e⟩ <;> rw [e] at h <;> cases h
  exact execFrame_of_answer i rfl (.inl rfl)

theorem getfAlone_execFrame (s t : State) (i : Instr) (w : Nat) (h : s.getfAlone w = .next t) : ExecFrame i s t := by
  rcases getfAlone_cases s w with ⟨_, e⟩ | ⟨_, e⟩ <;> rw [e] at h <;> cases h
  exact execFrame_of_answer i rfl (.inl rfl)

/-! ### Every instruction -/

theorem execCfgwr_frame (s t : State) (i : Instr) (r : BitVec 8) (v : Word) (h : execCfgwr r v s = .next t) :
    ExecFrame i s t ∨ (r = Reg.number .status ∧ t = (s.clearFlags v).respond 0) ∨
      (r = Reg.number .ctrl ∧ t = (s.writeCtrl v).respond 0) := by
  rcases execCfgwr_cases r v s with ⟨_, e⟩ | ⟨g, hg, ⟨_, e⟩ | ⟨_, e⟩ | ⟨_, _, e⟩ | ⟨_, _, e⟩ | ⟨hs, e⟩ | ⟨hc, e⟩⟩ <;>
    rw [e] at h <;> cases h
  · exact .inl (refuseCommand_execFrame i s)
  · exact .inl (respond_execFrame i s 0)
  · exact .inl (regWrite_execFrame i s g v)
  · exact .inl (refuseCommand_execFrame i s)
  · exact .inl (regWrite_execFrame i s g v)
  · subst hs
    exact .inr (.inl ⟨(regOf_eq_some _ _ _ hg).2.symm, rfl⟩)
  · subst hc
    exact .inr (.inr ⟨(regOf_eq_some _ _ _ hg).2.symm, rfl⟩)

/-- What an instruction can do beyond its frame: clear flags or write CTRL. -/
theorem exec_frame (i : Instr) (s t : State) (h : exec i s = .next t) :
    ExecFrame i s t ∨ (∃ v, i = .cfgwr (Reg.number .status) v ∧ t = (s.clearFlags v).respond 0) ∨
      ∃ v, i = .cfgwr (Reg.number .ctrl) v ∧ t = (s.writeCtrl v).respond 0 := by
  cases i with
  | feed b => exact .inl (execFeed_execFrame s t b h)
  | cfgwr r v =>
    rcases execCfgwr_frame s t (.cfgwr r v) r v h with hf | ⟨rfl, ht⟩ | ⟨rfl, ht⟩
    · exact .inl hf
    · exact .inr (.inl ⟨v, rfl, ht⟩)
    · exact .inr (.inr ⟨v, rfl, ht⟩)
  | cfgrd r => exact .inl (execCfgrd_execFrame s t _ r h)
  | clear => exact .inl (execClear_execFrame s t h)
  | encode => exact .inl (execEncode_execFrame s t h)
  | txwr j b => exact .inl (execTxwr_execFrame s t j b h)
  | txrd j => exact .inl (execTxrd_execFrame s t _ j h)
  | putf1 => exact .inl (putfAlone_execFrame s t _ 1 h)
  | putf2 => exact .inl (putfAlone_execFrame s t _ 2 h)
  | putf4 => exact .inl (putfAlone_execFrame s t _ 4 h)
  | getf1 => exact .inl (getfAlone_execFrame s t _ 1 h)
  | getf2 => exact .inl (getfAlone_execFrame s t _ 2 h)
  | getf4 => exact .inl (getfAlone_execFrame s t _ 4 h)

/-! ### Flags, EN and the stores over all instructions -/

theorem clearFlags_getLsbD (s : State) (v : Word) (k : Nat) (hk : s.status.getLsbD k = true) :
    (s.clearFlags v).status.getLsbD k = !v.getLsbD k := by
  have hk3 : k < 3 := BitVec.lt_of_getLsbD hk
  simp [hk, hk3]

theorem writeCtrl_flagsKept (s : State) (v : Word) : s.FlagsKept (s.writeCtrl v) := by
  rcases writeCtrl_cases s v with ⟨_, e⟩ | ⟨_, _, e⟩ | ⟨_, _, _, _, e⟩ | ⟨_, _, _, e⟩ <;> rw [e]
  · exact .inl rfl
  · exact .inl rfl
  · exact .inl rfl
  · exact flagsKept_raise s .cfgErr

/-- What a write of CTRL leaves alone: all stores, and what their unwritten bytes hold. -/
theorem writeCtrl_stores (s : State) (v : Word) :
    (s.writeCtrl v).buf = s.buf ∧ (s.writeCtrl v).txb = s.txb ∧ (s.writeCtrl v).txo = s.txo ∧
      (s.writeCtrl v).resets = s.resets := by
  rcases writeCtrl_cases s v with ⟨_, e⟩ | ⟨_, _, e⟩ | ⟨_, _, _, _, e⟩ | ⟨_, _, _, e⟩ <;> rw [e] <;>
    exact ⟨rfl, rfl, rfl, rfl⟩

/-- Settles O43: within its frame an instruction only raises flags, and so does a write of CTRL; CFGWR of STATUS clears those
its mask names. -/
theorem onlyTheHostClearsAFlag : Obligations.OnlyTheHostClearsAFlag := by
  intro i s t k h hs ht
  rcases exec_frame i s t h with hf | ⟨v, rfl, rfl⟩ | ⟨v, rfl, rfl⟩
  · rw [flagsKept_getLsbD hf.flags k hs] at ht; cases ht
  · refine ⟨v, rfl, ?_⟩
    rw [respond_status, clearFlags_getLsbD s v k hs] at ht
    simpa using ht
  · rw [respond_status, flagsKept_getLsbD (writeCtrl_flagsKept s v) k hs] at ht; cases ht

/-- Settles O44: only a write of CTRL changes EN, and of its outcomes only the legal enable raises it. -/
theorem onlyALegalEnableEnables : Obligations.OnlyALegalEnableEnables := by
  intro i s t h hs ht
  rcases exec_frame i s t h with hf | ⟨v, rfl, rfl⟩ | ⟨v, rfl, rfl⟩
  · rw [hf.en, hs] at ht; cases ht
  · rw [respond_en, clearFlags_en, hs] at ht; cases ht
  · rcases writeCtrl_cases s v with ⟨_, e⟩ | ⟨hen, _, _⟩ | ⟨_, hv, hl, hc, e⟩ | ⟨_, _, _, e⟩
    · rw [respond_en, e, hs] at ht; cases ht
    · rw [hs] at hen; cases hen
    · exact ⟨v, rfl, hv, hl, hc, by rw [e]; rfl⟩
    · rw [respond_en, e, raise_en, hs] at ht; cases ht

/-- Settles O59: clearing flags and writing CTRL touch no store, and every other effect is within the instruction's frame. -/
theorem onlyTheirOwnersChangeTheStores : Obligations.OnlyTheirOwnersChangeTheStores := by
  intro i s t h
  have hheld (hr : t.resets = s.resets) (k : StoreId) : t.held k = s.held k := by rw [State.held, State.held, hr]
  rcases exec_frame i s t h with hf | ⟨v, rfl, rfl⟩ | ⟨v, rfl, rfl⟩
  · exact ⟨hf.buf, hf.txb, hf.txo, hheld hf.resets⟩
  · exact ⟨fun _ => rfl, fun _ => rfl, fun _ => rfl, hheld rfl⟩
  · obtain ⟨hb, hx, ho, hr⟩ := writeCtrl_stores s v
    exact ⟨fun _ => hb, fun _ => hx, fun _ => ho, hheld hr⟩

/-! ### The stores an instruction does not touch -/

/-- The stores an instruction reads or writes (10_state.md R23, R37). -/
def Instr.touches : Instr → StoreId → Bool
  | .feed _, .buf => true
  | .encode, .txb => true
  | .encode, .txo => true
  | .txwr _ _, .txb => true
  | .txrd _, .txo => true
  | _, _ => false

/-- Other contents of a store that an instruction does not touch go through it unchanged. -/
theorem exec_withStore (i : Instr) (s : State) (k : StoreId) (m : Store) (h : Instr.touches i k = false) :
    exec i (s.withStore k m) = mapNext (·.withStore k m) (exec i s) := by
  cases i with
  | feed b => exact execFeed_withStore s k m b (by rintro rfl; cases h)
  | cfgwr r v => exact execCfgwr_withStore r v s k m
  | cfgrd r => exact execCfgrd_withStore r s k m
  | clear => cases k <;> rfl
  | encode =>
    cases k with
    | buf => exact execEncode_withBuf s m
    | txb => cases h
    | txo => cases h
  | txwr j b => exact execTxwr_withStore j b s k m (by rintro rfl; cases h)
  | txrd j => exact execTxrd_withStore j s k m (by rintro rfl; cases h)
  | putf1 => exact putfAlone_withStore s 1 k m
  | putf2 => exact putfAlone_withStore s 2 k m
  | putf4 => exact putfAlone_withStore s 4 k m
  | getf1 => exact getfAlone_withStore s 1 k m
  | getf2 => exact getfAlone_withStore s 2 k m
  | getf4 => exact getfAlone_withStore s 4 k m

theorem exec_withStore_next (i : Instr) (s t : State) (k : StoreId) (m : Store) (h : exec i s = .next t)
    (hk : Instr.touches i k = false) : exec i (s.withStore k m) = .next (t.withStore k m) := by
  rw [exec_withStore i s k m hk, h, mapNext_next]

/-- TXWR overwrites its byte of TXB and reads none. -/
theorem execTxwr_withTxb (s t : State) (j : BitVec 16) (b : Byte) (m : Store) (h : execTxwr j b s = .next t) :
    ∃ m', execTxwr j b (s.withStore .txb m) = .next (t.withStore .txb m') := by
  unfold execTxwr at h ⊢
  split at h <;> cases h
  next hj => exact ⟨storeWrite m j.toNat [b], if_pos hj⟩
  next hj => exact ⟨m, if_neg hj⟩

theorem touches_buf (i : Instr) (h : ∀ b, i ≠ .feed b) : Instr.touches i .buf = false := by
  cases i with
  | feed b => exact absurd rfl (h b)
  | _ => rfl

theorem touches_txb (i : Instr) (he : i ≠ .encode) (hw : ∀ j b, i ≠ .txwr j b) : Instr.touches i .txb = false := by
  cases i with
  | encode => exact absurd rfl he
  | txwr j b => exact absurd rfl (hw j b)
  | _ => rfl

theorem touches_txo (i : Instr) (he : i ≠ .encode) (hr : ∀ j, i ≠ .txrd j) : Instr.touches i .txo = false := by
  cases i with
  | encode => exact absurd rfl he
  | txrd j => exact absurd rfl (hr j)
  | _ => rfl

/-- Settles O60: an instruction commutes with a change of a store it does not touch; TXWR, which touches TXB, only writes it. -/
theorem onlyTheirOwnersReadTheStores : Obligations.OnlyTheirOwnersReadTheStores := by
  intro i s t m h
  refine ⟨fun hb => exec_withStore_next i s t .buf m h (touches_buf i hb), fun he => ?_,
    fun he hr => exec_withStore_next i s t .txo m h (touches_txo i he hr)⟩
  by_cases hw : ∀ j b, i ≠ .txwr j b
  · exact ⟨m, exec_withStore_next i s t .txb m h (touches_txb i he hw), fun _ => rfl⟩
  · push Not at hw
    obtain ⟨j, b, rfl⟩ := hw
    obtain ⟨m', hm'⟩ := execTxwr_withTxb s t j b m h
    exact ⟨m', hm', fun hne => absurd rfl (hne j b)⟩

/-! ### The progress invariant through FEED -/

/-- The parts of the progress invariant that do not compare N with a length: what holds between the append and the completion
check of FEED. -/
structure State.ProgressBase (s : State) : Prop where
  legal : s.cfgLegal = true
  capOk : s.capOk = true
  written : storeWritten s.buf 0 s.n.toNat = true
  runBound : s.rstEn = true → s.rstRun.toNat < s.rstCount.toNat
  markerKept : s.wFs ≤ s.n.toNat → s.bufBytes 0 s.wFs = s.marker

/-- BODY_LEN is the decoded length and passes the policy (10_state.md R44 (e)). -/
def State.LengthTaken (s : State) : Prop :=
  s.bodyLen = decBytes s.params.byteOrder (s.bufBytes s.offLen s.wLen) ∧ s.lenFails s.bodyLen = false

theorem hdr_le_frameMax (s : State) : s.hdr ≤ s.frameMax := by
  simp only [State.frameMax]; omega

/-- Below the header there is no length yet. -/
theorem progress_below_header {s : State} (h : s.ProgressBase) (hn : s.n.toNat < s.hdr) : s.ProgressOk where
  legal := h.legal
  capOk := h.capOk
  written := h.written
  frameBound _ := Nat.lt_of_lt_of_le hn (hdr_le_frameMax s)
  runBound := h.runBound
  markerKept := h.markerKept
  lengthKept hh := absurd hn (Nat.not_lt.mpr hh)

/-- A frame whose length passes the policy is at most the longest frame. -/
theorem total_le_frameMax {s : State} (hl : s.cfgLegal = true) (ht : s.LengthTaken) :
    s.total s.bodyLen.toNat ≤ s.frameMax := by
  obtain ⟨hdec, hpass⟩ := ht
  obtain ⟨_, _, hw4, _⟩ := legal_pos s hl
  have hlen : (s.bufBytes s.offLen s.wLen).length = s.wLen := memRead_length ..
  have hlt : s.bodyLen.toNat < 2 ^ (8 * s.wLen) := by
    have := decBytes_lt s.params.byteOrder (s.bufBytes s.offLen s.wLen) (by rw [hlen]; exact hw4)
    rwa [← hdec, hlen] at this
  have hmax := len_le_max s s.bodyLen hlt hpass
  simp only [State.total, State.frameMax]; omega

/-- From the header on the length bounds the count. -/
theorem progress_from_header {s : State} (h : s.ProgressBase) (ht : s.LengthTaken)
    (hn : s.wedge = false → s.n.toNat < s.total s.bodyLen.toNat) : s.ProgressOk where
  legal := h.legal
  capOk := h.capOk
  written := h.written
  frameBound hw := Nat.lt_of_lt_of_le (hn hw) (total_le_frameMax h.legal ht)
  runBound := h.runBound
  markerKept := h.markerKept
  lengthKept _ := ⟨ht.1, ht.2, hn⟩

/-- An event that restarts the frame sets the invariant up again, whatever BODY_LEN is. -/
theorem restart_progress {s : State} (h : s.ProgressBase) (len : Word) (r : Response) :
    State.ProgressOk { s with bodyLen := len, n := 0, resp := r } :=
  zeroN_progress _ _ (enable_progress s h.legal h.capOk) rfl rfl rfl rfl rfl rfl rfl rfl rfl rfl h.runBound

/-- The completion check keeps the invariant: at the threshold it restarts the frame, below it nothing happens. -/
theorem complete_progress {s : State} (f : List Byte) (h : s.ProgressBase) (ht : s.LengthTaken)
    (hn : s.wedge = false → s.n.toNat ≤ s.total s.bodyLen.toNat) : (s.complete f).ProgressOk := by
  unfold State.complete
  split
  · split
    · exact restart_progress h _ _
    · exact restart_progress h _ _
  next hc =>
    refine progress_from_header h ht fun hw => ?_
    exact Nat.lt_of_le_of_ne (hn hw) fun heq => hc ⟨heq, hw⟩

theorem fed_wFs (s : State) (b : Byte) : (s.fed b).wFs = s.wFs := rfl

theorem fed_hdr (s : State) (b : Byte) : (s.fed b).hdr = s.hdr := rfl

theorem fed_n_toNat (s : State) (b : Byte) (hn : s.n.toNat < s.params.cap.toNat) : (s.fed b).n.toNat = s.n.toNat + 1 :=
  append_n_toNat s b hn

theorem fed_bufBytes (s : State) (b : Byte) : (s.fed b).bufBytes 0 (s.n.toNat + 1) = s.accumulated b := append_read s b

/-- After the append the base holds, if the byte that completes the window completes the marker. -/
theorem fed_progressBase {s : State} {b : Byte} (h : s.ProgressOk) (hf : ¬ s.fires b)
    (hn : s.n.toNat < s.params.cap.toNat) (hm : s.n.toNat + 1 = s.wFs → s.accumulated b = s.marker) :
    (s.fed b).ProgressBase where
  legal := h.legal
  capOk := h.capOk
  written := by rw [fed_n_toNat s b hn]; exact append_written s b h.written
  runBound := runAfter_lt s b h hf
  markerKept hw := by
    rw [fed_n_toNat s b hn, fed_wFs] at hw
    show (s.fed b).bufBytes 0 s.wFs = s.marker
    by_cases he : s.n.toNat + 1 = s.wFs
    · rw [← he, fed_bufBytes, hm he]
    · rw [bufBytes_append s b 0 s.wFs (by omega)]
      exact h.markerKept (by omega)

/-- A resync leaves W_FS - 1 written bytes, which are no marker yet. -/
theorem resync_progress {s : State} {b : Byte} (h : s.ProgressOk) (hf : ¬ s.fires b)
    (hn : s.n.toNat + 1 = s.wFs) (m : List Byte) (e : Event) :
    State.ProgressOk { s.fed b with
      buf := storeWrite (s.fed b).buf 0 m, n := (s.fed b).n - 1, resp := ⟨0, some e⟩ } := by
  have hcount : (s.fed b).n - 1 = s.n := BitVec.add_sub_cancel ..
  rw [hcount]
  have hfs : s.wFs ≤ s.hdr := by simp only [State.hdr]; omega
  refine progress_below_header ⟨h.legal, h.capOk, ?_, runAfter_lt s b h hf, fun hw => ?_⟩ ?_
  · exact storeWritten_storeWrite _ _ _ _ _ (storeWritten_storeWrite _ _ _ _ [b] h.written)
  · have hw : s.wFs ≤ s.n.toNat := hw
    omega
  · show s.n.toNat < s.hdr
    omega

/-- BODY_LEN is no part of the base. -/
theorem progressBase_bodyLen {s : State} (h : s.ProgressBase) (l : Word) :
    State.ProgressBase { s with bodyLen := l } :=
  ⟨h.legal, h.capOk, h.written, h.runBound, h.markerKept⟩

/-- The byte that completes the header: the length decoded from the accumulated bytes is the one in BUF. -/
theorem fed_takes_length {s : State} {b : Byte} (hh : s.n.toNat + 1 = s.hdr) (len : Word)
    (hlen : len = decBytes s.params.byteOrder (slice (s.accumulated b) s.offLen s.wLen))
    (hpass : s.lenFails len = false) : State.LengthTaken { s.fed b with bodyLen := len } := by
  refine ⟨?_, hpass⟩
  have hslice : (s.fed b).bufBytes s.offLen s.wLen = slice ((s.fed b).bufBytes 0 (s.n.toNat + 1)) s.offLen s.wLen :=
    storeRead_slice _ _ _ _ _ (Nat.le_of_eq hh.symm)
  show len = decBytes s.params.byteOrder ((s.fed b).bufBytes s.offLen s.wLen)
  rw [hslice, fed_bufBytes, hlen]

/-- Beyond the header the length stays taken. -/
theorem fed_keeps_length {s : State} (b : Byte) (hh : s.hdr ≤ s.n.toNat) (ht : s.LengthTaken) :
    (s.fed b).LengthTaken := by
  refine ⟨?_, ht.2⟩
  show s.bodyLen = decBytes s.params.byteOrder ((s.fed b).bufBytes s.offLen s.wLen)
  rw [bufBytes_append s b s.offLen s.wLen hh]
  exact ht.1

/-- FEED's stages keep the progress invariant. -/
theorem stages_progress {s : State} {b : Byte} (h : s.ProgressOk) (hf : ¬ s.fires b)
    (hn : s.n.toNat < s.params.cap.toNat) : ((s.fed b).stages (s.accumulated b)).ProgressOk := by
  have hcount := fed_n_toNat s b hn
  obtain ⟨hcmd, _⟩ := legal_pos s h.legal
  have hfs : s.wFs < s.hdr := by simp only [State.hdr]; omega
  rw [State.stages, accumulated_length, fed_wFs, fed_hdr]
  split
  next hw =>
    split
    next hm => exact progress_below_header (fed_progressBase h hf hn fun _ => hm) (by rw [hcount, hw]; exact hfs)
    next => exact resync_progress h hf hw _ _
  next hw =>
    have hbase := fed_progressBase h hf hn fun he => absurd he hw
    split
    next hlt => exact progress_below_header hbase (by rw [hcount]; exact hlt)
    next hge =>
      split
      next hh =>
        split
        next => exact restart_progress hbase _ _
        next hpass =>
          refine complete_progress _ (progressBase_bodyLen hbase _)
            (fed_takes_length hh _ rfl (Bool.eq_false_of_not_eq_true hpass)) fun _ => ?_
          show (s.fed b).n.toNat ≤ s.hdr + _ + s.wInt + s.wCtl
          omega
      next hne =>
        have hhdr : s.hdr ≤ s.n.toNat := by omega
        obtain ⟨hdec, hpass, hbound⟩ := h.lengthKept hhdr
        refine complete_progress _ hbase (fed_keeps_length b hhdr ⟨hdec, hpass⟩) fun hw => ?_
        rw [hcount]
        exact hbound hw

/-- FEED keeps the progress invariant. -/
theorem execFeed_progress (s t : State) (b : Byte) (h : s.ProgressOk) (hen : s.en = true) (hx : execFeed b s = .next t) :
    t.ProgressOk := by
  have hpos (hr : s.rstEn = true) : 0 < s.rstCount.toNat := Nat.zero_lt_of_lt (h.runBound hr)
  rcases execFeed_cases s b with ⟨hd, _⟩ | ⟨_, _, e⟩ | ⟨_, hf, _, e⟩ | ⟨_, _, _, e⟩ | ⟨_, hf, hn, _⟩
  · rw [hen] at hd; cases hd
  · rw [e] at hx; cases hx
    unfold State.fireReset
    split <;> exact zeroN_progress s _ h rfl rfl rfl rfl rfl rfl rfl rfl rfl rfl hpos
  · rw [e] at hx; cases hx
    exact zeroN_progress s _ h rfl rfl rfl rfl rfl rfl rfl rfl rfl rfl (runAfter_lt s b h hf)
  · rw [e] at hx; cases hx
  · rw [execFeed_stages s b hen hf hn h.legal] at hx; cases hx
    exact stages_progress h hf hn

/-! ### The stores in canonical form through every instruction -/

theorem execFeed_memoryWf (s t : State) (b : Byte) (h : s.memoryWf = true) (hx : execFeed b s = .next t) :
    t.memoryWf = true := by
  have hpassed : (s.passed b).memoryWf = true := h
  rcases execFeed_cases s b with ⟨_, e⟩ | ⟨_, _, e⟩ | ⟨_, _, _, e⟩ | ⟨_, _, _, e⟩ | ⟨_, _, hn, e⟩ <;>
    rw [e] at hx <;> cases hx
  · exact h
  · unfold State.fireReset
    split <;> exact h
  · exact h
  · have happ : ((s.passed b).append b).memoryWf = true :=
      memWrite_memoryWf (s.passed b) .buf s.n.toNat [b] hpassed hn
    have hcount : ((s.passed b).append b).n.toNat ≤ s.params.cap.toNat := by
      rw [append_n_toNat (s.passed b) b hn]; exact hn
    exact stage4_wf _ (stage3_wf _ (stage2_wf _ happ hcount))

theorem encodeFrame_memoryWf (s : State) (h : s.memoryWf = true) (he : s.encodes) : s.encodeFrame.memoryWf = true := by
  rw [encodeFrame_eq]
  rw [memoryWf_iff] at h ⊢
  have hfits : s.total s.txBodyLen.toNat ≤ s.params.txcap.toNat := Nat.le_trans he.2.1 (Nat.min_le_right _ _)
  have htxo := txoFinal_wf s (s.memRead .txb 0 s.txBodyLen.toNat) _ (memRead_length ..) hfits (h .txo)
  rw [← encodeWrites_txo] at htxo
  intro k
  cases k with
  | buf => exact h .buf
  | txb => exact h .txb
  | txo => exact htxo

theorem execEncode_memoryWf (s t : State) (h : s.memoryWf = true) (hx : execEncode s = .next t) :
    t.memoryWf = true := by
  rcases execEncode_cases s with ⟨_, e⟩ | ⟨_, _, e⟩ | ⟨_, _, _, _, e⟩ | ⟨he, e⟩ <;> rw [e] at hx <;> cases hx
  · exact h
  · exact h
  · exact h
  · exact encodeFrame_memoryWf s h he

theorem execTxwr_memoryWf (s t : State) (j : BitVec 16) (b : Byte) (h : s.memoryWf = true)
    (hx : execTxwr j b s = .next t) : t.memoryWf = true := by
  rcases execTxwr_cases j b s with ⟨hj, e⟩ | ⟨_, e⟩ <;> rw [e] at hx <;> cases hx
  · exact memWrite_memoryWf s .txb j.toNat [b] h hj
  · exact h

/-- Every instruction keeps the canonical form and the bounds of the stores: FEED, TXWR and ENCODE write within capacity, and
no other instruction changes a store. -/
theorem exec_memoryWf (i : Instr) (s t : State) (h : s.memoryWf = true) (hx : exec i s = .next t) :
    t.memoryWf = true := by
  obtain ⟨hbuf, htxb, htxo, _⟩ := onlyTheirOwnersChangeTheStores i s t hx
  have hparams := (exec_params_inputs i s t hx).1
  cases i with
  | feed b => exact execFeed_memoryWf s t b h hx
  | encode => exact execEncode_memoryWf s t h hx
  | txwr j b => exact execTxwr_memoryWf s t j b h hx
  | _ => exact wf_of_stores s t h (hbuf nofun) (htxb nofun) (htxo nofun) hparams

/-! ### The invariant through every instruction -/

theorem complete_n (s : State) (f : List Byte) : (s.complete f).n = s.n ∨ (s.complete f).n = 0 := by
  unfold State.complete
  split
  · split <;> exact .inr rfl
  · exact .inl rfl

/-- The count after FEED's stages. -/
theorem stages_n (s : State) (f : List Byte) :
    (s.stages f).n = s.n ∨ (s.stages f).n = s.n - 1 ∨ (s.stages f).n = 0 := by
  have hc (u : State) (hu : u.n = s.n) : (u.complete f).n = s.n ∨ (u.complete f).n = s.n - 1 ∨ (u.complete f).n = 0 := by
    rcases complete_n u f with h | h
    · exact .inl (h.trans hu)
    · exact .inr (.inr h)
  unfold State.stages
  split
  · split
    · exact .inl rfl
    · exact .inr (.inl rfl)
  · split
    · exact .inl rfl
    · split
      · split
        · exact .inr (.inr rfl)
        · exact hc _ rfl
      · exact hc _ rfl

/-- FEED never brings N above CAP. -/
theorem execFeed_countBound (s t : State) (b : Byte) (h : s.Inv) (hx : execFeed b s = .next t) :
    t.n.toNat ≤ s.params.cap.toNat := by
  rcases execFeed_cases s b with ⟨_, e⟩ | ⟨_, _, e⟩ | ⟨_, _, _, e⟩ | ⟨_, _, _, e⟩ | ⟨hen, hf, hn, _⟩
  · rw [e] at hx; cases hx
    exact h.countBound
  · rw [e] at hx; cases hx
    unfold State.fireReset
    split <;> exact Nat.zero_le _
  · rw [e] at hx; cases hx
    exact Nat.zero_le _
  · rw [e] at hx; cases hx
  · rw [execFeed_stages s b hen hf hn (h.progress hen).legal] at hx; cases hx
    rcases stages_n (s.fed b) (s.accumulated b) with e | e | e <;> rw [e]
    · rw [fed_n_toNat s b hn]; exact hn
    · have hback : (s.fed b).n - 1 = s.n := BitVec.add_sub_cancel ..
      rw [hback]; exact h.countBound
    · exact Nat.zero_le _

theorem execFeed_inv (s t : State) (b : Byte) (h : s.Inv) (hx : execFeed b s = .next t) : t.Inv where
  memory := execFeed_memoryWf s t b h.memory hx
  countBound := by
    rw [(exec_params_inputs (.feed b) s t hx).1]
    exact execFeed_countBound s t b h hx
  progress hen := by
    rw [(execFeed_execFrame s t b hx).en] at hen
    exact execFeed_progress s t b (h.progress hen) hen hx

/-- CLEAR restarts the frame. -/
theorem execClear_inv (s t : State) (h : s.Inv) (hx : execClear s = .next t) : t.Inv := by
  cases hx
  refine ⟨h.memory, Nat.zero_le _, fun hen => ?_⟩
  have hp := h.progress hen
  exact zeroN_progress s _ hp rfl rfl rfl rfl rfl rfl rfl rfl rfl rfl fun hr => Nat.zero_lt_of_lt (hp.runBound hr)

/-- The progress invariant depends on the setup, the progress registers and BUF. -/
theorem progress_of_setup {s t : State} (h : s.ProgressOk) (hs : t.setup = s.setup) (hr : t.resets = s.resets)
    (hb : t.buf = s.buf) (hn : t.n = s.n ∧ t.bodyLen = s.bodyLen ∧ t.rstRun = s.rstRun) : t.ProgressOk := by
  obtain ⟨hp, _, h0, h1, hft, hrs, hle, hlm, _, hfs⟩ := (setup_eq_iff s t).mp hs
  obtain ⟨hn, hl, hrun⟩ := hn
  exact progress_congr s t h hp hr h0 h1 hft hrs hle hlm hfs hn hl hrun hb

/-- An instruction that leaves BUF and the progress registers alone keeps the invariant: it leaves the setup too, or the engine
is disabled. -/
theorem execFrame_inv (i : Instr) (s t : State) (h : s.Inv) (hx : exec i s = .next t) (hf : ExecFrame i s t)
    (hfeed : ∀ b, i ≠ .feed b) (hclear : i ≠ .clear) : t.Inv := by
  have hprog := hf.progress hfeed hclear
  refine ⟨exec_memoryWf i s t h.memory hx, ?_, fun hen => ?_⟩
  · rw [hprog.1, (exec_params_inputs i s t hx).1]
    exact h.countBound
  · rw [hf.en] at hen
    rcases exec_setup i s t hx with hs | ⟨hdis, _⟩
    · exact progress_of_setup (h.progress hen) hs hf.resets (hf.buf hfeed) hprog
    · rw [hen] at hdis; cases hdis

/-- A write of CTRL keeps the invariant: a legal enable sets the progress part up. -/
theorem writeCtrl_inv (s : State) (v : Word) (h : s.Inv) : (s.writeCtrl v).Inv := by
  rcases writeCtrl_cases s v with ⟨_, e⟩ | ⟨_, _, e⟩ | ⟨_, _, hl, hc, e⟩ | ⟨_, _, _, e⟩ <;> rw [e]
  · exact h
  · exact ⟨h.memory, h.countBound, nofun⟩
  · exact ⟨h.memory, Nat.zero_le _, fun _ => enable_progress s hl hc⟩
  · exact ⟨h.memory, h.countBound, fun hen => progress_of_setup (h.progress hen) rfl rfl rfl ⟨rfl, rfl, rfl⟩⟩

/-- A change of what lies outside the engine keeps the invariant: the inputs, the response, the codec port and the flags. -/
theorem inv_of_outside {s t : State} (h : s.Inv)
    (ht : t = { s with inputs := t.inputs, resp := t.resp, codec := t.codec, status := t.status }) : t.Inv := by
  rw [ht]
  exact ⟨h.memory, h.countBound, fun hen =>
    progress_congr s _ (h.progress hen) rfl rfl rfl rfl rfl rfl rfl rfl rfl rfl rfl rfl rfl⟩

/-- An instruction that does not move the frame keeps the invariant: within its frame, by clearing flags, or by a write of
CTRL. -/
theorem exec_inv_of_not_feed_clear (i : Instr) (s t : State) (h : s.Inv) (hx : exec i s = .next t)
    (hfeed : ∀ b, i ≠ .feed b) (hclear : i ≠ .clear) : t.Inv := by
  rcases exec_frame i s t hx with hf | ⟨v, _, rfl⟩ | ⟨v, _, rfl⟩
  · exact execFrame_inv i s t h hx hf hfeed hclear
  · exact inv_of_outside h rfl
  · exact inv_of_outside (writeCtrl_inv s v h) rfl

/-- Every instruction keeps the invariant. -/
theorem exec_inv (i : Instr) (s t : State) (h : s.Inv) (hx : exec i s = .next t) : t.Inv := by
  cases i with
  | feed b => exact execFeed_inv s t b h hx
  | clear => exact execClear_inv s t h hx
  | _ => exact exec_inv_of_not_feed_clear _ s t h hx nofun nofun

theorem resetWith_inv (p : Params) : (State.resetWith p).Inv := ⟨rfl, Nat.zero_le _, nofun⟩

/-- Settles O10: disabled, with empty stores and N = 0. -/
theorem invariantHoldsAtReset : Obligations.InvariantHoldsAtReset := resetWith_inv

theorem hardwareReset_inv (s : State) : s.hardwareReset.Inv := ⟨rfl, Nat.zero_le _, nofun⟩

/-- Settles O11: a step runs one instruction on the state with its input taken, refuses a word, or resets. -/
theorem invariantKeptByEveryStep : Obligations.InvariantKeptByEveryStep := by
  intro s t h hx
  rcases step_cases s t hx with ⟨_, rfl⟩ | ⟨_, _, i, _, _, he⟩ | ⟨_, _, _, rfl⟩ | ⟨_, _, _, i, _, _, he⟩ |
    ⟨_, _, _, _, rfl⟩ | ⟨_, _, rfl⟩
  · exact h
  · exact exec_inv i _ t (inv_of_outside h rfl) he
  · exact inv_of_outside h rfl
  · exact exec_inv i _ t (inv_of_outside h rfl) he
  · exact inv_of_outside h rfl
  · exact hardwareReset_inv _

/-! ### The events of FEED -/

/-- Settles O29: the completion and the length stage clear N where they report; what they leave to report is a resync or
nothing. -/
theorem countIsZeroAfterEveryTerminalOutcome : Obligations.CountIsZeroAfterEveryTerminalOutcome := by
  intro s t b e hx he hne
  have hx : execFeed b s = .next t := hx
  rcases execFeed_cases s b with ⟨_, e'⟩ | ⟨_, _, e'⟩ | ⟨_, _, _, e'⟩ | ⟨_, _, _, e'⟩ | ⟨_, _, _, e'⟩ <;>
    rw [e'] at hx <;> cases hx
  · cases he
  · unfold State.fireReset
    split <;> rfl
  · rfl
  · rcases stage4_ev ((s.passed b).append b).stage2.stage3 with ⟨h4, hn4⟩ | h4
    · rcases stage3_ev ((s.passed b).append b).stage2 with h3 | h3
      · rw [h4, h3] at he
        rcases stage2_ev ((s.passed b).append b) with ⟨h2, _⟩ | ⟨d, h2⟩
        · rw [h2] at he; cases he
        · rw [h2] at he; cases he
          exact absurd rfl (hne d)
      · rw [hn4, h3]
    · exact h4

/-- What the completion stage reports. -/
theorem stage4_event (s : State) :
    s.stage4.resp.event = s.resp.event ∨ s.stage4.resp.event = some .intDrop ∨
      s.stage4.resp.event = some s.dispatchEvent := by
  unfold State.stage4
  repeat' split
  · exact .inr (.inr rfl)
  · exact .inr (.inl rfl)
  · exact .inr (.inr rfl)
  · exact .inl rfl
  · exact .inl rfl

theorem dispatchEvent_ne_overflow (s : State) : s.dispatchEvent ≠ .overflow := by
  unfold State.dispatchEvent
  split <;> exact nofun

/-- No stage after the append reports an overflow. -/
theorem stages_ne_overflow (s : State) (h : s.resp.event = none) :
    s.stage2.stage3.stage4.resp.event ≠ some .overflow := by
  rcases stage4_event s.stage2.stage3 with h4 | h4 | h4 <;> rw [h4]
  · rcases stage3_event s.stage2 with h3 | ⟨_, h3⟩ <;> rw [h3]
    · rcases stage2_ev s with ⟨h2, _⟩ | ⟨_, h2⟩ <;> rw [h2]
      · rw [h]; exact nofun
      · exact nofun
    · exact nofun
  · exact nofun
  · exact fun he => dispatchEvent_ne_overflow _ (Option.some.inj he)

/-- Outside wedge mode the longest frame fits, and N stays below it. -/
theorem n_lt_cap_of_not_wedge (s : State) (h : s.ProgressOk) (hw : s.wedge = false) :
    s.n.toNat < s.params.cap.toNat :=
  Nat.lt_of_lt_of_le (h.frameBound hw) (of_decide_eq_true h.capOk)

/-- Settles O14: N is below CAP, so the guard does not act, and no other path of FEED overflows or raises a flag. -/
theorem overflowNeedsWedgeMode : Obligations.OverflowNeedsWedgeMode := by
  intro s t b hinv hen hw hx
  have hx : execFeed b s = .next t := hx
  have hcap := n_lt_cap_of_not_wedge s (hinv.progress hen) hw
  rcases execFeed_cases s b with ⟨hd, _⟩ | ⟨_, _, e⟩ | ⟨_, _, hn, _⟩ | ⟨_, _, _, e⟩ | ⟨_, _, _, e⟩
  · rw [hen] at hd; cases hd
  · rw [e] at hx; cases hx
    unfold State.fireReset
    split <;> exact ⟨nofun, rfl⟩
  · rw [hn] at hcap; exact absurd hcap (Nat.lt_irrefl _)
  · rw [e] at hx; cases hx
  · rw [e] at hx; cases hx
    exact ⟨stages_ne_overflow _ rfl, (stages_feedFrame (appendedStages_frame s b)).2⟩

/-! ### Steps and reset -/

/-- Settles O5: the step decodes the word on the state with the input taken, and a decoded instruction runs by `exec`. -/
theorem stepRunsTheDecodedInstruction : Obligations.StepRunsTheDecodedInstruction := by
  refine ⟨fun s w rest i hi _ hd => ?_, fun s u ops rest i hi _ hd => ?_, fun s hi => ?_⟩
  · simp only [step, hi, runWord, hd]
  · simp only [step, hi, runWord, hd]
  · simp only [step, hi]

theorem resetWith_hasResetValues (p : Params) : (State.resetWith p).HasResetValues where
  progress := ⟨rfl, rfl, rfl⟩
  control := ⟨rfl, rfl⟩
  config := ⟨rfl, rfl, rfl, rfl, rfl, rfl, rfl⟩
  marker i := by simp [State.resetWith]
  table i := by simp [State.resetWith]
  encoder := ⟨rfl, rfl, rfl, rfl, rfl⟩
  stores k x := by cases k <;> rfl

/-- Settles O8: field by field. -/
theorem resetValues : Obligations.ResetValues := ⟨fun p => ⟨resetWith_hasResetValues p, rfl⟩, rfl⟩

/-- The reset input gives the values of reset; what it keeps is none of the spec's state. -/
theorem hardwareReset_hasResetValues (s : State) : s.hardwareReset.HasResetValues := by
  obtain ⟨hprog, hctl, hcfg, hmark, htab, henc, _⟩ := resetWith_hasResetValues s.params
  exact ⟨hprog, hctl, hcfg, hmark, htab, henc, fun k x => by cases k <;> rfl⟩

theorem step_hardReset (s : State) (rest : List Input) (hi : s.inputs = .hardReset :: rest) :
    step s = .next (State.hardwareReset { s with inputs := rest }) := by
  simp only [step, hi]

/-- Settles O9: the step takes the reset input off the list and acts on the rest of the state. -/
theorem hardwareResetGivesResetValues : Obligations.HardwareResetGivesResetValues := by
  intro s rest hi
  exact ⟨_, step_hardReset s rest hi, hardwareReset_hasResetValues _, rfl, rfl⟩

end Sys2Proof.Machine
end

section
/-! PROOFS. The memory statements (20_memory.md R50 to R58): the form of the stores over steps, the codec's bytes at the codec
port, and TXRD's read of TXO. -/

namespace Sys2Proof.Machine

/-! ### The stores in canonical form through every step -/

/-- Settles O12: taking an input, refusing a word and a reserved selector leave the stores; an instruction keeps their form
(`exec_memoryWf`); the reset input empties them. -/
theorem memoryFormKeptByEveryStep : Obligations.MemoryFormKeptByEveryStep := by
  intro s t h hx
  rcases step_cases s t hx with ⟨_, rfl⟩ | ⟨_, rest, i, _, _, he⟩ | ⟨_, _, _, rfl⟩ | ⟨_, ops, rest, i, _, _, he⟩ |
    ⟨_, _, _, _, rfl⟩ | ⟨_, _, rfl⟩
  · exact h
  · exact exec_memoryWf i { s with inputs := rest } t h he
  · exact h
  · exact exec_memoryWf i { s with inputs := rest, codec := ops } t h he
  · exact h
  · exact (hardwareReset_inv _).memory

/-! ### The codec inside its store -/

theorem putfAlone_inside (s : State) (w : Nat) (h : s.codec.off.toNat + w ≤ s.codec.bytes.length) :
    s.putfAlone w = .next { s with codec := { s.codec with
      bytes := overwrite s.codec.bytes s.codec.off.toNat (putfBytes s.params.byteOrder s.codec.val w) } } := by
  rcases putfAlone_cases s w with ⟨_, e⟩ | ⟨hout, _⟩
  · exact e
  · omega

theorem getfAlone_inside (s : State) (w : Nat) (h : s.codec.off.toNat + w ≤ s.codec.bytes.length) :
    s.getfAlone w = .next { s with codec := { s.codec with
      dst := getfValue s.params.byteOrder s.codec.dst (slice s.codec.bytes s.codec.off.toNat w) w } } := by
  rcases getfAlone_cases s w with ⟨_, e⟩ | ⟨hout, _⟩
  · exact e
  · omega

theorem putfBytes_of_width (o : ByteOrder) (v : Word) (w : Nat) (h : codecWidth w = true) :
    putfBytes o v w = fieldBytes o w v := by
  rw [fieldBytes_eq_encBytes]
  exact if_pos h

@[simp] theorem fieldBytes_length (o : ByteOrder) (w : Nat) (v : Word) : (fieldBytes o w v).length = w := by
  simp [fieldBytes]

/-- A read field has the bytes it was read from (R103 (b), on the field bytes of 20_memory.md R52). -/
theorem fieldBytes_decBytes (o : ByteOrder) (bs : List Byte) (h : bs.length ≤ 4) :
    fieldBytes o bs.length (decBytes o bs) = bs := by
  rw [fieldBytes_eq_encBytes, encBytes_decBytes o bs h]

/-- 40_field_codec.md R100 at each width the codec acts on. -/
theorem putfAlone_writes (s : State) (w : Nat) (hw : codecWidth w = true)
    (h : s.codec.off.toNat + w ≤ s.codec.bytes.length) :
    ∃ l, s.putfAlone w = .next { s with codec := { s.codec with bytes := l } } ∧
      slice l s.codec.off.toNat w = fieldBytes s.params.byteOrder w s.codec.val ∧
      ∀ x, (x < s.codec.off.toNat ∨ s.codec.off.toNat + w ≤ x) → l[x]? = s.codec.bytes[x]? := by
  have hlen := fieldBytes_length s.params.byteOrder w s.codec.val
  refine ⟨_, putfAlone_inside s w h, ?_, fun x hx => ?_⟩ <;> rw [putfBytes_of_width _ _ w hw]
  · have hread := slice_overwrite s.codec.bytes s.codec.off.toNat (fieldBytes s.params.byteOrder w s.codec.val)
      (by rwa [hlen])
    rwa [hlen] at hread
  · rw [overwrite_get _ _ _ (by rwa [hlen]), hlen, if_neg (by omega)]

/-- 40_field_codec.md R101 at each width the codec acts on. -/
theorem getfAlone_reads (s : State) (w : Nat) (hw : codecWidth w = true)
    (h : s.codec.off.toNat + w ≤ s.codec.bytes.length) :
    ∃ v : Word, s.getfAlone w = .next { s with codec := { s.codec with dst := v } } ∧ v.toNat < 2 ^ (8 * w) ∧
      slice s.codec.bytes s.codec.off.toNat w = fieldBytes s.params.byteOrder w v := by
  have hlen := slice_length s.codec.bytes s.codec.off.toNat w h
  have h4 : (slice s.codec.bytes s.codec.off.toNat w).length ≤ 4 := by
    rw [hlen]; exact (codecWidth_le w hw).2
  refine ⟨_, getfAlone_inside s w h, ?_, ?_⟩ <;> rw [getfValue_of_width _ _ _ w hw]
  · simpa only [hlen] using decBytes_lt s.params.byteOrder _ h4
  · simpa only [hlen] using (fieldBytes_decBytes s.params.byteOrder _ h4).symm

/-- Settles O47: each PUTF is `putfAlone` at its width. -/
theorem putfWritesTheLowBytes : Obligations.PutfWritesTheLowBytes := by
  rintro i w (hi | hi | hi) s h <;> cases hi
  · exact putfAlone_writes s 1 rfl h
  · exact putfAlone_writes s 2 rfl h
  · exact putfAlone_writes s 4 rfl h

/-- Settles O48: each GETF is `getfAlone` at its width. -/
theorem getfReadsTheFieldZeroExtended : Obligations.GetfReadsTheFieldZeroExtended := by
  rintro i w (hi | hi | hi) s h <;> cases hi
  · exact getfAlone_reads s 1 rfl h
  · exact getfAlone_reads s 2 rfl h
  · exact getfAlone_reads s 4 rfl h

/-! ### TXRD -/

theorem execTxrd_inside (i : BitVec 16) (s : State) (h : i.toNat < s.params.txcap.toNat) :
    execTxrd i s = .next (s.respond (((storeGet s.txo i.toNat).getD (s.held .txo i.toNat)).setWidth 32)) := by
  rcases execTxrd_cases i s with ⟨_, e⟩ | ⟨hout, _⟩
  · exact e
  · omega

theorem execTxrd_outside (i : BitVec 16) (s : State) (h : s.params.txcap.toNat ≤ i.toNat) :
    execTxrd i s = .next s.refuseCommand := by
  rcases execTxrd_cases i s with ⟨hin, _⟩ | ⟨_, e⟩
  · omega
  · exact e

/-- Settles O52: the byte answered is the written one, or the free value an unwritten byte holds. -/
theorem txrdReadsOneOutputByte : Obligations.TxrdReadsOneOutputByte := by
  intro s i
  refine ⟨fun hin => ⟨(storeGet s.txo i.toNat).getD (s.held .txo i.toNat), ?_, rfl, fun c hc => ?_⟩, fun hout => ?_⟩
  · rw [BitVec.ofNat_toNat]
    exact execTxrd_inside i s hin
  · rw [hc, Option.getD_some]
  · exact execTxrd_outside i s hout

end Sys2Proof.Machine
end

section
/-! PROOFS. The encoding statements, 1 (30_encoding.md R77 to R81): the decoder and the encoder are inverse to each other, up to
the ignored bits. -/

namespace Sys2Proof

/-! ### The fields of a command word -/

/-- A command word is made of its fields. -/
theorem hostWord_fields (w : BitVec 48) : hostWord (wordOp w) (wordArg w) (wordData w) = w := by
  simp only [hostWord, wordOp, wordArg, wordData, BitVec.extractLsb'_append_extractLsb'_eq_extractLsb',
    BitVec.extractLsb'_eq_self]

/-- Command words are equal when their fields are. -/
theorem hostWord_inj {op op' arg arg' : BitVec 8} {d d' : Word} :
    hostWord op arg d = hostWord op' arg' d' ↔ op = op' ∧ arg = arg' ∧ d = d' := by
  constructor
  · intro h
    have hop := congrArg wordOp h
    have harg := congrArg wordArg h
    have hdata := congrArg wordData h
    simp only [wordOp_hostWord, wordArg_hostWord, wordData_hostWord] at hop harg hdata
    exact ⟨hop, harg, hdata⟩
  · rintro ⟨rfl, rfl, rfl⟩
    rfl

/-- What a mask that keeps the op leaves of a word, field by field. -/
theorem and_hostWord (w : BitVec 48) (arg : BitVec 8) (d : Word) :
    w &&& hostWord (.allOnes 8) arg d = hostWord (wordOp w) (wordArg w &&& arg) (wordData w &&& d) := by
  conv_lhs => rw [← hostWord_fields w]
  rw [hostWord, hostWord, BitVec.and_append (v := 40), BitVec.and_append, BitVec.and_allOnes, hostWord]

/-- The data field of a command with a 16-bit index, its ignored bits cleared. -/
theorem wordData_and_low_iff (w : BitVec 48) (j : BitVec 16) :
    wordData w &&& 0xFFFF#32 = 0#16 ++ j ↔ wordIndex w = j := by
  have hdata : w.extractLsb' 16 16 ++ wordIndex w = wordData w :=
    BitVec.extractLsb'_append_extractLsb'_eq_extractLsb' rfl
  have hmask : 0#16 ++ BitVec.allOnes 16 = 0xFFFF#32 := rfl
  rw [← hdata, ← hmask, BitVec.and_append, BitVec.and_zero, BitVec.and_allOnes]
  exact BitVec.append_right_inj _

/-! ### Command words -/

/-- The op of an instruction's row and its operands stand in the fields of `w` (30_encoding.md R77, R78). -/
def HasFields (w : BitVec 48) : Instr → Prop
  | .feed b => wordOp w = 0x01#8 ∧ wordArg w = b
  | .cfgwr r v => wordOp w = 0x02#8 ∧ wordArg w = r ∧ wordData w = v
  | .cfgrd r => wordOp w = 0x03#8 ∧ wordArg w = r
  | .clear => wordOp w = 0x04#8
  | .encode => wordOp w = 0x05#8
  | .txwr i b => wordOp w = 0x06#8 ∧ wordArg w = b ∧ wordIndex w = i
  | .txrd i => wordOp w = 0x07#8 ∧ wordIndex w = i
  | .putf1 | .putf2 | .putf4 | .getf1 | .getf2 | .getf4 => False

/-- The decoder answers an instruction exactly on the words that have its fields. -/
theorem decodeHost_eq_instr_iff (w : BitVec 48) (i : Instr) : decodeHost w = .instr i ↔ HasFields w i := by
  constructor
  · intro h
    unfold decodeHost at h
    repeat' split at h
    all_goals cases h
    all_goals simp [HasFields, *]
  · intro h
    cases i with
    | feed b => obtain ⟨hop, rfl⟩ := h; simp [decodeHost, hop]
    | cfgwr r v => obtain ⟨hop, rfl, rfl⟩ := h; simp [decodeHost, hop]
    | cfgrd r => obtain ⟨hop, rfl⟩ := h; simp [decodeHost, hop]
    | clear => have hop : wordOp w = 0x04#8 := h; simp [decodeHost, hop]
    | encode => have hop : wordOp w = 0x05#8 := h; simp [decodeHost, hop]
    | txwr j b => obtain ⟨hop, rfl, rfl⟩ := h; simp [decodeHost, hop]
    | txrd j => obtain ⟨hop, rfl⟩ := h; simp [decodeHost, hop]
    | putf1 | putf2 | putf4 | getf1 | getf2 | getf4 => cases h

/-- Whether the encoder could have written a word, its masked bits cleared, field by field. -/
theorem host_and_eq_iff (w : BitVec 48) (op arg marg : BitVec 8) (d mdata : Word) :
    InWord.host (w &&& hostWord (.allOnes 8) marg mdata) = .host (hostWord op arg d) ↔
      wordOp w = op ∧ wordArg w &&& marg = arg ∧ wordData w &&& mdata = d := by
  rw [and_hostWord, InWord.host.injEq, hostWord_inj]

/-- A word has an instruction's fields when it is, with its ignored bits cleared, the word the encoder writes. -/
theorem host_and_usedBits_iff (w : BitVec 48) (i : Instr) :
    InWord.host (w &&& usedBits i) = encode i ↔ HasFields w i := by
  cases i with
  | feed b =>
    exact (host_and_eq_iff w _ _ (.allOnes 8) _ 0#32).trans (by
      simp only [BitVec.and_allOnes, BitVec.and_zero, and_true, HasFields])
  | cfgwr r v =>
    exact (host_and_eq_iff w _ _ (.allOnes 8) _ (.allOnes 32)).trans (by simp only [BitVec.and_allOnes, HasFields])
  | cfgrd r =>
    exact (host_and_eq_iff w _ _ (.allOnes 8) _ 0#32).trans (by
      simp only [BitVec.and_allOnes, BitVec.and_zero, and_true, HasFields])
  | clear => exact (host_and_eq_iff w _ _ 0#8 _ 0#32).trans (by simp only [BitVec.and_zero, and_true, HasFields])
  | encode => exact (host_and_eq_iff w _ _ 0#8 _ 0#32).trans (by simp only [BitVec.and_zero, and_true, HasFields])
  | txwr j b =>
    exact (host_and_eq_iff w _ _ (.allOnes 8) _ 0xFFFF#32).trans (by
      simp only [BitVec.and_allOnes, wordData_and_low_iff, HasFields])
  | txrd j =>
    exact (host_and_eq_iff w _ _ 0#8 _ 0xFFFF#32).trans (by
      simp only [BitVec.and_zero, true_and, wordData_and_low_iff, HasFields])
  | putf1 | putf2 | putf4 | getf1 | getf2 | getf4 => exact ⟨nofun, False.elim⟩

/-- The decoder in terms of the encoder: the bits the instruction reads decide (30_encoding.md R79). -/
theorem decodeHost_eq_instr_iff_encode (w : BitVec 48) (i : Instr) :
    decodeHost w = .instr i ↔ .host (w &&& usedBits i) = encode i :=
  (decodeHost_eq_instr_iff w i).trans (host_and_usedBits_iff w i).symm

/-! ### Selectors -/

theorem selWidth_selector (dir : Bool) (width : BitVec 8) : selWidth (selector dir width) = width :=
  BitVec.extractLsb'_append_eq_right

theorem selDir_selector (dir : Bool) (width : BitVec 8) : selDir (selector dir width) = dir := by
  rw [selDir, selector, BitVec.getLsbD_append, if_neg (by decide)]
  simp

/-- A selector is made of its fields. -/
theorem selector_fields (u : BitVec 9) : selector (selDir u) (selWidth u) = u := by
  apply BitVec.eq_of_getLsbD_eq
  intro i hi
  simp only [selector, selDir, selWidth, BitVec.getLsbD_append, BitVec.getLsbD_extractLsb', BitVec.getLsbD_ofBool]
  split
  next h8 => simp [h8]
  next h8 =>
    have hi8 : i = 8 := by omega
    simp [hi8]

/-- The encoder writes back the selector a micro-operation was decoded from. -/
theorem encode_of_decodeCodec {u : BitVec 9} {i : Instr} (h : decodeCodec u = .instr i) : encode i = .codec u := by
  rw [← selector_fields u]
  unfold decodeCodec at h
  repeat' split at h
  all_goals cases h
  all_goals simp [encode, *]

/-- Any other width is reserved (30_encoding.md R81). -/
theorem decodeCodec_reserved (u : BitVec 9) (h1 : selWidth u ≠ 1#8) (h2 : selWidth u ≠ 2#8) (h4 : selWidth u ≠ 4#8) :
    decodeCodec u = .reservedWidth (selDir u) (selWidth u) := by
  rw [decodeCodec, if_neg h1, if_neg h2, if_neg h4]

/-! ### The round trips -/

/-- Settles O1: an encoded command has its instruction's fields, and an encoded selector is made of direction and width. -/
theorem decodeOfEncode : Obligations.DecodeOfEncode := by
  intro i _
  cases i with
  | feed b => exact (decodeHost_eq_instr_iff _ _).mpr ⟨wordOp_hostWord .., wordArg_hostWord ..⟩
  | cfgwr r v =>
    exact (decodeHost_eq_instr_iff _ _).mpr ⟨wordOp_hostWord .., wordArg_hostWord .., wordData_hostWord ..⟩
  | cfgrd r => exact (decodeHost_eq_instr_iff _ _).mpr ⟨wordOp_hostWord .., wordArg_hostWord ..⟩
  | clear => exact (decodeHost_eq_instr_iff _ _).mpr (wordOp_hostWord ..)
  | encode => exact (decodeHost_eq_instr_iff _ _).mpr (wordOp_hostWord ..)
  | txwr j b =>
    exact (decodeHost_eq_instr_iff _ _).mpr ⟨wordOp_hostWord .., wordArg_hostWord .., wordIndex_hostWord ..⟩
  | txrd j => exact (decodeHost_eq_instr_iff _ _).mpr ⟨wordOp_hostWord .., wordIndex_hostWord ..⟩
  | putf1 | putf2 | putf4 | getf1 | getf2 | getf4 =>
    simp [encode, decode, decodeCodec, selWidth_selector, selDir_selector]

/-- Settles O2: what a command word decodes to is decided by the word under the mask, and a selector has no ignored bit. -/
theorem ignoredBitsDoNotAffectTheCommand : Obligations.IgnoredBitsDoNotAffectTheCommand := by
  refine ⟨fun w w' i hd hagree => ?_, fun w i hd => ?_, fun u i hd => encode_of_decodeCodec hd⟩
  · have hw := (decodeHost_eq_instr_iff_encode w i).mp hd
    rw [← hagree] at hw
    exact (decodeHost_eq_instr_iff_encode w' i).mpr hw
  · exact ((decodeHost_eq_instr_iff_encode w i).mp hd).symm

/-- Settles O4: each of the words is the one the encoder writes for its instruction. -/
theorem specWordsDecode : Obligations.SpecWordsDecode :=
  ⟨decodeOfEncode (.feed 0xAA#8) rfl, decodeOfEncode (.cfgwr 0x02#8 0x01000102#32) rfl,
    decodeOfEncode (.cfgrd 0x20#8) rfl, decodeOfEncode .clear rfl, decodeOfEncode .encode rfl,
    decodeOfEncode (.txwr 0#16 0x01#8) rfl, decodeOfEncode (.txrd 2#16) rfl, decodeOfEncode .putf1 rfl,
    decodeOfEncode .putf2 rfl, decodeOfEncode .putf4 rfl, decodeOfEncode .getf1 rfl, decodeOfEncode .getf2 rfl,
    decodeOfEncode .getf4 rfl⟩

end Sys2Proof
end

section
/-! PROOFS. The encoding statements, 2 (30_encoding.md R72, R81, R83, R85): selectors of reserved width, who emits events, and
the two outcomes that rest on the frame length, ENCODE's errors and FEED's integrity drop. -/

namespace Sys2Proof.Machine

/-! ### Reserved widths -/

/-- A selector of reserved width only brings its operands to the port. -/
theorem step_reserved (s : State) (u : BitVec 9) (ops : CodecPort) (rest : List Input)
    (hi : s.inputs = .micro u ops :: rest) (h1 : selWidth u ≠ 1#8) (h2 : selWidth u ≠ 2#8) (h4 : selWidth u ≠ 4#8) :
    step s = .next { s with inputs := rest, codec := ops } := by
  simp only [step, hi, runWord, decode, decodeCodec_reserved u h1 h2 h4]

/-- Settles O7: the width is the selector modulo 256, and the codec on a store acts on widths 1, 2 and 4 only. -/
theorem reservedCodecWidthDoesNothing : Obligations.ReservedCodecWidthDoesNothing := by
  constructor
  · intro s u ops rest hi h1 h2 h4
    have hne (k : BitVec 8) (h : u.toNat % 256 ≠ k.toNat) : selWidth u ≠ k := by
      rintro rfl
      exact h (lowField_toNat u).symm
    exact step_reserved s u ops rest hi (hne 1#8 h1) (hne 2#8 h2) (hne 4#8 h4)
  · intro s k a w v old h1 h2 h4
    have hw : codecWidth w = false := by
      rw [Bool.eq_false_iff, ne_eq, codecWidth_iff]
      omega
    exact ⟨putf_of_reserved s k a v w hw, getfValue_of_reserved _ _ _ w hw⟩

/-! ### Events -/

theorem execCfgwr_event (s t : State) (r : BitVec 8) (v : Word) (h : execCfgwr r v s = .next t) :
    t.resp.event = none := by
  rcases execCfgwr_cases r v s with ⟨_, e⟩ | ⟨g, _, ⟨_, e⟩ | ⟨_, e⟩ | ⟨_, _, e⟩ | ⟨_, _, e⟩ | ⟨_, e⟩ | ⟨_, e⟩⟩ <;>
    rw [e] at h <;> cases h <;> rfl

theorem execCfgrd_event (s t : State) (r : BitVec 8) (h : execCfgrd r s = .next t) : t.resp.event = none := by
  rcases execCfgrd_cases r s with ⟨_, e⟩ | ⟨_, _, e⟩ <;> rw [e] at h <;> cases h <;> rfl

theorem execEncode_event (s t : State) (h : execEncode s = .next t) : t.resp.event = none := by
  rcases execEncode_cases s with ⟨_, e⟩ | ⟨_, _, e⟩ | ⟨_, _, _, _, e⟩ | ⟨_, e⟩ <;> rw [e] at h <;> cases h <;> rfl

theorem execTxwr_event (s t : State) (i : BitVec 16) (b : Byte) (h : execTxwr i b s = .next t) :
    t.resp.event = none := by
  rcases execTxwr_cases i b s with ⟨_, e⟩ | ⟨_, e⟩ <;> rw [e] at h <;> cases h <;> rfl

theorem execTxrd_event (s t : State) (i : BitVec 16) (h : execTxrd i s = .next t) : t.resp.event = none := by
  rcases execTxrd_cases i s with ⟨_, e⟩ | ⟨_, e⟩ <;> rw [e] at h <;> cases h <;> rfl

theorem putfAlone_resp (s t : State) (w : Nat) (h : s.putfAlone w = .next t) : t.resp = s.resp := by
  rcases putfAlone_cases s w with ⟨_, e⟩ | ⟨_, e⟩ <;> rw [e] at h <;> cases h
  rfl

theorem getfAlone_resp (s t : State) (w : Nat) (h : s.getfAlone w = .next t) : t.resp = s.resp := by
  rcases getfAlone_cases s w with ⟨_, e⟩ | ⟨_, e⟩ <;> rw [e] at h <;> cases h
  rfl

/-- Settles O46: every other command answers without an event, and a micro-operation leaves the response. -/
theorem onlyFeedEmitsEvents : Obligations.OnlyFeedEmitsEvents := by
  intro i s t h hev
  cases i with
  | feed b => exact .inl ⟨b, rfl⟩
  | cfgwr r v => exact absurd (execCfgwr_event s t r v h) hev
  | cfgrd r => exact absurd (execCfgrd_event s t r h) hev
  | clear => cases h; exact absurd rfl hev
  | encode => exact absurd (execEncode_event s t h) hev
  | txwr j b => exact absurd (execTxwr_event s t j b h) hev
  | txrd j => exact absurd (execTxrd_event s t j h) hev
  | putf1 => exact .inr (putfAlone_resp s t 1 h)
  | putf2 => exact .inr (putfAlone_resp s t 2 h)
  | putf4 => exact .inr (putfAlone_resp s t 4 h)
  | getf1 => exact .inr (getfAlone_resp s t 1 h)
  | getf2 => exact .inr (getfAlone_resp s t 2 h)
  | getf4 => exact .inr (getfAlone_resp s t 4 h)

/-! ### ENCODE's errors -/

/-- An enabled ENCODE that cannot be carried out fails (42_encoder.md R132, R133). -/
theorem execEncode_of_not_encodes (s : State) (hen : s.en = true) (h : ¬ s.encodes) :
    execEncode s = .next s.encodeFail := by
  rcases execEncode_cases s with ⟨hdis, _⟩ | ⟨_, _, e⟩ | ⟨_, _, _, _, e⟩ | ⟨henc, _⟩
  · rw [hen] at hdis; cases hdis
  · exact e
  · exact e
  · exact absurd henc h

/-- Settles O54: either error excludes that the frame is built. -/
theorem encodeErrorsWriteNothing : Obligations.EncodeErrorsWriteNothing := by
  intro s hen herr
  refine execEncode_of_not_encodes s hen ?_
  rintro ⟨_, hfits, hbody⟩
  rcases herr with hlong | ⟨hpos, habsent⟩
  · exact Nat.not_lt.mpr hfits hlong
  · rcases hbody with hempty | hpresent
    · omega
    · rw [habsent] at hpresent; cases hpresent

/-! ### FEED's integrity drop -/

/-- Beyond the header the appended byte goes to the completion stage. -/
theorem execFeed_beyond_header (s : State) (b : Byte) (hen : s.en = true) (hf : ¬ s.fires b)
    (hn : s.n.toNat < s.params.cap.toNat) (hl : s.cfgLegal = true) (hhdr : s.hdr < s.n.toNat + 1) :
    execFeed b s = .next ((s.fed b).complete (s.accumulated b)) := by
  have hlen : (s.fed b).hdr < (s.accumulated b).length := by rw [accumulated_length]; exact hhdr
  rw [execFeed_stages s b hen hf hn hl, stages_beyond_header _ _ hlen]

theorem wedge_of_intEn (s : State) (h : s.intEn = true) : s.wedge = false := by
  simp [State.wedge, h]

/-- A complete frame that fails the integrity comparison is dropped (43_reassembly.md R164). -/
theorem complete_of_corrupt (s : State) (f : List Byte) (hint : s.intEn = true)
    (hn : s.n.toNat = s.total s.bodyLen.toNat) (hbad : s.frameCorrupt f = true) :
    s.complete f = { s.emit .intDrop with n := 0 } := by
  rw [State.complete, if_pos ⟨hn, wedge_of_intEn s hint⟩, if_pos ⟨hint, hbad⟩]

/-- Settles O26: the byte reaches the completion stage, which finds the frame complete and corrupt. -/
theorem feedIntegrityMismatchDrops : Obligations.FeedIntegrityMismatchDrops := by
  intro s b hinv hen hf hhdr htotal hint hbad
  have hprog := hinv.progress hen
  have hn : s.n.toNat < s.params.cap.toNat := n_lt_cap_of_not_wedge s hprog (wedge_of_intEn s hint)
  have hdrop : (s.fed b).complete (s.accumulated b) = { (s.fed b).emit .intDrop with n := 0 } :=
    complete_of_corrupt (s.fed b) _ hint ((fed_n_toNat s b hn).trans htotal) (decide_eq_true hbad)
  refine ⟨(s.fed b).complete (s.accumulated b), execFeed_beyond_header s b hen hf hn hprog.legal hhdr, ?_⟩
  rw [hdrop]
  exact ⟨rfl, append_set s b⟩

end Sys2Proof.Machine
end

section
/-! PROOFS. The codec's round trips (40_field_codec.md R103 (a), (b)): what PUTF wrote GETF reads, and writing what GETF read
changes no byte. -/

namespace Sys2Proof.Machine

/-- Where PUTF completes, its field lies inside the port's store and holds the value's bytes afterwards. -/
theorem putfAlone_next {s t : State} {w : Nat} (hw : codecWidth w = true) (h : s.putfAlone w = .next t) :
    s.codec.off.toNat + w ≤ s.codec.bytes.length ∧
    t = { s with codec := { s.codec with
      bytes := overwrite s.codec.bytes s.codec.off.toNat (encBytes s.params.byteOrder w s.codec.val) } } := by
  rcases putfAlone_cases s w with ⟨hin, e⟩ | ⟨_, e⟩ <;> rw [e] at h <;> cases h
  rw [putfBytes_of_width _ _ w hw, fieldBytes_eq_encBytes]
  exact ⟨hin, rfl⟩

/-- Where GETF completes, its field lies inside the port's store and its value is in the destination afterwards. -/
theorem getfAlone_next {s t : State} {w : Nat} (hw : codecWidth w = true) (h : s.getfAlone w = .next t) :
    s.codec.off.toNat + w ≤ s.codec.bytes.length ∧
    t = { s with codec := { s.codec with
      dst := decBytes s.params.byteOrder (slice s.codec.bytes s.codec.off.toNat w) } } := by
  rcases getfAlone_cases s w with ⟨hin, e⟩ | ⟨_, e⟩ <;> rw [e] at h <;> cases h
  rw [getfValue_of_width _ _ _ w hw]
  exact ⟨hin, rfl⟩

/-- R103 (a), on numbers: no value modulo `2^(8w)` is too large for the word it is read into. -/
theorem decBytes_encBytes_toNat (o : ByteOrder) (w : Nat) (v : Word) :
    (decBytes o (encBytes o w v)).toNat = v.toNat % 2 ^ (8 * w) := by
  rw [decBytes_encBytes, BitVec.toNat_ofNat]
  exact Nat.mod_eq_of_lt (Nat.lt_of_le_of_lt (Nat.mod_le ..) v.isLt)

/-- R103 (b), on the field at `a` of a store: packing what was unpacked there gives the store back. -/
theorem overwrite_encBytes_decBytes_slice (o : ByteOrder) (l : List Byte) (a w : Nat) (h : a + w ≤ l.length)
    (hw : w ≤ 4) : overwrite l a (encBytes o w (decBytes o (slice l a w))) = l := by
  have hlen := slice_length l a w h
  have hbytes := encBytes_decBytes o (slice l a w) (hlen.trans_le hw)
  rw [hlen] at hbytes
  rw [hbytes, overwrite_slice l a w h]

/-- R103 (a) at each width the codec acts on. -/
theorem putfAlone_then_getfAlone (s t : State) (w : Nat) (hw : codecWidth w = true) (h : s.putfAlone w = .next t) :
    ∃ u, t.getfAlone w = .next u ∧ u.codec.dst.toNat = s.codec.val.toNat % 2 ^ (8 * w) := by
  obtain ⟨hin, rfl⟩ := putfAlone_next hw h
  have hlen := encBytes_length s.params.byteOrder w s.codec.val
  have hfit : s.codec.off.toNat + (encBytes s.params.byteOrder w s.codec.val).length ≤ s.codec.bytes.length := by
    rwa [hlen]
  have hread := slice_overwrite s.codec.bytes s.codec.off.toNat _ hfit
  rw [hlen] at hread
  refine ⟨_, getfAlone_inside _ w (hin.trans_eq (overwrite_length _ _ _ hfit).symm), ?_⟩
  rw [getfValue_of_width _ _ _ w hw, hread, decBytes_encBytes_toNat]

/-- PUTF of the value its own field already holds changes nothing. -/
theorem putfAlone_of_held (s : State) (w : Nat) (hw : codecWidth w = true)
    (hin : s.codec.off.toNat + w ≤ s.codec.bytes.length)
    (hheld : s.codec.val = decBytes s.params.byteOrder (slice s.codec.bytes s.codec.off.toNat w)) :
    s.putfAlone w = .next s := by
  have hbytes : overwrite s.codec.bytes s.codec.off.toNat (putfBytes s.params.byteOrder s.codec.val w) =
      s.codec.bytes := by
    rw [putfBytes_of_width _ _ w hw, fieldBytes_eq_encBytes, hheld,
      overwrite_encBytes_decBytes_slice _ _ _ w hin (codecWidth_le w hw).2]
  rw [putfAlone_inside s w hin, hbytes]

/-- R103 (b) at each width the codec acts on. -/
theorem getfAlone_then_putfAlone (s t : State) (w : Nat) (hw : codecWidth w = true) (h : s.getfAlone w = .next t) :
    State.putfAlone { t with codec := { t.codec with val := t.codec.dst } } w =
      .next { t with codec := { t.codec with val := t.codec.dst } } := by
  obtain ⟨hin, rfl⟩ := getfAlone_next hw h
  exact putfAlone_of_held _ w hw hin rfl

/-- Settles O49: each pair is `putfAlone` and `getfAlone` at one width. -/
theorem codecRoundTrips : Obligations.CodecRoundTrips := by
  rintro i j w (hi | hi | hi) <;> cases hi
  · exact ⟨fun s t => putfAlone_then_getfAlone s t 1 rfl, fun s t => getfAlone_then_putfAlone s t 1 rfl⟩
  · exact ⟨fun s t => putfAlone_then_getfAlone s t 2 rfl, fun s t => getfAlone_then_putfAlone s t 2 rfl⟩
  · exact ⟨fun s t => putfAlone_then_getfAlone s t 4 rfl, fun s t => getfAlone_then_putfAlone s t 4 rfl⟩

end Sys2Proof.Machine
end

section
/-! PROOFS. The integrity unit on both sides (41_integrity_unit.md R125): what ENCODE writes, FEED accepts, so that a frame
fed back is dispatched once (42_encoder.md R145). -/

namespace Sys2Proof.Machine

/-! ### A frame the engine accepts, byte by byte -/

/-- The engine takes the bytes `f` as one frame with the body length `len`: it can complete a frame, no reset run can
interrupt it, and every check of 43_reassembly.md R158, R161 and R164 passes on `f`. -/
structure State.Accepts (s : State) (f : List Byte) (len : Word) : Prop where
  en : s.en = true
  legal : s.cfgLegal = true
  detectOff : s.rstEn = false
  completes : s.wedge = false
  fits : f.length ≤ s.params.cap.toNat
  length : f.length = s.total len.toNat
  marker : slice f 0 s.wFs = s.marker
  lenField : decBytes s.params.byteOrder (slice f s.offLen s.wLen) = len
  lenPasses : s.lenFails len = false
  sound : s.intEn = true → State.frameCorrupt { s with bodyLen := len } f = false

/-- The bytes `pre` of a frame were accumulated, and from the header on its length was taken. -/
structure State.HoldsPrefix (s : State) (pre : List Byte) (len : Word) : Prop where
  count : s.n.toNat = pre.length
  bytes : s.bufBytes 0 pre.length = pre
  length : s.hdr ≤ pre.length → s.bodyLen = len

/-- The state in which FEED's completion check finds the byte `b` of an accepted frame. -/
def State.took (s : State) (b : Byte) (len : Word) : State :=
  { s.fed b with bodyLen := if s.hdr ≤ s.n.toNat + 1 then len else s.bodyLen }

/-- Acceptance rests on the configuration alone. -/
theorem accepts_congr {s t : State} {f : List Byte} {len : Word} (h : s.Accepts f len) (hs : t.setup = s.setup)
    (hen : t.en = s.en) : t.Accepts f len := by
  obtain ⟨hp, _, h0, h1, hft, hr, hle, hlm, _, hfs⟩ := (setup_eq_iff s t).mp hs
  cases s; cases t
  dsimp only at hp h0 h1 hft hr hle hlm hfs hen
  subst hp h0 h1 hft hr hle hlm hfs hen
  exact ⟨h.en, h.legal, h.detectOff, h.completes, h.fits, h.length, h.marker, h.lenField, h.lenPasses, h.sound⟩

theorem hdr_le_total (s : State) (l : Nat) : s.hdr ≤ s.total l := by
  simp only [State.total]; omega

theorem slice_append_left (l r : List Byte) (a n : Nat) (h : a + n ≤ l.length) : slice (l ++ r) a n = slice l a n := by
  rw [slice, slice, List.drop_append_of_le_length (by omega), List.take_append_of_le_length (by simp; omega)]

/-- With detection off no byte fires a reset. -/
theorem not_fires_of_detectOff {s : State} (h : s.rstEn = false) (b : Byte) : ¬ s.fires b :=
  fun hf => Bool.noConfusion (h.symm.trans hf.1)

theorem complete_of_n_ne_total {s : State} (f : List Byte) (h : s.n.toNat ≠ s.total s.bodyLen.toNat) :
    s.complete f = s := if_neg fun hc => h hc.1

theorem complete_below_header {s : State} (f : List Byte) (h : s.n.toNat < s.hdr) : s.complete f = s :=
  complete_of_n_ne_total f (Nat.ne_of_lt (Nat.lt_of_lt_of_le h (hdr_le_total s _)))

theorem took_below_header (s : State) (b : Byte) (len : Word) (h : s.n.toNat + 1 < s.hdr) :
    s.took b len = s.fed b := by
  rw [State.took, if_neg (Nat.not_le.mpr h)]; rfl

theorem took_from_header (s : State) (b : Byte) (len : Word) (h : s.hdr ≤ s.n.toNat + 1) :
    s.took b len = { s.fed b with bodyLen := len } := by
  rw [State.took, if_pos h]

section
variable {s : State} {pre rest : List Byte} {b : Byte} {len : Word}

theorem n_lt_cap_of_holdsPrefix (ha : s.Accepts (pre ++ b :: rest) len) (hh : s.HoldsPrefix pre len) :
    s.n.toNat < s.params.cap.toNat := by
  have hfits := ha.fits
  have hcount := hh.count
  simp only [List.length_append, List.length_cons] at hfits
  omega

theorem accumulated_of_holdsPrefix (hh : s.HoldsPrefix pre len) : s.accumulated b = pre ++ [b] := by
  rw [State.accumulated, hh.count, hh.bytes]

/-- A range that was accumulated is the frame's. -/
theorem slice_accumulated (a n : Nat) (h : a + n ≤ pre.length + 1) :
    slice (pre ++ [b]) a n = slice (pre ++ b :: rest) a n := by
  rw [← slice_append_left (pre ++ [b]) rest a n (by simpa using h), List.append_assoc, List.singleton_append]

/-- Of FEED's stages an accepted frame meets only the completion check: its marker matches and its length passes. -/
theorem stages_of_accepted (ha : s.Accepts (pre ++ b :: rest) len) (hh : s.HoldsPrefix pre len) :
    (s.fed b).stages (pre ++ [b]) = (s.took b len).complete (pre ++ [b]) := by
  have hn := fed_n_toNat s b (n_lt_cap_of_holdsPrefix ha hh)
  have hcount := hh.count
  obtain ⟨hcmd, _⟩ := legal_pos s ha.legal
  have hfs : s.wFs < s.hdr := by simp only [State.hdr]; omega
  have hbelow (hlt : s.n.toNat + 1 < s.hdr) : (s.took b len).complete (pre ++ [b]) = s.fed b := by
    rw [took_below_header s b len hlt, complete_below_header _ (hn.trans_lt hlt)]
  rw [State.stages, List.length_append, List.length_singleton, ← hcount, fed_wFs, fed_hdr]
  split
  next hw =>
    have hmarker : pre ++ [b] = s.marker := by
      rw [← ha.marker, ← slice_accumulated 0 s.wFs (by omega), slice, List.drop_zero, List.take_of_length_le]
      rw [List.length_append, List.length_singleton]; omega
    rw [if_pos (show pre ++ [b] = (s.fed b).marker from hmarker), hbelow (by omega)]
  next =>
    split
    next hlt => rw [hbelow hlt]
    next hge =>
      rw [took_from_header s b len (by omega)]
      split
      next hhdr =>
        have hlen : decBytes (s.fed b).params.byteOrder (slice (pre ++ [b]) (s.fed b).offLen (s.fed b).wLen) = len := by
          have hin : (s.fed b).offLen + (s.fed b).wLen ≤ pre.length + 1 := by
            rw [← hcount, hhdr]; exact Nat.le_refl _
          rw [slice_accumulated (rest := rest) _ _ hin]
          exact ha.lenField
        have hpass : (s.fed b).lenFails len = false := ha.lenPasses
        rw [hlen, hpass, if_neg Bool.false_ne_true]
      next =>
        rw [← hh.length (by omega)]
        rfl

theorem execFeed_of_accepted (ha : s.Accepts (pre ++ b :: rest) len) (hh : s.HoldsPrefix pre len) :
    execFeed b s = .next ((s.took b len).complete (pre ++ [b])) := by
  rw [execFeed_stages s b ha.en (not_fires_of_detectOff ha.detectOff b) (n_lt_cap_of_holdsPrefix ha hh) ha.legal,
    accumulated_of_holdsPrefix hh, stages_of_accepted ha hh]

theorem took_n_toNat (ha : s.Accepts (pre ++ b :: rest) len) (hh : s.HoldsPrefix pre len) :
    (s.took b len).n.toNat = pre.length + 1 := by
  rw [← hh.count]; exact fed_n_toNat s b (n_lt_cap_of_holdsPrefix ha hh)

theorem took_holdsPrefix (ha : s.Accepts (pre ++ b :: rest) len) (hh : s.HoldsPrefix pre len) :
    (s.took b len).HoldsPrefix (pre ++ [b]) len where
  count := by rw [took_n_toNat ha hh, List.length_append, List.length_singleton]
  bytes := by
    rw [List.length_append, List.length_singleton, ← hh.count, ← accumulated_of_holdsPrefix hh]
    exact fed_bufBytes s b
  length hhdr := by
    rw [List.length_append, List.length_singleton, ← hh.count] at hhdr
    rw [took_from_header s b len hhdr]

/-- Before its last byte an accepted frame is not complete. -/
theorem execFeed_inside_frame (ha : s.Accepts (pre ++ b :: rest) len) (hh : s.HoldsPrefix pre len) (hr : rest ≠ []) :
    execFeed b s = .next (s.took b len) := by
  rw [execFeed_of_accepted ha hh]
  by_cases hhdr : s.hdr ≤ s.n.toNat + 1
  · have hlong : pre.length + 1 < s.total len.toNat := by
      have hpos := List.length_pos_iff.mpr hr
      rw [← ha.length, List.length_append, List.length_cons]
      omega
    rw [complete_of_n_ne_total]
    rw [took_n_toNat ha hh, took_from_header s b len hhdr]
    exact Nat.ne_of_lt hlong
  · rw [complete_below_header]
    rw [took_n_toNat ha hh, ← hh.count]
    exact Nat.lt_of_not_le hhdr

/-- The last byte of an accepted frame completes it, and the integrity comparison passes. -/
theorem execFeed_last_of_frame (ha : s.Accepts (pre ++ [b]) len) (hh : s.HoldsPrefix pre len) :
    execFeed b s = .next
      { (s.took b len).emit (State.frameEvent { s with bodyLen := len } (pre ++ [b])) with n := 0 } := by
  have hlast : pre.length + 1 = s.total len.toNat := by
    rw [← ha.length, List.length_append, List.length_singleton]
  have hhdr : s.hdr ≤ s.n.toNat + 1 := by rw [hh.count, hlast]; exact hdr_le_total s _
  have hn := took_n_toNat ha hh
  rw [execFeed_of_accepted ha hh]
  rw [took_from_header s b len hhdr] at hn ⊢
  have hsound : ¬ (s.intEn = true ∧ State.frameCorrupt { s with bodyLen := len } (pre ++ [b]) = true) := by
    rintro ⟨hint, hbad⟩
    rw [ha.sound hint] at hbad; cases hbad
  rw [State.complete, if_pos ⟨hn.trans hlast, ha.completes⟩]
  exact congrArg _ (if_neg hsound)

end

/-- The rest of an accepted frame gives no event but the last byte's. -/
theorem feedAll_rest_of_frame {len : Word} (rest : List Byte) (b : Byte) (pre : List Byte) (s : State)
    (ha : s.Accepts (pre ++ b :: rest) len) (hh : s.HoldsPrefix pre len) :
    ∃ u, feedAll (b :: rest) s = some (List.replicate rest.length none ++
        [some (State.frameEvent { s with bodyLen := len } (pre ++ b :: rest))], u) ∧ u.n = 0 := by
  induction rest generalizing b pre s with
  | nil =>
    rw [feedAll, exec, execFeed_last_of_frame ha hh]
    exact ⟨_, rfl, rfl⟩
  | cons c rest ih =>
    have happ : pre ++ b :: c :: rest = (pre ++ [b]) ++ c :: rest := by simp
    have ha' : (s.took b len).Accepts ((pre ++ [b]) ++ c :: rest) len := by
      rw [← happ]; exact accepts_congr ha rfl rfl
    obtain ⟨u, hu, hu0⟩ := ih c (pre ++ [b]) (s.took b len) ha' (took_holdsPrefix ha hh)
    refine ⟨u, ?_, hu0⟩
    rw [feedAll, exec, execFeed_inside_frame ha hh (List.cons_ne_nil _ _), happ]
    simp only [hu, Option.map_some]
    rfl

/-- From N = 0 an accepted frame gives one event, at its last byte: that of the lookup. -/
theorem feedAll_of_accepted {s : State} {f : List Byte} {len : Word} (ha : s.Accepts f len) (hn : s.n = 0) :
    ∃ u, feedAll f s = some (List.replicate (f.length - 1) none ++
        [some (State.frameEvent { s with bodyLen := len } f)], u) ∧ u.n = 0 := by
  obtain ⟨hcmd, _⟩ := legal_pos s ha.legal
  cases f with
  | nil =>
    have hlen : 0 = s.total len.toNat := ha.length
    simp only [State.total, State.hdr] at hlen
    omega
  | cons b rest =>
    refine feedAll_rest_of_frame rest b [] s ha ⟨by rw [hn]; rfl, rfl, fun hhdr => ?_⟩
    simp only [State.hdr, List.length_nil] at hhdr
    omega

/-! ### The frame ENCODE leaves in TXO -/

/-- TXO after ENCODE. -/
def State.encodedTxo (s : State) : Store := s.txoFinal (s.memRead .txb 0 s.txBodyLen.toNat)

/-- The bytes of TXO after ENCODE, below TOTAL(L). -/
def State.encodedFrame (s : State) : List Byte := storeRead s.encodedTxo (s.held .txo) 0 (s.total s.txBodyLen.toNat)

theorem encodeFrame_memRead_txo (s : State) (a n : Nat) :
    s.encodeFrame.memRead .txo a n = storeRead s.encodedTxo (s.held .txo) a n := by
  rw [State.memRead, store_txo, encodeFrame_txo, encodeFrame_eq]; rfl

theorem encodedFrame_length (s : State) : s.encodedFrame.length = s.total s.txBodyLen.toNat := storeRead_length ..

theorem slice_encodedFrame (s : State) (a n : Nat) (h : a + n ≤ s.total s.txBodyLen.toNat) :
    slice s.encodedFrame a n = storeRead s.encodedTxo (s.held .txo) a n :=
  (storeRead_slice _ _ _ _ _ h).symm

/-- The layout of 30_encoding.md R71 and R72 in terms of the widths. -/
theorem layout_eqs (s : State) (l : Nat) :
    s.offCmd = s.wFs ∧ s.offTs = s.wFs + s.wCmd ∧ s.offLen = s.wFs + s.wCmd + s.wTs ∧
      s.hdr = s.wFs + s.wCmd + s.wTs + s.wLen ∧ s.offInt l = s.hdr + l ∧ s.offCtl l = s.hdr + l + s.wInt ∧
      s.total l = s.hdr + l + s.wInt + s.wCtl ∧ s.hashLen l = s.wCmd + s.wTs + s.wLen + l :=
  ⟨rfl, rfl, rfl, rfl, rfl, rfl, rfl, rfl⟩

/-- A value that fits its field is read back (40_field_codec.md R103 (a)). -/
theorem decBytes_encBytes_of_lt (o : ByteOrder) (w : Nat) (v : Word) (h : v.toNat < 2 ^ (8 * w)) :
    decBytes o (encBytes o w v) = v := by
  rw [decBytes_encBytes, Nat.mod_eq_of_lt h, BitVec.ofNat_toNat, BitVec.setWidth_eq]

/-- The fields TXO holds after ENCODE, whatever stands in the timestamp and integrity fields (42_encoder.md R134,
R136, R137). -/
theorem encodedTxo_holds (s : State) (hl : s.cfgLegal = true) :
    storeHolds s.encodedTxo 0 s.marker ∧
    storeHolds s.encodedTxo s.offCmd (encBytes s.params.byteOrder s.wCmd s.txCmd) ∧
    storeHolds s.encodedTxo s.offLen (encBytes s.params.byteOrder s.wLen s.txBodyLen) ∧
    storeHolds s.encodedTxo s.hdr (s.memRead .txb 0 s.txBodyLen.toNat) ∧
    storeHolds s.encodedTxo (s.offCtl s.txBodyLen.toNat) (encBytes s.params.byteOrder s.wCtl s.txCtl) := by
  have hbody : (s.memRead .txb 0 s.txBodyLen.toNat).length = s.txBodyLen.toNat := memRead_length ..
  obtain ⟨_, hcmd, _⟩ := (cfgLegal_iff s).mp hl
  obtain ⟨hoCmd, hoTs, hoLen, hoHdr, hoInt, hoCtl, _⟩ := layout_eqs s s.txBodyLen.toNat
  unfold State.encodedTxo
  refine ⟨fun i hi => ?_, fun i hi => ?_, fun i hi => ?_, fun i hi => ?_, fun i hi => ?_⟩
  · rw [marker_length] at hi
    rw [txoFinal_get, if_neg (by omega), txoTrailer_get s hl _ hbody, if_neg (by omega), if_neg (by omega),
      if_neg (by omega), if_neg (by omega), txoTimestamp_get s hcmd, if_neg (by omega), if_neg (by omega),
      if_pos (by omega), Nat.zero_add]
  · rw [encBytes_length] at hi
    rw [txoFinal_get, if_neg (by omega), txoTrailer_get s hl _ hbody, if_neg (by omega), if_neg (by omega),
      if_neg (by omega), if_neg (by omega), txoTimestamp_get s hcmd, if_neg (by omega), if_pos (by omega),
      Nat.add_sub_cancel_left]
  · rw [encBytes_length] at hi
    rw [txoFinal_get, if_neg (by omega), txoTrailer_get s hl _ hbody, if_neg (by omega), if_neg (by omega),
      if_neg (by omega), if_pos (by omega), Nat.add_sub_cancel_left]
  · rw [hbody] at hi
    rw [txoFinal_get, if_neg (by omega), txoTrailer_get s hl _ hbody, if_neg (by omega), if_neg (by omega),
      if_pos (by omega), Nat.add_sub_cancel_left]
  · rw [encBytes_length] at hi
    rw [txoFinal_get, if_neg (by omega), txoTrailer_get s hl _ hbody, if_pos (by omega), Nat.add_sub_cancel_left]

/-- A field that TXO holds after ENCODE is the frame's slice there. -/
theorem slice_of_encodedTxo_holds {s : State} {a n : Nat} {bs : List Byte} (h : storeHolds s.encodedTxo a bs)
    (hn : bs.length = n) (hfit : a + n ≤ s.total s.txBodyLen.toNat) : slice s.encodedFrame a n = bs := by
  rw [slice_encodedFrame s a n hfit, ← hn, storeRead_of_holds _ _ _ _ h]

section
variable {s : State} (hl : s.cfgLegal = true)
include hl

theorem encodedFrame_marker : slice s.encodedFrame 0 s.wFs = s.marker := by
  obtain ⟨hmarker, _⟩ := encodedTxo_holds s hl
  have hlay := layout_eqs s s.txBodyLen.toNat
  exact slice_of_encodedTxo_holds hmarker (marker_length s) (by omega)

theorem encodedFrame_command (hc : s.txCmd.toNat < 2 ^ (8 * s.wCmd)) :
    decBytes s.params.byteOrder (slice s.encodedFrame s.offCmd s.wCmd) = s.txCmd := by
  obtain ⟨_, hcmd, _⟩ := encodedTxo_holds s hl
  have hlay := layout_eqs s s.txBodyLen.toNat
  rw [slice_of_encodedTxo_holds hcmd (encBytes_length ..) (by omega), decBytes_encBytes_of_lt _ _ _ hc]

theorem encodedFrame_length_field (hL : s.txBodyLen.toNat < 2 ^ (8 * s.wLen)) :
    decBytes s.params.byteOrder (slice s.encodedFrame s.offLen s.wLen) = s.txBodyLen := by
  obtain ⟨_, _, hlen, _⟩ := encodedTxo_holds s hl
  have hlay := layout_eqs s s.txBodyLen.toNat
  rw [slice_of_encodedTxo_holds hlen (encBytes_length ..) (by omega), decBytes_encBytes_of_lt _ _ _ hL]

theorem encodedFrame_body : slice s.encodedFrame s.hdr s.txBodyLen.toNat = s.memRead .txb 0 s.txBodyLen.toNat := by
  obtain ⟨_, _, _, hbody, _⟩ := encodedTxo_holds s hl
  have hlay := layout_eqs s s.txBodyLen.toNat
  exact slice_of_encodedTxo_holds hbody (memRead_length ..) (by omega)

theorem encodedFrame_control (hc : s.txCtl.toNat < 2 ^ (8 * s.wCtl)) :
    decBytes s.params.byteOrder (slice s.encodedFrame (s.offCtl s.txBodyLen.toNat) s.wCtl) = s.txCtl := by
  obtain ⟨_, _, _, _, hctl⟩ := encodedTxo_holds s hl
  have hlay := layout_eqs s s.txBodyLen.toNat
  rw [slice_of_encodedTxo_holds hctl (encBytes_length ..) (by omega), decBytes_encBytes_of_lt _ _ _ hc]

end

/-- The integrity value ENCODE stores last is that of the bytes it stands behind (41_integrity_unit.md R125). -/
theorem encodedFrame_sound (s : State) (hint : s.intEn = true) :
    State.frameCorrupt { s with bodyLen := s.txBodyLen } s.encodedFrame = false := by
  have hlay := layout_eqs s s.txBodyLen.toNat
  have hvalue : storeHolds s.encodedTxo (s.offInt s.txBodyLen.toNat)
      (s.hash (storeRead s.encodedTxo (s.held .txo) s.offCmd (s.hashLen s.txBodyLen.toNat))) := by
    rw [State.encodedTxo, txoFinal_hashed, State.txoFinal, if_pos hint]
    exact storeHolds_storeWrite_self _ _ _
  have hslice := slice_of_encodedTxo_holds hvalue (hash_length ..) (by omega)
  rw [← slice_encodedFrame s _ _ (by omega)] at hslice
  exact decide_eq_false fun hne => hne hslice.symm

/-- FEED accepts the frame ENCODE builds. -/
theorem encodedFrame_accepted (s : State) (hp : s.ProgressOk) (hen : s.en = true) (hoff : s.rstEn = false)
    (hw : s.wedge = false) (hL : s.txBodyLen.toNat < 2 ^ (8 * s.wLen)) (hpass : s.lenFails s.txBodyLen = false) :
    s.encodeFrame.Accepts s.encodedFrame s.txBodyLen := by
  have hfits : s.total s.txBodyLen.toNat ≤ s.params.cap.toNat := by
    have hcap := (capOk_iff s).mp hp.capOk
    have hmax := len_le_max s s.txBodyLen hL hpass
    simp only [State.total]
    omega
  have hs : s.Accepts s.encodedFrame s.txBodyLen :=
    { en := hen
      legal := hp.legal
      detectOff := hoff
      completes := hw
      fits := (encodedFrame_length s).trans_le hfits
      length := encodedFrame_length s
      marker := encodedFrame_marker hp.legal
      lenField := encodedFrame_length_field hp.legal hL
      lenPasses := hpass
      sound := encodedFrame_sound s }
  exact accepts_congr hs (encodeFrame_setup s) (by rw [encodeFrame_eq])

/-- The lookup of a frame whose command code the table has. -/
theorem frameEvent_of_lookup (s : State) (f : List Byte) (code : Word) (i : Nat) (hid : BitVec 16)
    (hcode : decBytes s.params.byteOrder (slice f s.offCmd s.wCmd) = code) (hlook : s.lookup code = some (i, hid)) :
    s.frameEvent f = .dispatch
      { hid := hid
        index := BitVec.ofNat 8 i
        codeVal := code
        tsOff := BitVec.ofNat 16 s.offTs
        ts := slice f s.offTs s.wTs
        bodyLen := s.bodyLen
        bodyOff := BitVec.ofNat 16 s.hdr
        body := slice f s.hdr s.bodyLen.toNat
        ctl := if 0 < s.wCtl then
            decBytes s.params.byteOrder (slice f (s.offCtl s.bodyLen.toNat) s.wCtl)
          else 0
        user := s.user } := by
  simp only [State.frameEvent, hcode, hlook]

/-- The lookup of the frame ENCODE builds finds the operands ENCODE was given. -/
theorem frameEvent_encodedFrame (s : State) (i : Nat) (hid : BitVec 16) (hl : s.cfgLegal = true)
    (hcmd : s.txCmd.toNat < 2 ^ (8 * s.wCmd)) (hctl : s.wCtl = 0 ∨ s.txCtl.toNat < 2 ^ (8 * s.wCtl))
    (hlook : s.lookup s.txCmd = some (i, hid)) :
    State.frameEvent { s.encodeFrame with bodyLen := s.txBodyLen } s.encodedFrame =
      .dispatch
        { hid := hid
          index := BitVec.ofNat 8 i
          codeVal := s.txCmd
          tsOff := BitVec.ofNat 16 s.offTs
          ts := s.encodeFrame.memRead .txo s.offTs s.wTs
          bodyLen := s.txBodyLen
          bodyOff := BitVec.ofNat 16 s.hdr
          body := s.memRead .txb 0 s.txBodyLen.toNat
          ctl := if s.wCtl = 0 then 0 else s.txCtl
          user := s.user } := by
  have hlay := layout_eqs s s.txBodyLen.toNat
  have hts : slice s.encodedFrame s.offTs s.wTs = s.encodeFrame.memRead .txo s.offTs s.wTs := by
    rw [encodeFrame_memRead_txo, slice_encodedFrame s _ _ (by omega)]
  have hctl' : (if 0 < s.wCtl then
        decBytes s.params.byteOrder (slice s.encodedFrame (s.offCtl s.txBodyLen.toNat) s.wCtl) else 0) =
      if s.wCtl = 0 then 0 else s.txCtl := by
    by_cases h0 : s.wCtl = 0
    · rw [if_neg (by omega), if_pos h0]
    · rw [if_pos (by omega), if_neg h0, encodedFrame_control hl (hctl.resolve_left h0)]
  have hevent : State.frameEvent { s.encodeFrame with bodyLen := s.txBodyLen } s.encodedFrame =
      State.frameEvent { s with bodyLen := s.txBodyLen } s.encodedFrame := by rw [encodeFrame_eq]; rfl
  have hcode : decBytes s.params.byteOrder (slice s.encodedFrame s.offCmd s.wCmd) = s.txCmd :=
    encodedFrame_command hl hcmd
  rw [hevent, frameEvent_of_lookup { s with bodyLen := s.txBodyLen } _ s.txCmd i hid hcode hlook,
    ← encodedFrame_body hl, ← hctl', ← hts]
  rfl

/-- Settles O57: FEED accepts the frame ENCODE builds, so its bytes give one event, the lookup's; that is the dispatch of the
operands. -/
theorem encodedFrameIsDispatchedOnce : Obligations.EncodedFrameIsDispatchedOnce := by
  intro s i hid hinv henc hn hoff hw hL hexact hmax hcmd hctl hlook
  have hp := hinv.progress henc.1
  have hpass := (lenFails_eq_false_iff s s.txBodyLen).mpr ⟨hexact, hmax⟩
  have haccept := encodedFrame_accepted s hp henc.1 hoff hw hL hpass
  obtain ⟨u, hfed, hu⟩ := feedAll_of_accepted haccept (by rw [encodeFrame_eq]; exact hn)
  refine ⟨s.encodeFrame, u, execEncode_of_encodes s henc, ?_, hu⟩
  rw [encodedFrame_length, frameEvent_encodedFrame s i hid hp.legal hcmd hctl hlook] at hfed
  rw [encodeFrame_memRead_txo]
  exact hfed

end Sys2Proof.Machine
end

section
/-! PROOFS. The encoder statements (42_encoder.md R131 to R146): TXWR, ENCODE while disabled, what ENCODE changes in any state,
the frame it builds, and that a second ENCODE builds it again. -/

namespace Sys2Proof.Machine

/-! ### TXWR -/

theorem execTxwr_inside (i : BitVec 16) (b : Byte) (s : State) (h : i.toNat < s.params.txcap.toNat) :
    execTxwr i b s = .next ((s.memWrite .txb i.toNat [b]).respond 0) := by
  rcases execTxwr_cases i b s with ⟨_, e⟩ | ⟨hout, _⟩
  · exact e
  · omega

theorem execTxwr_outside (i : BitVec 16) (b : Byte) (s : State) (h : s.params.txcap.toNat ≤ i.toNat) :
    execTxwr i b s = .next s.refuseCommand := by
  rcases execTxwr_cases i b s with ⟨hin, _⟩ | ⟨_, e⟩
  · omega
  · exact e

/-- Settles O51: inside TXB the write puts one byte, outside it the command is refused. -/
theorem txwrWritesOneBodyByte : Obligations.TxwrWritesOneBodyByte := by
  intro s i b
  refine ⟨fun hin => ⟨storePut s.txb i.toNat b, ?_, storeGet_storePut_self .., fun x hx => ?_⟩, fun hout => ?_⟩
  · exact execTxwr_inside i b s hin
  · exact storeGet_storePut_of_ne _ _ _ _ hx
  · exact execTxwr_outside i b s hout

/-! ### ENCODE while disabled -/

theorem execEncode_disabled (s : State) (h : s.en = false) : execEncode s = .next s.refuseCommand := if_pos h

/-- Settles O53: the refusal is all that happens. -/
theorem encodeDisabledIsRefused : Obligations.EncodeDisabledIsRefused := execEncode_disabled

/-! ### Beyond the frame -/

theorem txoHead_beyond (s : State) (x : Nat) (h : s.offTs ≤ x) : storeGet s.txoHead x = storeGet s.txo x := by
  have hcmd := putfBytes_length s.params.byteOrder s.txCmd s.wCmd
  have hlay := layout_eqs s 0
  rw [State.txoHead, storeGet_storeWrite_outside _ _ _ _ (by omega),
    storeGet_storeWrite_outside _ _ _ _ (by rw [marker_length]; omega)]

theorem txoTimestamp_beyond (s : State) (x : Nat) (h : s.offLen ≤ x) : storeGet s.txoTimestamp x = storeGet s.txo x := by
  have hlay := layout_eqs s 0
  rw [← txoHead_beyond s x (by omega)]
  unfold State.txoTimestamp
  split
  · exact storeGet_storeWrite_outside _ _ _ _ (by rw [tsBytes_length]; omega)
  · rfl

theorem txoTrailer_beyond (s : State) (body : List Byte) (hb : body.length = s.txBodyLen.toNat) (x : Nat)
    (h : s.total s.txBodyLen.toNat ≤ x) : storeGet (s.txoTrailer body) x = storeGet s.txo x := by
  have hlen := putfBytes_length s.params.byteOrder s.txBodyLen s.wLen
  have hctl := putfBytes_length s.params.byteOrder s.txCtl s.wCtl
  have hlay := layout_eqs s s.txBodyLen.toNat
  have hfill : storeGet (storeWrite (storeWrite (storeWrite s.txoTimestamp s.offLen
        (putfBytes s.params.byteOrder s.txBodyLen s.wLen)) s.hdr body) (s.offInt s.txBodyLen.toNat)
        (List.replicate s.wInt 0#8)) x = storeGet s.txo x := by
    rw [storeGet_storeWrite_outside _ _ _ _ (by rw [List.length_replicate]; omega),
      storeGet_storeWrite_outside _ _ _ _ (by omega), storeGet_storeWrite_outside _ _ _ _ (by omega),
      txoTimestamp_beyond s x (by omega)]
  unfold State.txoTrailer
  split
  · rw [storeGet_storeWrite_outside _ _ _ _ (by omega), hfill]
  · exact hfill

/-- ENCODE writes no byte at or beyond TOTAL(L), whatever the configuration (42_encoder.md R143 (h)). -/
theorem encodedTxo_beyond (s : State) (x : Nat) (h : s.total s.txBodyLen.toNat ≤ x) :
    storeGet s.encodedTxo x = storeGet s.txo x := by
  have hlay := layout_eqs s s.txBodyLen.toNat
  rw [State.encodedTxo, txoFinal_get, if_neg (by omega), txoTrailer_beyond s _ (memRead_length ..) x h]

/-- Settles O55: a refused or failed ENCODE writes no byte of TXO, and one that is carried out none beyond the frame. -/
theorem encodeCompletesAndChangesOnly : Obligations.EncodeCompletesAndChangesOnly := by
  intro s
  rcases execEncode_cases s with ⟨hen, e⟩ | ⟨_, _, e⟩ | ⟨_, _, _, _, e⟩ | ⟨henc, e⟩
  · exact ⟨_, e, rfl, .inr ⟨hen, rfl⟩, rfl, fun _ _ => rfl⟩
  · exact ⟨_, e, rfl, .inl rfl, rfl, fun _ _ => rfl⟩
  · exact ⟨_, e, rfl, .inl rfl, rfl, fun _ _ => rfl⟩
  · refine ⟨_, e, by rw [encodeFrame_eq], .inl (by rw [encodeFrame_eq]), by rw [encodeFrame_eq], fun x hx => ?_⟩
    rw [encodeFrame_txo]
    exact encodedTxo_beyond s x (hx.resolve_left (not_not_intro henc))

/-! ### The timestamp and integrity fields -/

/-- Before the length field ENCODE leaves what stood there after the timestamp. -/
theorem encodedTxo_before_length (s : State) (hl : s.cfgLegal = true) (x : Nat) (h : x < s.offLen) :
    storeGet s.encodedTxo x = storeGet s.txoTimestamp x := by
  have hlay := layout_eqs s s.txBodyLen.toNat
  rw [State.encodedTxo, txoFinal_get, if_neg (by omega), txoTrailer_get s hl _ (memRead_length ..), if_neg (by omega),
    if_neg (by omega), if_neg (by omega), if_neg (by omega)]

/-- The source's bytes stand in the timestamp field (42_encoder.md R135). -/
theorem encodedTxo_timestamp (s : State) (hl : s.cfgLegal = true) (hts : s.tsEn = true) :
    storeHolds s.encodedTxo s.offTs (tsBytes s.tsIn s.draws s.wTs) := by
  have hlay := layout_eqs s s.txBodyLen.toNat
  intro i hi
  rw [tsBytes_length] at hi
  rw [encodedTxo_before_length s hl _ (by omega), State.txoTimestamp, if_pos hts,
    storeHolds_storeWrite_self _ _ _ i (by rwa [tsBytes_length])]

/-- Without a source the timestamp field keeps what TXO held (42_encoder.md R135). -/
theorem encodedTxo_timestamp_kept (s : State) (hl : s.cfgLegal = true) (hts : s.tsEn = false) (x : Nat)
    (h1 : s.offTs ≤ x) (h2 : x < s.offLen) : storeGet s.encodedTxo x = storeGet s.txo x := by
  rw [encodedTxo_before_length s hl x h2, State.txoTimestamp, if_neg (by simp [hts]), txoHead_beyond s x h1]

/-- Without a unit the integrity field is zero (42_encoder.md R137). -/
theorem encodedTxo_zeroFill (s : State) (hl : s.cfgLegal = true) (hint : s.intEn = false) :
    storeHolds s.encodedTxo (s.offInt s.txBodyLen.toNat) (List.replicate s.wInt 0) := by
  have hlay := layout_eqs s s.txBodyLen.toNat
  intro i hi
  rw [List.length_replicate] at hi
  rw [State.encodedTxo, txoFinal_get, if_neg (by simp [hint]), txoTrailer_get s hl _ (memRead_length ..),
    if_neg (by omega), if_pos (by omega), List.getElem?_replicate, if_pos hi]

/-- The unit's value over the finished fields stands in the integrity field (42_encoder.md R138). -/
theorem encodedTxo_integrity (s : State) (hint : s.intEn = true) :
    storeHolds s.encodedTxo (s.offInt s.txBodyLen.toNat)
      (s.hash (storeRead s.encodedTxo (s.held .txo) s.offCmd (s.hashLen s.txBodyLen.toNat))) := by
  rw [State.encodedTxo, txoFinal_hashed, State.txoFinal, if_pos hint]
  exact storeHolds_storeWrite_self _ _ _

/-! ### The frame ENCODE builds -/

/-- A frame that is carried out is shorter than TX_CAP's range, so TX_LEN holds its length (10_state.md R36). -/
theorem total_lt_of_encodes {s : State} (h : s.encodes) : s.total s.txBodyLen.toNat < 2 ^ 16 := by
  obtain ⟨_, hfits, _⟩ := h
  have hcap := s.params.txcap.isLt
  omega

/-- Where two states hold the same byte of TXO, or both hold none, a read of it gives the same. -/
theorem memRead_txo_one_congr {s t : State} {x : Nat} (hr : t.resets = s.resets)
    (h : storeGet t.txo x = storeGet s.txo x) : t.memRead .txo x 1 = s.memRead .txo x 1 := by
  simp only [State.memRead, State.held, store_txo, storeRead, hr, h]

/-- Settles O56: field by field, what TXO holds after the chain of writes. -/
theorem encodeBuildsTheFrame : Obligations.EncodeBuildsTheFrame := by
  intro s henc hl
  obtain ⟨hmarker, hcmd, hlen, hbody, hctl⟩ := encodedTxo_holds s hl
  have hresets : s.encodeFrame.resets = s.resets := by rw [encodeFrame_eq]
  have htxLen : s.encodeFrame.txLen.toNat = s.total s.txBodyLen.toNat := by
    rw [encodeFrame_eq]
    exact (BitVec.toNat_ofNat ..).trans (Nat.mod_eq_of_lt (total_lt_of_encodes henc))
  have htxo : s.encodeFrame.txo = s.encodedTxo := encodeFrame_txo s
  simp only [fieldBytes_eq_encBytes]
  refine ⟨s.encodeFrame, tsBytes s.tsIn s.draws s.wTs, execEncode_of_encodes s henc, by rw [encodeFrame_eq], htxLen, ?_⟩
  rw [htxo]
  refine ⟨hmarker, hcmd, fun hts => ⟨tsBytes_length .., encodedTxo_timestamp s hl hts, tsBytes_of_given _ _ _⟩,
    fun hts x h1 h2 => ?_, hlen, hbody, encodedTxo_zeroFill s hl, fun hint => ?_, hctl⟩
  · have hkept := encodedTxo_timestamp_kept s hl hts x h1 h2
    exact ⟨hkept, memRead_txo_one_congr hresets (by rw [htxo, hkept])⟩
  · rw [encodeFrame_memRead_txo]
    exact encodedTxo_integrity s hint

/-! ### A second ENCODE -/

/-- `s` with what an ENCODE can leave in it: TXO, TX_LEN, the response, and the source's bytes and draws. -/
def State.withOutput (s : State) (m : Store) (len : BitVec 16) (r : Response) (ts : List Byte) (draws : Nat) : State :=
  { s with txo := m, txLen := len, resp := r, tsIn := ts, draws := draws }

theorem encodeFrame_eq_withOutput (s : State) :
    s.encodeFrame = s.withOutput s.encodedTxo (BitVec.ofNat 16 (s.total s.txBodyLen.toNat))
      ⟨BitVec.ofNat 32 (s.total s.txBodyLen.toNat), none⟩ s.encodeFrame.tsIn s.encodeFrame.draws := by
  rw [← show s.encodeFrame.txo = s.encodedTxo from encodeFrame_txo s, encodeFrame_eq]
  rfl

/-- Two stores that hold the same bytes agree on them. -/
theorem storeGet_eq_of_holds {m m' : Store} {a x : Nat} {bs : List Byte} (h : storeHolds m a bs) (h' : storeHolds m' a bs)
    (h1 : a ≤ x) (h2 : x < a + bs.length) : storeGet m' x = storeGet m x := by
  obtain ⟨i, rfl⟩ := Nat.exists_eq_add_of_le h1
  rw [h' i (by omega), h i (by omega)]

section
variable {s : State} (hl : s.cfgLegal = true) (len : BitVec 16) (r : Response) (ts : List Byte) (draws : Nat)
include hl

/-- Encoding over the encoded frame leaves marker, command, length and body, and the timestamp bytes without a source. -/
theorem reencode_before_integrity (x : Nat) (hx : x < s.offInt s.txBodyLen.toNat)
    (hts : ¬ (s.tsEn = true ∧ s.offTs ≤ x ∧ x < s.offLen)) :
    storeGet (s.withOutput s.encodedTxo len r ts draws).encodedTxo x = storeGet s.encodedTxo x := by
  obtain ⟨hmarker, hcmd, hlen, hbody, _⟩ := encodedTxo_holds s hl
  obtain ⟨hmarker', hcmd', hlen', hbody', _⟩ := encodedTxo_holds (s.withOutput s.encodedTxo len r ts draws) hl
  have hlay := layout_eqs s s.txBodyLen.toNat
  have hfield : x < s.wFs ∨ s.offCmd ≤ x ∧ x < s.offCmd + s.wCmd ∨ s.offTs ≤ x ∧ x < s.offLen ∨
      s.offLen ≤ x ∧ x < s.offLen + s.wLen ∨ s.hdr ≤ x ∧ x < s.hdr + s.txBodyLen.toNat := by omega
  rcases hfield with h | ⟨h1, h2⟩ | ⟨h1, h2⟩ | ⟨h1, h2⟩ | ⟨h1, h2⟩
  · exact storeGet_eq_of_holds hmarker hmarker' (Nat.zero_le x) (by rw [marker_length]; omega)
  · exact storeGet_eq_of_holds hcmd hcmd' h1 (by rwa [encBytes_length])
  · have hoff : s.tsEn = false := Bool.eq_false_iff.mpr fun ht => hts ⟨ht, h1, h2⟩
    exact encodedTxo_timestamp_kept (s.withOutput s.encodedTxo len r ts draws) hl hoff x h1 h2
  · exact storeGet_eq_of_holds hlen hlen' h1 (by rwa [encBytes_length])
  · exact storeGet_eq_of_holds hbody hbody' h1 (by rwa [memRead_length])

/-- Encoding over the encoded frame leaves the integrity bytes, if none was computed or the hashed bytes are the same. -/
theorem reencode_integrity (x : Nat) (h1 : s.offInt s.txBodyLen.toNat ≤ x) (h2 : x < s.offCtl s.txBodyLen.toNat)
    (hts : ¬ (s.tsEn = true ∧ s.intEn = true)) :
    storeGet (s.withOutput s.encodedTxo len r ts draws).encodedTxo x = storeGet s.encodedTxo x := by
  have hlay := layout_eqs s s.txBodyLen.toNat
  cases hint : s.intEn with
  | false =>
    have hzero := encodedTxo_zeroFill s hl hint
    have hzero' := encodedTxo_zeroFill (s.withOutput s.encodedTxo len r ts draws) hl hint
    exact storeGet_eq_of_holds hzero hzero' h1 (by rw [List.length_replicate]; omega)
  | true =>
    have hhashed : storeRead (s.withOutput s.encodedTxo len r ts draws).encodedTxo (s.held .txo) s.offCmd
          (s.hashLen s.txBodyLen.toNat) =
        storeRead s.encodedTxo (s.held .txo) s.offCmd (s.hashLen s.txBodyLen.toNat) :=
      storeRead_congr _ _ _ _ _ fun i hi =>
        reencode_before_integrity hl len r ts draws _ (by omega) fun h => hts ⟨h.1, hint⟩
    have hvalue := encodedTxo_integrity s hint
    rw [← hhashed] at hvalue
    have hvalue' := encodedTxo_integrity (s.withOutput s.encodedTxo len r ts draws) hint
    exact storeGet_eq_of_holds hvalue hvalue' h1 (by rw [hash_length]; omega)

/-- Encoding over the encoded frame leaves every byte but a source's and the integrity bytes over them (42_encoder.md
R139). -/
theorem reencode_keeps (x : Nat) (hts : ¬ (s.tsEn = true ∧ s.offTs ≤ x ∧ x < s.offLen))
    (hint : ¬ (s.tsEn = true ∧ s.intEn = true ∧ s.offInt s.txBodyLen.toNat ≤ x ∧ x < s.offCtl s.txBodyLen.toNat)) :
    storeGet (s.withOutput s.encodedTxo len r ts draws).encodedTxo x = storeGet s.encodedTxo x := by
  obtain ⟨_, _, _, _, hctl⟩ := encodedTxo_holds s hl
  obtain ⟨_, _, _, _, hctl'⟩ := encodedTxo_holds (s.withOutput s.encodedTxo len r ts draws) hl
  have hlay := layout_eqs s s.txBodyLen.toNat
  have hfield : x < s.offInt s.txBodyLen.toNat ∨ s.offInt s.txBodyLen.toNat ≤ x ∧ x < s.offCtl s.txBodyLen.toNat ∨
      s.offCtl s.txBodyLen.toNat ≤ x ∧ x < s.offCtl s.txBodyLen.toNat + s.wCtl ∨ s.total s.txBodyLen.toNat ≤ x := by omega
  rcases hfield with h | ⟨h1, h2⟩ | ⟨h1, h2⟩ | h
  · exact reencode_before_integrity hl len r ts draws x h hts
  · exact reencode_integrity hl len r ts draws x h1 h2 fun ⟨ht, hi⟩ => hint ⟨ht, hi, h1, h2⟩
  · exact storeGet_eq_of_holds hctl hctl' h1 (by rwa [encBytes_length])
  · exact encodedTxo_beyond (s.withOutput s.encodedTxo len r ts draws) x h

end

/-- Settles O58: the second ENCODE runs on the first one's outcome, so it encodes over the encoded frame. -/
theorem secondEncodeGivesTheSameFrame : Obligations.SecondEncodeGivesTheSameFrame := by
  intro s henc hl
  have hfirst := encodeFrame_eq_withOutput s
  have htxo : s.encodeFrame.txo = s.encodedTxo := encodeFrame_txo s
  have hagain : s.encodeFrame.encodes := by rw [hfirst]; exact henc
  refine ⟨s.encodeFrame, s.encodeFrame.encodeFrame, execEncode_of_encodes s henc, execEncode_of_encodes _ hagain, ?_,
    total_lt_of_encodes henc, fun x hx => ?_, fun x hts hint => ?_⟩
  · rw [htxo]; exact hfirst
  · rw [htxo, encodedTxo_beyond s x hx]
  · have hsame : storeGet s.encodeFrame.encodeFrame.txo x = storeGet s.encodeFrame.txo x := by
      rw [htxo, show s.encodeFrame.encodeFrame.txo = s.encodeFrame.encodedTxo from encodeFrame_txo _, hfirst]
      exact reencode_keeps hl _ _ _ _ x hts hint
    exact ⟨hsame, memRead_txo_one_congr (by rw [encodeFrame_eq s.encodeFrame]) hsame⟩

end Sys2Proof.Machine
end

section
/-! PROOFS. FEED, outcome by outcome (43_reassembly.md R151 to R166): the outcomes before the append, what FEED leaves alone,
and what the byte does that is appended at, between and beyond the thresholds. -/

namespace Sys2Proof.Machine

/-! ### The outcomes before the append -/

/-- Settles O16: a disabled FEED is a refused command. -/
theorem feedDisabledOnlyRaisesCmdErr : Obligations.FeedDisabledOnlyRaisesCmdErr := execFeed_disabled

/-- What the completed reset run does (43_reassembly.md R153), as one update. -/
theorem fireReset_eq (s : State) :
    s.fireReset = { s with rstRun := 0, n := 0,
                           resp := ⟨s.resp.rdata, if s.rstCbEn then some .resetSeq else s.resp.event⟩ } := by
  unfold State.fireReset
  split <;> rfl

/-- Settles O17: the run completes before any other stage sees the byte. -/
theorem feedCompletingTheResetRunFires : Obligations.FeedCompletingTheResetRunFires := by
  intro s b hen hrst hcount
  have hfires : s.fires b := ⟨hrst, by rw [State.runAfter, if_pos hrst]; exact hcount⟩
  show execFeed b s = _
  rw [execFeed_fires s b hen hfires, fireReset_eq]
  rfl

/-- Settles O18: a byte that passes stage 1 in a full buffer meets the capacity guard. -/
theorem feedAtCapacityOverflows : Obligations.FeedAtCapacityOverflows := by
  intro s b hen hf hcap
  have hguard : (s.passed b).takeByte b = .next (s.passed b).overflowDrop := if_pos hcap
  exact (execFeed_passes s b hen hf).trans hguard

theorem execFeed_above_cap (s : State) (b : Byte) (hen : s.en = true) (hf : ¬ s.fires b)
    (hn : s.params.cap.toNat < s.n.toNat) : execFeed b s = .fault .countBeyondCapacity := by
  have hne : s.n ≠ s.params.cap := fun h => Nat.lt_irrefl _ (h ▸ hn)
  have hguard : (s.passed b).takeByte b = .fault .countBeyondCapacity := by
    rw [State.takeByte, if_neg (by exact hne), if_pos (by exact hn)]
  exact (execFeed_passes s b hen hf).trans hguard

theorem execFeed_below_cap (s : State) (b : Byte) (hen : s.en = true) (hf : ¬ s.fires b)
    (hn : s.n.toNat < s.params.cap.toNat) : execFeed b s = .next (s.fed b).stage2.stage3.stage4 := by
  have hne : s.n ≠ s.params.cap := fun h => Nat.lt_irrefl _ (h ▸ hn)
  have hguard : (s.passed b).takeByte b = .next (s.fed b).stage2.stage3.stage4 := by
    rw [State.takeByte, if_neg (by exact hne), if_neg (by exact Nat.lt_asymm hn)]
    rfl
  exact (execFeed_passes s b hen hf).trans hguard

/-! ### What FEED leaves alone -/

theorem execFeed_completes (s : State) (b : Byte) (hn : s.n.toNat ≤ s.params.cap.toNat) :
    ∃ t, execFeed b s = .next t := by
  rcases execFeed_cases s b with ⟨_, e⟩ | ⟨_, _, e⟩ | ⟨_, _, _, e⟩ | ⟨_, _, habove, _⟩ | ⟨_, _, _, e⟩
  · exact ⟨_, e⟩
  · exact ⟨_, e⟩
  · exact ⟨_, e⟩
  · omega
  · exact ⟨_, e⟩

section
variable {s t : State} {b : Byte} (h : execFeed b s = .next t)
include h

/-- Only the capacity guard and a refused command raise a flag. -/
theorem execFeed_status :
    t.status = s.status ∨ t.status = s.status ||| Flag.ovf.mask ∨ t.status = s.status ||| Flag.cmdErr.mask := by
  rcases execFeed_cases s b with ⟨_, e⟩ | ⟨_, _, e⟩ | ⟨_, _, _, e⟩ | ⟨_, _, _, e⟩ | ⟨_, _, _, e⟩ <;>
    rw [e] at h <;> cases h
  · exact .inr (.inr rfl)
  · rw [fireReset_eq]; exact .inl rfl
  · exact .inr (.inl rfl)
  · exact .inl (stages_feedFrame (appendedStages_frame s b)).2

theorem execFeed_rdata : t.resp.rdata = 0 := by
  rcases execFeed_cases s b with ⟨_, e⟩ | ⟨_, _, e⟩ | ⟨_, _, _, e⟩ | ⟨_, _, _, e⟩ | ⟨_, _, _, e⟩ <;>
    rw [e] at h <;> cases h
  · rfl
  · rw [fireReset_eq]; rfl
  · rfl
  · rw [stage4_rdata, stage3_rdata, stage2_rdata]; rfl

/-- FEED writes BUF at index N, and below W_FS - 1 when the append fills the marker's window. -/
theorem execFeed_buf_outside (x : Nat) (hx : x ≠ s.n.toNat) (hw : s.n.toNat + 1 ≠ s.wFs ∨ s.wFs ≤ x + 1) :
    storeGet t.buf x = storeGet s.buf x := by
  rcases execFeed_cases s b with ⟨_, e⟩ | ⟨_, _, e⟩ | ⟨_, _, _, e⟩ | ⟨_, _, _, e⟩ | ⟨_, _, hn, e⟩ <;>
    rw [e] at h <;> cases h
  · rfl
  · rw [fireReset_eq]; rfl
  · rfl
  · have hcount : ((s.passed b).append b).n.toNat = s.n.toNat + 1 := append_n_toNat (s.passed b) b hn
    rw [stage4_buf, stage3_buf, stage2_buf _ _ (by rw [hcount]; exact hw)]
    exact (append_set s b).2 x hx

end

/-- Settles O15: FEED's frame, flag by flag and byte by byte. -/
theorem feedCompletesAndChangesOnly : Obligations.FeedCompletesAndChangesOnly :=
  ⟨execFeed_completes,
    fun s t b h => ⟨(execFeed_frame s t b h).1, execFeed_status h, execFeed_rdata h, execFeed_buf_outside h⟩,
    execFeed_above_cap⟩

/-! ### The append between and at the thresholds -/

theorem stage2_of_n_ne {s : State} (h : s.n.toNat ≠ s.wFs) : s.stage2 = s := if_neg h

theorem stage3_of_n_ne {s : State} (h : s.n.toNat ≠ s.hdr) : s.stage3 = s := if_neg h

theorem stage4_of_n_ne {s : State} (h : s.n.toNat ≠ s.total s.bodyLen.toNat) : s.stage4 = s := if_neg h

/-- At a count that is no threshold no stage acts, whatever the configuration (43_reassembly.md R162). -/
theorem execFeed_between_thresholds (s : State) (b : Byte) (hen : s.en = true) (hf : ¬ s.fires b)
    (hn : s.n.toNat < s.params.cap.toNat) (hw : s.n.toNat + 1 ≠ s.wFs) (hh : s.n.toNat + 1 ≠ s.hdr)
    (ht : s.n.toNat + 1 ≠ s.total s.bodyLen.toNat) : execFeed b s = .next (s.fed b) := by
  rw [← fed_n_toNat s b hn] at hw hh ht
  rw [execFeed_below_cap s b hen hf hn, stage2_of_n_ne hw, stage3_of_n_ne hh, stage4_of_n_ne ht]

/-- Settles O19: between the thresholds the append is all. -/
theorem feedBetweenThresholdsOnlyAppends : Obligations.FeedBetweenThresholdsOnlyAppends := by
  intro s b hen hf hn hw hh ht
  exact ⟨(s.fed b).buf, execFeed_between_thresholds s b hen hf hn hw hh ht, append_set s b⟩

theorem n_lt_cap_of_inv {s : State} (hinv : s.Inv) (hcap : s.n ≠ s.params.cap) : s.n.toNat < s.params.cap.toNat :=
  Nat.lt_of_le_of_ne hinv.countBound fun h => hcap (BitVec.eq_of_toNat_eq h)

/-- The byte that completes the marker is appended, and no stage acts on it. -/
theorem execFeed_marker_match (s : State) (b : Byte) (hen : s.en = true) (hf : ¬ s.fires b)
    (hn : s.n.toNat < s.params.cap.toNat) (hl : s.cfgLegal = true) (hw : s.n.toNat + 1 = s.wFs)
    (hm : s.accumulated b = s.marker) : execFeed b s = .next (s.fed b) := by
  have hlen : (s.accumulated b).length = (s.fed b).wFs := (accumulated_length s b).trans hw
  rw [execFeed_stages s b hen hf hn hl, State.stages, if_pos hlen]
  exact congrArg _ (if_pos hm)

/-- Settles O21: the matching window stays in BUF. -/
theorem feedMarkerMatchContinues : Obligations.FeedMarkerMatchContinues := by
  intro s b hinv hen hf hcap hw hm
  refine ⟨s.fed b, execFeed_marker_match s b hen hf (n_lt_cap_of_inv hinv hcap) (hinv.progress hen).legal hw hm, rfl,
    append_set s b, ?_⟩
  rw [← hw, fed_bufBytes, hm]

/-! ### The resync -/

/-- BUF after a resync: the bytes after the first moved down by one, the byte just fed still at index N (43_reassembly.md
R158). -/
def State.shifted (s : State) (b : Byte) : Store := storeWrite (s.fed b).buf 0 (s.accumulated b).tail

/-- The state after a resync: N is what it was. -/
def State.resynced (s : State) (b : Byte) : State :=
  { s with rstRun := s.runAfter b, buf := s.shifted b, resp := ⟨0, some (.resync ((s.accumulated b).headD 0))⟩ }

theorem execFeed_marker_mismatch (s : State) (b : Byte) (hen : s.en = true) (hf : ¬ s.fires b)
    (hn : s.n.toNat < s.params.cap.toNat) (hl : s.cfgLegal = true) (hw : s.n.toNat + 1 = s.wFs)
    (hm : s.accumulated b ≠ s.marker) : execFeed b s = .next (s.resynced b) := by
  have hlen : (s.accumulated b).length = (s.fed b).wFs := (accumulated_length s b).trans hw
  have hm' : s.accumulated b ≠ (s.fed b).marker := hm
  have hback : (s.fed b).n - 1 = s.n := BitVec.add_sub_cancel ..
  rw [execFeed_stages s b hen hf hn hl, State.stages, if_pos hlen, if_neg hm', hback]
  rfl

theorem accumulated_tail_length (s : State) (b : Byte) : (s.accumulated b).tail.length = s.n.toNat := by
  rw [List.length_tail, accumulated_length, Nat.add_sub_cancel]

theorem shifted_below (s : State) (b : Byte) (x : Nat) (h : x < s.n.toNat) :
    storeGet (s.shifted b) x = (s.accumulated b)[x + 1]? := by
  rw [State.shifted, storeGet_storeWrite, accumulated_tail_length, if_pos (by omega), Nat.sub_zero, List.getElem?_tail]

theorem shifted_from (s : State) (b : Byte) (x : Nat) (h : s.n.toNat ≤ x) :
    storeGet (s.shifted b) x = storeGet (s.fed b).buf x :=
  storeGet_storeWrite_outside _ _ _ _ (.inr (by rw [accumulated_tail_length]; omega))

/-- Settles O20: the resync shifts the accumulated bytes and leaves BUF beyond them. -/
theorem feedMarkerMismatchResyncs : Obligations.FeedMarkerMismatchResyncs := by
  intro s b hinv hen hf hcap hw hm
  obtain ⟨happended, hkept⟩ := append_set s b
  refine ⟨s.shifted b, execFeed_marker_mismatch s b hen hf (n_lt_cap_of_inv hinv hcap) (hinv.progress hen).legal hw hm,
    shifted_below s b, ?_, fun x hx => ?_⟩
  · exact (shifted_from s b _ (Nat.le_refl _)).trans happended
  · exact (shifted_from s b x (Nat.le_of_lt hx)).trans (hkept x (Nat.ne_of_gt hx))

/-! ### The length field and the complete frame -/

theorem complete_of_unfinished {s : State} (f : List Byte)
    (h : s.n.toNat < s.total s.bodyLen.toNat ∨ s.wedge = true) : s.complete f = s := by
  rcases h with h | h
  · exact complete_of_n_ne_total f (Nat.ne_of_lt h)
  · exact complete_of_wedge s f h

/-- A complete frame that passes or skips the integrity comparison goes to the lookup (43_reassembly.md R165). -/
theorem complete_of_sound (s : State) (f : List Byte) (hw : s.wedge = false)
    (hn : s.n.toNat = s.total s.bodyLen.toNat) (hok : s.intEn = true → s.frameCorrupt f = false) :
    s.complete f = { s.emit (s.frameEvent f) with n := 0 } := by
  have hsound : ¬ (s.intEn = true ∧ s.frameCorrupt f = true) := fun ⟨hint, hbad⟩ =>
    Bool.noConfusion ((hok hint).symm.trans hbad)
  rw [State.complete, if_pos ⟨hn, hw⟩, if_neg hsound]

section
variable {s : State} {b : Byte} {len : Word} (hen : s.en = true) (hf : ¬ s.fires b)
  (hn : s.n.toNat < s.params.cap.toNat) (hl : s.cfgLegal = true) (hh : s.n.toNat + 1 = s.hdr)
  (hlen : len = decBytes s.params.byteOrder (slice (s.accumulated b) s.offLen s.wLen))
include hen hf hn hl hh hlen

/-- The byte that completes the header: the length is taken, and checked against the policy (43_reassembly.md R160, R161). -/
theorem execFeed_at_header :
    execFeed b s = .next (if s.lenFails len then
        { s.fed b with bodyLen := len, n := 0, resp := ⟨0, some (.lenDrop len)⟩ }
      else State.complete { s.fed b with bodyLen := len } (s.accumulated b)) := by
  obtain ⟨hcmd, _⟩ := legal_pos s hl
  have hhdr : s.hdr = s.wFs + s.wCmd + s.wTs + s.wLen := rfl
  rw [execFeed_stages s b hen hf hn hl, State.stages, accumulated_length, fed_wFs, fed_hdr, if_neg (by omega),
    if_neg (by omega), if_pos hh, hlen]
  rfl

theorem execFeed_length_accepted (hpass : s.lenFails len = false) :
    execFeed b s = .next (State.complete { s.fed b with bodyLen := len } (s.accumulated b)) := by
  rw [execFeed_at_header hen hf hn hl hh hlen, hpass, if_neg Bool.false_ne_true]

theorem execFeed_length_rejected (hfail : s.lenFails len = true) :
    execFeed b s = .next { s.fed b with bodyLen := len, n := 0, resp := ⟨0, some (.lenDrop len)⟩ } := by
  rw [execFeed_at_header hen hf hn hl hh hlen, if_pos hfail]

end

/-- Settles O23: the header is complete, and the frame is not, or completes nothing. -/
theorem feedAcceptedLengthContinues : Obligations.FeedAcceptedLengthContinues := by
  intro s b len hinv hen hf hcap hh hlen hexact hmax hmore
  have hn := n_lt_cap_of_inv hinv hcap
  have hpass : s.lenFails len = false := (lenFails_eq_false_iff s len).mpr ⟨hexact, hmax⟩
  have hcount : (s.fed b).n.toNat = s.hdr := (fed_n_toNat s b hn).trans hh
  have hstay : State.complete { s.fed b with bodyLen := len } (s.accumulated b) = { s.fed b with bodyLen := len } :=
    complete_of_unfinished _ (hmore.imp_left fun hlt => (Nat.le_of_eq hcount).trans_lt hlt)
  refine ⟨{ s.fed b with bodyLen := len }, ?_, rfl, append_set s b, ?_⟩
  · show execFeed b s = _
    rw [execFeed_length_accepted hen hf hn (hinv.progress hen).legal hh hlen hpass, hstay]
  · rw [← hh]; exact fed_bufBytes s b

theorem lenFails_eq_true_iff (s : State) (len : Word) :
    s.lenFails len = true ↔ (s.exactEn = true ∧ len ≠ s.lenExact) ∨ (s.maxEn = true ∧ s.lenMax.toNat < len.toNat) := by
  simp only [State.lenFails, Bool.or_eq_true, Bool.and_eq_true, decide_eq_true_eq]

/-- Settles O24: the header is complete, and its length fails the policy. -/
theorem feedRejectedLengthDrops : Obligations.FeedRejectedLengthDrops := by
  intro s b len hinv hen hf hcap hh hlen hfail
  exact ⟨_, execFeed_length_rejected hen hf (n_lt_cap_of_inv hinv hcap) (hinv.progress hen).legal hh hlen
    ((lenFails_eq_true_iff s len).mpr hfail), rfl, append_set s b⟩

/-- Without an integrity field there are no bytes to differ. -/
theorem frameCorrupt_of_no_field (s : State) (f : List Byte) (h : s.wInt = 0) : s.frameCorrupt f = false := by
  have hhash (d : List Byte) : s.hash d = [] := List.eq_nil_of_length_eq_zero ((hash_length s d).trans h)
  have hfield (a : Nat) : slice f a s.wInt = [] := by rw [h]; rfl
  rw [State.frameCorrupt, hhash, hfield]
  rfl

/-- Settles O25: the header of an empty frame without trailer is the whole frame, and its length 0 passes. -/
theorem emptyFrameCompletesAtTheLengthByte : Obligations.EmptyFrameCompletesAtTheLengthByte := by
  intro s b hinv hen hw hf hh hlen hexact hint hctl
  have hprog := hinv.progress hen
  have hn := n_lt_cap_of_not_wedge s hprog hw
  have hpass : s.lenFails 0 = false :=
    (lenFails_eq_false_iff s 0).mpr ⟨fun h => (hexact h).symm, fun _ => Nat.zero_le _⟩
  have htotal : (s.fed b).n.toNat = s.total 0 := by
    rw [fed_n_toNat s b hn, hh]
    simp only [State.total, hint, hctl, Nat.add_zero]
  have hdone : State.complete { s.fed b with bodyLen := 0 } (s.accumulated b) =
      { s.fed b with bodyLen := 0, n := 0,
                     resp := ⟨0, some (State.frameEvent { s with bodyLen := 0 } (s.accumulated b))⟩ } :=
    complete_of_sound { s.fed b with bodyLen := 0 } _ hw htotal fun _ => frameCorrupt_of_no_field _ _ hint
  refine ⟨State.complete { s.fed b with bodyLen := 0 } (s.accumulated b),
    execFeed_length_accepted hen hf hn hprog.legal hh hlen.symm hpass, ?_⟩
  rw [hdone]
  exact ⟨rfl, append_set s b⟩

theorem frameEvent_of_unknown (s : State) (f : List Byte) (code : Word)
    (hcode : decBytes s.params.byteOrder (slice f s.offCmd s.wCmd) = code) (hlook : s.lookup code = none) :
    s.frameEvent f = .unknownCmd code := by
  simp only [State.frameEvent, hcode, hlook]

/-- Settles O27: the byte reaches the completion stage, which finds the frame complete and sound. -/
theorem feedCompleteFrameIsLookedUp : Obligations.FeedCompleteFrameIsLookedUp := by
  intro s b code hinv hen hf hhdr htotal hw hok hcode
  have hprog := hinv.progress hen
  have hn := n_lt_cap_of_not_wedge s hprog hw
  have hdone : (s.fed b).complete (s.accumulated b) = { (s.fed b).emit (s.frameEvent (s.accumulated b)) with n := 0 } :=
    complete_of_sound (s.fed b) _ hw ((fed_n_toNat s b hn).trans htotal) fun hint =>
      decide_eq_false (not_not_intro (hok hint))
  refine ⟨(s.fed b).complete (s.accumulated b), s.frameEvent (s.accumulated b),
    execFeed_beyond_header s b hen hf hn hprog.legal hhdr, ?_⟩
  rw [hdone]
  refine ⟨rfl, append_set s b, frameEvent_of_unknown s _ code hcode.symm, fun i hid hlook => ?_⟩
  rw [frameEvent_of_lookup s _ code i hid hcode.symm hlook]
  by_cases hctl : s.wCtl = 0
  · rw [if_pos hctl, if_neg (by omega)]; rfl
  · rw [if_neg hctl, if_pos (by omega)]; rfl

end Sys2Proof.Machine
end

section
/-! PROOFS. The engine as a matcher (43_reassembly.md R159): before the marker ends the stream, BUF is a window that slides over
the bytes fed. -/

namespace Sys2Proof.Machine

/-! ### Feeding one byte more -/

theorem feedAll_snoc {xs : List Byte} {b : Byte} {s t u : State} {es : List (Option Event)}
    (h : feedAll xs s = some (es, t)) (hb : execFeed b t = .next u) :
    feedAll (xs ++ [b]) s = some (es ++ [u.resp.event], u) := by
  induction xs generalizing s es with
  | nil =>
    cases h
    simp only [List.nil_append, feedAll, exec, hb, Option.map_some]
  | cons x xs ih =>
    simp only [feedAll] at h
    cases hx : exec (.feed x) s with
    | next v =>
      simp only [hx, Option.map_eq_some_iff] at h
      obtain ⟨⟨es', t'⟩, hrest, heq⟩ := h
      cases heq
      simp only [List.cons_append, feedAll, hx, ih hrest, Option.map_some]
    | fault _ => simp [hx] at h
    | refused _ => simp [hx] at h

/-! ### The window -/

/-- After the bytes `ys`, in which the marker `m` has not ended: an enabled engine without reset detection whose BUF holds the
last bytes fed, one fewer than the marker has or all of them. -/
structure State.Slides (s : State) (m ys : List Byte) : Prop where
  inv : s.Inv
  en : s.en = true
  detectOff : s.rstEn = false
  marker : s.marker = m
  nonempty : 1 ≤ m.length
  count : s.n.toNat = min ys.length (m.length - 1)
  bytes : s.bufBytes 0 s.n.toNat = ys.drop (ys.length - s.n.toNat)

/-- What the FEED of `xs[k]` emits while the marker of `w` bytes has not ended: the byte that falls out of the window. -/
def slideEvent (w : Nat) (xs : List Byte) (k : Nat) : Option Event :=
  if k + 1 < w then none else some (.resync (xs.getD (k + 1 - w) 0))

/-- What falls out is one of the bytes fed so far. -/
theorem slideEvent_take (w : Nat) (xs : List Byte) (k : Nat) (hw : 1 ≤ w) :
    slideEvent w (xs.take (k + 1)) k = slideEvent w xs k := by
  simp only [slideEvent, List.getD_eq_getElem?_getD, List.getElem?_take, if_pos (show k + 1 - w < k + 1 by omega)]

theorem resynced_bufBytes (s : State) (b : Byte) : (s.resynced b).bufBytes 0 s.n.toNat = (s.accumulated b).tail := by
  rw [← accumulated_tail_length s b]
  exact storeRead_storeWrite_self _ _ _ _

section
variable {s : State} {m ys : List Byte} (h : s.Slides m ys)
include h

theorem slides_wFs : s.wFs = m.length := by rw [← h.marker, marker_length]

theorem slides_not_fires (b : Byte) : ¬ s.fires b := not_fires_of_detectOff h.detectOff b

theorem slides_legal : s.cfgLegal = true := (h.inv.progress h.en).legal

/-- The window never fills BUF: a legal configuration has room for a header. -/
theorem slides_n_lt_cap : s.n.toNat < s.params.cap.toNat := by
  have hfits := (capOk_iff s).mp (h.inv.progress h.en).capOk
  have hcount := h.count
  have hpos := h.nonempty
  have hw := slides_wFs h
  simp only [State.hdr] at hfits
  omega

/-- The window with the byte fed is the end of the stream. -/
theorem slides_accumulated (b : Byte) : s.accumulated b = (ys ++ [b]).drop (ys.length - s.n.toNat) := by
  rw [State.accumulated, h.bytes, List.drop_append_of_le_length (Nat.sub_le _ _)]

/-- Where the window is one byte short, it matches exactly when the marker ends the stream. -/
theorem slides_match_iff (b : Byte) (hw : s.n.toNat + 1 = s.wFs) :
    s.accumulated b = s.marker ↔ m <:+ ys ++ [b] := by
  have hcount := h.count
  have hlen := slides_wFs h
  have hstart : ys.length - s.n.toNat = (ys ++ [b]).length - m.length := by
    rw [List.length_append, List.length_singleton]; omega
  rw [slides_accumulated h b, h.marker, List.suffix_iff_eq_drop, hstart, eq_comm]

/-- Below the marker's length a byte is appended. -/
theorem slides_append (b : Byte) (hw : s.n.toNat + 1 < s.wFs) :
    execFeed b s = .next (s.fed b) ∧ (s.fed b).Slides m (ys ++ [b]) := by
  have hhdr : s.hdr = s.wFs + s.wCmd + s.wTs + s.wLen := rfl
  have htotal := hdr_le_total s s.bodyLen.toNat
  have hstep : execFeed b s = .next (s.fed b) :=
    execFeed_between_thresholds s b h.en (slides_not_fires h b) (slides_n_lt_cap h) (by omega) (by omega) (by omega)
  have hcount := h.count
  have hlen := slides_wFs h
  have hn := fed_n_toNat s b (slides_n_lt_cap h)
  refine ⟨hstep, execFeed_inv s _ b h.inv hstep, h.en, h.detectOff, h.marker, h.nonempty, ?_, ?_⟩
  · rw [hn, List.length_append, List.length_singleton]; omega
  · rw [hn, fed_bufBytes, slides_accumulated h b, List.length_append, List.length_singleton, Nat.add_sub_add_right]

/-- At the marker's length a byte that does not end the marker pushes the oldest one out. -/
theorem slides_resync (b : Byte) (hw : s.n.toNat + 1 = s.wFs) (hm : ¬ m <:+ ys ++ [b]) :
    execFeed b s = .next (s.resynced b) ∧ (s.resynced b).Slides m (ys ++ [b]) := by
  have hstep : execFeed b s = .next (s.resynced b) :=
    execFeed_marker_mismatch s b h.en (slides_not_fires h b) (slides_n_lt_cap h) (slides_legal h) hw
      (mt (slides_match_iff h b hw).mp hm)
  have hcount := h.count
  have hlen := slides_wFs h
  refine ⟨hstep, execFeed_inv s _ b h.inv hstep, h.en, h.detectOff, h.marker, h.nonempty, ?_, ?_⟩
  · show s.n.toNat = _
    rw [List.length_append, List.length_singleton]; omega
  · show (s.resynced b).bufBytes 0 s.n.toNat = (ys ++ [b]).drop ((ys ++ [b]).length - s.n.toNat)
    rw [resynced_bufBytes, slides_accumulated h b, List.tail_drop, List.length_append, List.length_singleton,
      Nat.sub_add_comm (by omega)]

theorem slides_dropped (b : Byte) (hw : s.n.toNat + 1 = s.wFs) :
    (s.accumulated b).headD 0 = (ys ++ [b]).getD (ys.length + 1 - m.length) 0 := by
  have hlen := slides_wFs h
  rw [slides_accumulated h b, List.headD_eq_head?_getD, List.head?_drop, List.getD_eq_getElem?_getD,
    show ys.length - s.n.toNat = ys.length + 1 - m.length by omega]

/-- One FEED slides the window. -/
theorem slides_step (b : Byte) (hm : ¬ m <:+ ys ++ [b]) :
    ∃ t, execFeed b s = .next t ∧ t.Slides m (ys ++ [b]) ∧ t.resp.event = slideEvent m.length (ys ++ [b]) ys.length := by
  have hcount := h.count
  have hlen := slides_wFs h
  have hpos := h.nonempty
  by_cases hw : s.n.toNat + 1 < s.wFs
  · obtain ⟨hstep, hslides⟩ := slides_append h b hw
    exact ⟨_, hstep, hslides, (if_pos (by omega)).symm⟩
  · have hw : s.n.toNat + 1 = s.wFs := by omega
    obtain ⟨hstep, hslides⟩ := slides_resync h b hw hm
    refine ⟨_, hstep, hslides, ?_⟩
    rw [slideEvent, if_neg (by omega), ← slides_dropped h b hw]
    rfl

/-- The byte that ends the marker is kept without an event, and the marker stands in BUF. -/
theorem slides_synchronises (b : Byte) (hm : m <:+ ys ++ [b]) :
    ∃ u, execFeed b s = .next u ∧ u.n.toNat = s.wFs ∧ u.bufBytes 0 s.wFs = m ∧ u.resp.event = none := by
  have hlong := hm.length_le
  rw [List.length_append, List.length_singleton] at hlong
  have hcount := h.count
  have hpos := h.nonempty
  have hw : s.n.toNat + 1 = s.wFs := by rw [slides_wFs h]; omega
  have hmatch := (slides_match_iff h b hw).mpr hm
  have hn := slides_n_lt_cap h
  refine ⟨s.fed b, execFeed_marker_match s b h.en (slides_not_fires h b) hn (slides_legal h) hw hmatch,
    (fed_n_toNat s b hn).trans hw, ?_, rfl⟩
  rw [← hw, fed_bufBytes, hmatch, h.marker]

end

/-- The window slides over a stream in which the marker does not end. -/
theorem feedAll_slides {s : State} {m : List Byte} (h : s.Slides m []) (xs : List Byte) (k : Nat) (hk : k ≤ xs.length)
    (hm : ∀ j, j ≤ k → ¬ m <:+ xs.take j) :
    ∃ t, feedAll (xs.take k) s = some ((List.range k).map (slideEvent m.length xs), t) ∧ t.Slides m (xs.take k) := by
  induction k with
  | zero => exact ⟨s, rfl, h⟩
  | succ k ih =>
    obtain ⟨t, hfeed, hslides⟩ := ih (by omega) fun j hj => hm j (by omega)
    have htake : xs.take (k + 1) = xs.take k ++ [xs[k]] := List.take_succ_eq_append_getElem hk
    have hlen : (xs.take k).length = k := List.length_take_of_le (by omega)
    obtain ⟨u, hstep, hslides', hevent⟩ := slides_step hslides xs[k] (by rw [← htake]; exact hm (k + 1) (Nat.le_refl _))
    rw [← htake, hlen, slideEvent_take _ _ _ h.nonempty] at hevent
    refine ⟨u, ?_, htake ▸ hslides'⟩
    rw [htake, feedAll_snoc hfeed hstep, hevent, List.range_succ, List.map_append, List.map_singleton]

/-- Settles O22, by induction on the number of bytes fed: the window slides until the marker ends the stream. -/
theorem engineIsASlidingWindowMatcher : Obligations.EngineIsASlidingWindowMatcher := by
  intro s xs hinv hen hoff hn hpos hm
  have hstart : s.Slides s.marker [] :=
    ⟨hinv, hen, hoff, rfl, (marker_length s).symm ▸ hpos, by simp [hn], by rw [hn]; rfl⟩
  obtain ⟨t, hfeed, hslides⟩ := feedAll_slides hstart xs xs.length (Nat.le_refl _) hm
  rw [List.take_length] at hfeed hslides
  have hw : t.wFs = s.wFs := (slides_wFs hslides).trans (marker_length s)
  rw [marker_length] at hfeed
  refine ⟨t, hfeed, ?_, hslides.bytes, fun b hb => ?_⟩
  · rw [hslides.count, marker_length]
  · rw [← hw]; exact slides_synchronises hslides b hb

end Sys2Proof.Machine
end

section
/-! PROOFS. The command table (44_dispatch.md R182, R185): which entry the scan finds, and when it finds none. -/

namespace Sys2Proof.Machine

/-! ### The scan of a list of entries -/

theorem scanTable_sentinel (code : Word) (k : Nat) {e : CtEntry} (rest : List CtEntry) (hs : e.hid = 0#16) :
    scanTable code k (e :: rest) = none := if_pos hs

theorem scanTable_match {code : Word} (k : Nat) {e : CtEntry} (rest : List CtEntry) (hs : e.hid ≠ 0#16)
    (hc : e.code = code) : scanTable code k (e :: rest) = some (k, e.hid) := (if_neg hs).trans (if_pos hc)

theorem scanTable_pass {code : Word} (k : Nat) {e : CtEntry} (rest : List CtEntry) (hs : e.hid ≠ 0#16)
    (hc : e.code ≠ code) : scanTable code k (e :: rest) = scanTable code (k + 1) rest := (if_neg hs).trans (if_neg hc)

theorem ctEntry_eq_iff (e : CtEntry) (code : Word) (hid : BitVec 16) :
    e = ⟨code, hid⟩ ↔ e.code = code ∧ e.hid = hid := by
  obtain ⟨c, g⟩ := e
  simp

/-- R182 at index `k`, where the scan passes `m` entries before its answer. -/
theorem scanTable_eq_some_iff (code : Word) (k : Nat) (es : List CtEntry) (i : Nat) (hid : BitVec 16) :
    scanTable code k es = some (i, hid) ↔
      ∃ m, i = k + m ∧ es[m]? = some ⟨code, hid⟩ ∧ hid ≠ 0#16 ∧ ∀ e ∈ es.take m, e.hid ≠ 0#16 ∧ e.code ≠ code := by
  induction es generalizing k with
  | nil => simp [scanTable]
  | cons e rest ih =>
    rw [← Nat.or_exists_add_one]
    by_cases hs : e.hid = 0#16
    · simp +contextual [scanTable_sentinel code k rest hs, ctEntry_eq_iff, hs, @eq_comm _ 0#16]
    · by_cases hc : e.code = code
      · have handler : e.hid = hid → ¬ hid = 0#16 := fun h => h ▸ hs
        simp [scanTable_match k rest hs hc, ctEntry_eq_iff, hs, hc, and_iff_left_of_imp handler, @eq_comm _ k]
      · simp [scanTable_pass k rest hs hc, ih, ctEntry_eq_iff, hs, hc, Nat.add_right_comm, Nat.add_assoc]

/-- R182 at index `k`: the entry with the code may itself be the sentinel, since that test comes first. -/
theorem scanTable_eq_none_iff (code : Word) (k : Nat) (es : List CtEntry) :
    scanTable code k es = none ↔
      ∀ m e, es[m]? = some e → e.code = code → ∃ z ∈ es.take (m + 1), z.hid = 0#16 := by
  induction es generalizing k with
  | nil => simp [scanTable]
  | cons e rest ih =>
    rw [← Nat.and_forall_add_one]
    by_cases hs : e.hid = 0#16
    · simp [scanTable_sentinel code k rest hs, hs]
    · by_cases hc : e.code = code
      · simp [scanTable_match k rest hs hc, hs, hc]
      · simp [scanTable_pass k rest hs hc, ih, hs, hc]

/-! ### The table as the first N_CMD registers -/

theorem table_getElem?_eq_some_iff (s : State) (i : Nat) (e : CtEntry) :
    s.table[i]? = some e ↔ ∃ _ : i < 32, i < s.params.nCmd.val ∧ s.ct[i] = e := by
  simp [State.table, List.getElem?_take, Vector.getElem?_eq_some_iff]

theorem mem_table_take_iff (s : State) {n : Nat} (hn : n ≤ s.params.nCmd.val) (e : CtEntry) :
    e ∈ s.table.take n ↔ ∃ j : Fin 32, j.val < n ∧ s.ct[j] = e := by
  rw [State.table, List.take_take, Nat.min_eq_left hn, List.mem_take_iff_getElem]
  simp only [Vector.length_toList, Vector.getElem_toList, Nat.lt_min]
  exact ⟨fun ⟨j, hj, he⟩ => ⟨⟨j, hj.2⟩, hj.1, he⟩, fun ⟨j, hj, he⟩ => ⟨j, ⟨hj, j.isLt⟩, he⟩⟩

/-! ### The lookup -/

theorem lookup_eq_some_iff (s : State) (code : Word) (i : Nat) (hid : BitVec 16) :
    s.lookup code = some (i, hid) ↔
      s.table[i]? = some ⟨code, hid⟩ ∧ hid ≠ 0#16 ∧ ∀ e ∈ s.table.take i, e.hid ≠ 0#16 ∧ e.code ≠ code := by
  rw [State.lookup, scanTable_eq_some_iff]
  simp

theorem lookup_eq_none_iff (s : State) (code : Word) :
    s.lookup code = none ↔
      ∀ i e, s.table[i]? = some e → e.code = code → ∃ z ∈ s.table.take (i + 1), z.hid = 0#16 :=
  scanTable_eq_none_iff code 0 s.table

/-- Settles O30: the lookup is the scan of the table from index 0, and the table's entries are the registers below N_CMD. -/
theorem tableLookupFindsTheFirstMatch : Obligations.TableLookupFindsTheFirstMatch := by
  refine ⟨fun s code i hid => ?_, fun s code => ?_⟩
  · rw [lookup_eq_some_iff, table_getElem?_eq_some_iff]
    by_cases hi : i < s.params.nCmd.val
    · simp [mem_table_take_iff s (Nat.le_of_lt hi), hi, ctEntry_eq_iff, ← exists_and_right, and_assoc]
    · simp [hi]
  · rw [lookup_eq_none_iff]
    constructor
    · intro h i hi hc
      obtain ⟨z, hz, hs⟩ := h i _ ((table_getElem?_eq_some_iff s i _).mpr ⟨i.isLt, hi, rfl⟩) hc
      obtain ⟨j, hj, rfl⟩ := (mem_table_take_iff s hi z).mp hz
      exact ⟨j, Nat.le_of_lt_succ hj, hs⟩
    · intro h i e he hc
      obtain ⟨hlt, hi, rfl⟩ := (table_getElem?_eq_some_iff s i e).mp he
      obtain ⟨j, hj, hs⟩ := h ⟨i, hlt⟩ hi hc
      exact ⟨_, (mem_table_take_iff s hi _).mpr ⟨j, Nat.lt_succ_of_le hj, rfl⟩, hs⟩

end Sys2Proof.Machine
end

section
/-! PROOFS. The host command statements (45_host_commands.md R191 to R201): the meaning of every command word, CFGRD and CFGWR of
numbers outside the map, refused and ignored writes, the CTRL register, and CLEAR. -/

namespace Sys2Proof.Machine

/-! ### The meaning of a command word -/

/-- A command word given as a number is made of its fields (30_encoding.md R77). -/
theorem ofNat_eq_hostWord (op arg data : Nat) (harg : arg < 0x100) (hdata : data < 0x100000000) :
    BitVec.ofNat 48 (op * 0x10000000000 + arg * 0x100000000 + data) =
      hostWord (BitVec.ofNat 8 op) (BitVec.ofNat 8 arg) (BitVec.ofNat 32 data) := by
  apply BitVec.eq_of_toNat_eq
  simp only [hostWord, toNat_append_eq_add, BitVec.toNat_ofNat]
  omega

/-- The index field is the low half of the data field. -/
theorem wordIndex_eq_setWidth (w : BitVec 48) : wordIndex w = (wordData w).setWidth 16 := by
  apply BitVec.eq_of_toNat_eq
  simp only [wordIndex, wordData, BitVec.extractLsb'_toNat, BitVec.toNat_setWidth]
  omega

/-- The op field as a number. -/
theorem wordOp_toNat (w : BitVec 48) : (wordOp w).toNat = w.toNat / 0x10000000000 := topField_toNat (k := 40) w

/-- The ops without an instruction (30_encoding.md R80). -/
theorem decodeHost_illegal (w : BitVec 48) (h : (wordOp w).toNat = 0 ∨ 8 ≤ (wordOp w).toNat) :
    decodeHost w = .illegalOp (wordOp w) := by
  have hne (k : BitVec 8) (hk : 1 ≤ k.toNat ∧ k.toNat ≤ 7) : wordOp w ≠ k := by
    rintro rfl
    omega
  rw [decodeHost, if_neg (hne 1#8 (by decide)), if_neg (hne 2#8 (by decide)), if_neg (hne 3#8 (by decide)),
    if_neg (hne 4#8 (by decide)), if_neg (hne 5#8 (by decide)), if_neg (hne 6#8 (by decide)),
    if_neg (hne 7#8 (by decide))]

/-- Settles O3: a word made of its fields has the fields of its op's instruction; the other ops are illegal. -/
theorem everyCommandWordHasOneMeaning : Obligations.EveryCommandWordHasOneMeaning := by
  intro op arg data hop harg hdata
  rw [ofNat_eq_hostWord op arg data harg hdata, decode]
  generalize hw : hostWord (BitVec.ofNat 8 op) (BitVec.ofNat 8 arg) (BitVec.ofNat 32 data) = w
  have hwop : wordOp w = BitVec.ofNat 8 op := hw ▸ wordOp_hostWord ..
  have hwarg : wordArg w = BitVec.ofNat 8 arg := hw ▸ wordArg_hostWord ..
  have hwdata : wordData w = BitVec.ofNat 32 data := hw ▸ wordData_hostWord ..
  have hwindex : wordIndex w = BitVec.ofNat 16 data := by
    rw [wordIndex_eq_setWidth, hwdata, BitVec.setWidth_ofNat_of_le (by decide)]
  have hcases : op = 1 ∨ op = 2 ∨ op = 3 ∨ op = 4 ∨ op = 5 ∨ op = 6 ∨ op = 7 ∨ (op = 0 ∨ 8 ≤ op) := by omega
  rcases hcases with rfl | rfl | rfl | rfl | rfl | rfl | rfl | hill
  · exact (decodeHost_eq_instr_iff w _).mpr ⟨hwop, hwarg⟩
  · exact (decodeHost_eq_instr_iff w _).mpr ⟨hwop, hwarg, hwdata⟩
  · exact (decodeHost_eq_instr_iff w _).mpr ⟨hwop, hwarg⟩
  · exact (decodeHost_eq_instr_iff w _).mpr hwop
  · exact (decodeHost_eq_instr_iff w _).mpr hwop
  · exact (decodeHost_eq_instr_iff w _).mpr ⟨hwop, hwarg, hwindex⟩
  · exact (decodeHost_eq_instr_iff w _).mpr ⟨hwop, hwindex⟩
  · have hnum : (wordOp w).toNat = op := by rw [hwop, BitVec.toNat_ofNat, Nat.mod_eq_of_lt hop]
    rw [decodeHost_illegal w (hnum ▸ hill), hwop]
    iterate 7 rw [if_neg (by omega)]

/-- Settles O6: the step takes the word, which is illegal, and refuses it. -/
theorem illegalCommandOnlyRaisesCmdErr : Obligations.IllegalCommandOnlyRaisesCmdErr := by
  intro s w rest hi hop
  rw [← wordOp_toNat] at hop
  simp only [step, hi, runWord, decode, decodeHost_illegal w hop]
  rfl

/-! ### Numbers outside the map -/

/-- A number outside the ranges of 10_state.md R38 names no register, since a register the block has stands in one of them. -/
theorem regOf_eq_none_of_outside (p : Params) (r : BitVec 8)
    (h : ¬ (r.toNat ≤ 0x0A ∨ (0x10 ≤ r.toNat ∧ r.toNat < 0x10 + p.fsMax.val) ∨ (0x20 ≤ r.toNat ∧ r.toNat ≤ 0x22) ∨
      (0x30 ≤ r.toNat ∧ r.toNat ≤ 0x34) ∨ (0x40 ≤ r.toNat ∧ r.toNat < 0x40 + 2 * p.nCmd.val))) :
    regOf p r = none := by
  cases hr : regOf p r with
  | none => rfl
  | some g =>
    obtain ⟨hm, rfl⟩ := regOf_eq_some p r g hr
    cases g with
    | fs i | ctCode i | ctHid i =>
      simp only [Reg.mapped, decide_eq_true_eq] at hm
      simp only [Reg.number, BitVec.toNat_ofNat] at h
      omega
    | _ => simp [Reg.number] at h

theorem cfgrd_unmapped (s : State) (r : BitVec 8) (h : regOf s.params r = none) :
    exec (.cfgrd r) s = .next s.refuseCommand := by
  simp only [exec, execCfgrd, h]

theorem cfgwr_unmapped (s : State) (r : BitVec 8) (v : Word) (h : regOf s.params r = none) :
    exec (.cfgwr r v) s = .next s.refuseCommand := by
  simp only [exec, execCfgwr, h]

/-- Settles O33: a number without a register is refused, read or written. -/
theorem unmappedRegisterOnlyRaisesCmdErr : Obligations.UnmappedRegisterOnlyRaisesCmdErr := by
  intro s r v h
  have hr := regOf_eq_none_of_outside s.params r h
  exact ⟨cfgrd_unmapped s r hr, cfgwr_unmapped s r v hr⟩

/-! ### Refused and ignored writes -/

/-- CFGWR of a configuration register of an enabled engine. -/
theorem cfgwr_rwf_enabled (s : State) (g : Reg) (v : Word) (hm : g.mapped s.params = true) (hg : g.access = .rwf)
    (hen : s.en = true) : exec (.cfgwr g.number v) s = .next s.refuseCommand := by
  simp [exec, execCfgwr, regOf_number _ _ hm, hg, hen]

/-- CFGWR of a read-only register. -/
theorem cfgwr_ro (s : State) (g : Reg) (v : Word) (hm : g.mapped s.params = true) (hg : g.access = .ro) :
    exec (.cfgwr g.number v) s = .next (s.respond 0) := by
  simp only [exec, execCfgwr, regOf_number _ _ hm, hg]

/-- The numbers 0x02 to 0x08 and those of the marker are the configuration registers (10_state.md R38). -/
theorem exists_rwf_of_number (p : Params) (r : BitVec 8)
    (h : (0x02 ≤ r.toNat ∧ r.toNat ≤ 0x08) ∨ (0x10 ≤ r.toNat ∧ r.toNat < 0x10 + p.fsMax.val)) :
    ∃ g : Reg, g.mapped p = true ∧ g.access = .rwf ∧ g.number = r := by
  rcases h with hfixed | ⟨hlo, hhi⟩
  · have hr : r = 0x02#8 ∨ r = 0x03#8 ∨ r = 0x04#8 ∨ r = 0x05#8 ∨ r = 0x06#8 ∨ r = 0x07#8 ∨ r = 0x08#8 := by bv_omega
    rcases hr with rfl | rfl | rfl | rfl | rfl | rfl | rfl
    · exact ⟨.width0, rfl, rfl, rfl⟩
    · exact ⟨.width1, rfl, rfl, rfl⟩
    · exact ⟨.feat, rfl, rfl, rfl⟩
    · exact ⟨.rstseq, rfl, rfl, rfl⟩
    · exact ⟨.lenExact, rfl, rfl, rfl⟩
    · exact ⟨.lenMax, rfl, rfl, rfl⟩
    · exact ⟨.user, rfl, rfl, rfl⟩
  · have hmax := p.fsMax.isLt
    refine ⟨.fs ⟨r.toNat - 0x10, by omega⟩, decide_eq_true ?_, rfl, BitVec.eq_of_toNat_eq ?_⟩
    · show r.toNat - 0x10 < p.fsMax.val
      omega
    · simp only [Reg.number, BitVec.toNat_ofNat]
      omega

/-- Settles O36: the number names a configuration register, whose write is refused while enabled. -/
theorem frozenRegisterWriteIsRefused : Obligations.FrozenRegisterWriteIsRefused := by
  intro s r v hen h
  obtain ⟨g, hm, hg, rfl⟩ := exists_rwf_of_number s.params r h
  exact cfgwr_rwf_enabled s g v hm hg hen

/-- Settles O37: the six numbers are those of the registers of access class RO. -/
theorem readOnlyRegisterWriteIsIgnored : Obligations.ReadOnlyRegisterWriteIsIgnored := by
  rintro s v r (rfl | rfl | rfl | rfl | rfl | rfl)
  · exact cfgwr_ro s .param0 v rfl rfl
  · exact cfgwr_ro s .param1 v rfl rfl
  · exact cfgwr_ro s .rxCount v rfl rfl
  · exact cfgwr_ro s .rxBodyLen v rfl rfl
  · exact cfgwr_ro s .rxRstRun v rfl rfl
  · exact cfgwr_ro s .txLen v rfl rfl

/-! ### CTRL -/

/-- CFGWR of CTRL, by what the write of CTRL gives. -/
theorem cfgwr_ctrl {s t : State} {v : Word} (h : s.writeCtrl v = t) :
    exec (.cfgwr (Reg.number .ctrl) v) s = .next (t.respond 0) := by
  subst h
  simp only [exec, execCfgwr, regOf_number s.params .ctrl rfl, Reg.access]

/-- Settles O39: with EN = 0 and bit 0 set, the write of CTRL is the legal enable or the refused one. -/
theorem enableChecksTheConfiguration : Obligations.EnableChecksTheConfiguration := by
  intro s v hen hv
  rcases writeCtrl_cases s v with ⟨hsame, _⟩ | ⟨hon, _, _⟩ | ⟨_, _, hl, hc, e⟩ | ⟨_, _, hill, e⟩
  · rw [hen, hv] at hsame; cases hsame
  · rw [hen] at hon; cases hon
  · exact ⟨fun _ => cfgwr_ctrl e, fun hill => by simp [hl, hc] at hill⟩
  · exact ⟨fun ⟨hl, hc⟩ => by simp [hl, hc] at hill, fun _ => cfgwr_ctrl e⟩

/-- Settles O40: the write of CTRL is the disable, or bit 0 is EN already; otherwise EN = 0 and bit 0 is set. -/
theorem otherCtrlWrites : Obligations.OtherCtrlWrites := by
  intro s v
  rcases writeCtrl_cases s v with ⟨hsame, e⟩ | ⟨hen, hv, e⟩ | ⟨hen, hv, _⟩ | ⟨hen, hv, _⟩
  · exact ⟨fun hen hv => absurd hsame (by rw [hen, hv]; decide), fun _ => cfgwr_ctrl e⟩
  · exact ⟨fun _ _ => cfgwr_ctrl e, fun hsame => absurd hsame (by rw [hen, hv]; decide)⟩
  all_goals exact ⟨fun hon => absurd hon (by rw [hen]; decide), fun hsame => absurd hsame (by rw [hen, hv]; decide)⟩

/-! ### CLEAR -/

/-- Settles O41: CLEAR is the zeroing of the progress registers and a response of 0. -/
theorem clearZeroesTheProgressRegisters : Obligations.ClearZeroesTheProgressRegisters := fun _ => rfl

end Sys2Proof.Machine
end
